-- ==== Sys2Proof/Word.lean ====
section
/-! DEFINITION. The bit string: what the bit-serial engine has in place of a machine word
(spec/00_scope.md R13). -/

namespace Sys2Proof

/-- A bit string in the order the bits are read: the head is the first bit read (R13). -/
abbrev Bits := List Bool

end Sys2Proof
end

