-- ==== Sys2Proof/Syntax.lean ====
section
/-! DEFINITION. The operations (one constructor per row of spec/opcode_table.json), the reader requests, the
micro-steps that the operations' pseudocode is made of, and the assembler lines. -/

namespace Sys2Proof

/-- The 40 operation kinds, in OP_TABLE order (30_encoding.md R63, 40_decode_loop.md R100).
An operation carries no operand values: its operand fields are read by its own micro-steps while it runs (R82, R93). -/
inductive Instr where
  | plusOne
  | plusTwo
  | plusThree
  | plusFour
  | plusN
  | pushOneLeftDeltaZeroRightZero
  | pushOneLeftDeltaZeroRightNonZero
  | pushOneLeftDeltaOneRightZero
  | pushOneLeftDeltaOneRightNonZero
  | pushOneLeftDeltaNRightZero
  | pushOneLeftDeltaNRightNonZero
  | pushOneLeftDeltaNRightNonZeroPack6Bits
  | pushOneLeftDeltaNRightNonZeroPack8Bits
  | pushTwoLeftDeltaZero
  | pushTwoPack5LeftDeltaZero
  | pushThreeLeftDeltaZero
  | pushThreePack5LeftDeltaZero
  | pushTwoLeftDeltaOne
  | pushTwoPack5LeftDeltaOne
  | pushThreeLeftDeltaOne
  | pushThreePack5LeftDeltaOne
  | pushTwoLeftDeltaN
  | pushTwoPack5LeftDeltaN
  | pushThreeLeftDeltaN
  | pushThreePack5LeftDeltaN
  | pushN
  | pushNAndNonTopological
  | popOnePlusOne
  | popOnePlusN
  | popAllButOnePlusOne
  | popAllButOnePlusN
  | popAllButOnePlusNPack3Bits
  | popAllButOnePlusNPack6Bits
  | popNPlusOne
  | popNPlusN
  | popNAndNonTopographical
  | nonTopoComplex
  | nonTopoPenultimatePlusOne
  | nonTopoComplexPack4Bits
  | fieldPathEncodeFinish
deriving DecidableEq, Repr

/-- A reader request (20_memory.md R38 to R43), which is also an operand field's kind (30_encoding.md R66). -/
inductive Request where
  | bit
  | bool
  | bits (n : Nat)
  | ubv
  | ubvfp
  | varS32
deriving DecidableEq, Repr

/-- A right-hand side of an operation's pseudocode: at most one field read, plus the operation's bias
(00_scope.md R15, 30_encoding.md R67). -/
structure Expr where
  /-- The request that decodes the field; none for a constant. -/
  field : Option Request
  /-- The constant, or the bias added to the field. -/
  bias : Int
deriving DecidableEq, Repr

/-- The micro-steps: what an operation's pseudocode is made of (00_scope.md R15, R16 and the glossary's
"micro-step"). Each makes at most one reader request at a time. -/
inductive Micro where
  /-- `SEG[CUR] <- SEG[CUR] + e`. -/
  | addTop (e : Expr)
  /-- `SEG[0] <- SEG[0] + e`. -/
  | addRoot (e : Expr)
  /-- `if CUR = 0 then raise PathUnderflow(CUR, 1); SEG[CUR-1] <- SEG[CUR-1] + 1` (R145). -/
  | addPenultimate
  /-- The first half of a push: the overflow check and `CUR <- CUR + 1` (R107). -/
  | enter
  /-- The second half of a push: `SEG[CUR] <- e` (R107). -/
  | setTop (e : Expr)
  /-- `Pop(n)` with a constant n (R132). -/
  | pop (n : Nat)
  /-- `Pop(CUR)` (R136). -/
  | popAll
  /-- `Pop(n)` with n read by a request (R140). -/
  | popRead (q : Request)
  /-- `n <- ReadUBV()`, then the increment of the top if there is one, then `repeat n times: PushRead(e)`
  (R130, R131). -/
  | countPush (increment : Option Expr) (e : Expr)
  /-- `repeat n times: PushRead(e)`, n already read. -/
  | pushes (n : Nat) (e : Expr)
  /-- `GuardLoop(e)`: CUR is read as it starts (R143). -/
  | guardLoop (e : Expr)
  /-- What is left of a guard loop: k levels from level i on. -/
  | guardsLeft (k i : Nat) (e : Expr)
  /-- `SEG[i] <- SEG[i] + e`, the body of a guard loop whose guard was true. -/
  | addLevel (i : Nat) (e : Expr)
  /-- `FIN <- 1` (R147). -/
  | setFin
deriving DecidableEq, Repr

/-- One operand slot of an operation's operand list (30_encoding.md R63, column "operands"; R68). -/
inductive Slot where
  /-- One field. -/
  | field (q : Request)
  /-- A count of levels to pop, which decides how many guards a later slot has. -/
  | popCount (q : Request)
  /-- A count of values to push, which decides how many values a later slot has. -/
  | pushCount (q : Request)
  /-- One guard for each level 0 to CUR, a true one followed at once by a field. -/
  | guards (q : Request)
  /-- As many fields as the push count said. -/
  | values (q : Request)
deriving DecidableEq, Repr

/-- The operand of one slot: field VALUES, with no bias applied (30_encoding.md R75). -/
inductive Operand where
  | field (v : Int)
  | guards (gs : List (Option Int))
  | values (vs : List Int)
deriving DecidableEq, Repr

/-- An assembler line: an operation and its operands in read order (30_encoding.md R75). -/
structure Line where
  op : Instr
  operands : List Operand
deriving DecidableEq, Repr

end Sys2Proof
end

