-- ==== Sys2Proof/Config.lean ====
section
/-! DEFINITION. MAX_DEPTH (00_scope.md R7), the values that R9 states for SEG_MIN and SEG_MAX, and the free values:
opaque constants, so that no proof can know them. -/

namespace Sys2Proof.Config

/-- MAX_DEPTH: the capacity of `segments` (R7). -/
def maxDepth : Nat := 6

/-- The value that R9 states for the parameter SEG_MIN. -/
def segMin : Int := -2147483648

/-- The value that R9 states for the parameter SEG_MAX. -/
def segMax : Int := 2147483647

/-! Free values of the state after a fault (60_exceptions.md R157: "unspecified"; log entry 7). Each is applied to the
number of times that such values were taken before (`draws`), so that two faults may leave different values. SEG and CUR
keep the range of their registers (10_state.md R18, R20); NODE and OPIDX, whose ranges the ROMs set, are free beyond it. -/

/-- SEG[i] after a fault: any integer, taken to the nearest value of SEG_MIN to SEG_MAX. -/
opaque faultSeg (draw i : Nat) : Int

/-- CUR after a fault: any of 0 to 5. -/
opaque faultCur (draw : Nat) : Fin 6

/-- FIN after a fault. -/
opaque faultFin (draw : Nat) : Bool

/-- NODE after a fault. -/
opaque faultNode (draw : Nat) : Nat

/-- OPIDX after a fault. -/
opaque faultOpidx (draw : Nat) : Nat

/-- OPIDX after RST: unspecified too (70_reset_and_hazards.md R170, R172; log entry 6). -/
opaque resetOpidx (draw : Nat) : Nat

/-- MSTEP after a fault. -/
opaque faultMstep (draw : Nat) : Option (List Micro)

/-- The reader's POS after a fault (R37, R157). -/
opaque faultPos (draw : Nat) : Nat

/-- What the 32-bit OUTCOUNT port shows once OUT holds more snapshots than 32 bits can count: the spec states no
value there (10_state.md R31; log entry 13). -/
opaque outcountBeyond (n : Nat) : BitVec 32

end Sys2Proof.Config
end

