-- ==== Sys2Proof/Machine/BitReader.lean ====
section
/-! DEFINITION. The Bit Reader: its decoding functions BR as a parameter (00_scope.md R10, 20_memory.md R40 to R43), the
reference layouts (R44 to R46), the reader itself (R47 to R50), and the field encoders that 30_encoding.md R75 asks for
(the shortest group that holds the value). -/

namespace Sys2Proof.Machine

/-! ### The parameter BR -/

/-- The order in which `ReadBits` assembles the bits of a fixed-width field (R40; 92_eei_decisions.md D7). That it is one of
these two, and the same for every width, is the model's DESIGN CHOICE: R10 asks only that ReadBits be deterministic, and
other assemblies are left out (log entry 3). -/
inductive BitOrder where
  | lsbFirst
  | msbFirst
deriving DecidableEq, Repr

/-- How a variable-length integer is laid out: what the reader does next, starting with nothing assembled. Any reader of
bounded length that is "deterministic" (R10) is such a tree of the bits it reads (log entry 3). -/
inductive Layout where
  /-- Read no further: the value is `base` plus what has been assembled or, where `negated`, `base` minus it. -/
  | give (negated : Bool) (base : Int)
  /-- `ReadBits(n)`, whose value is added in at bit `shift`. -/
  | take (n shift : Nat) (next : Layout)
  /-- `n` bits are consumed and have no effect on the value. -/
  | skip (n : Nat) (next : Layout)
  /-- `ReadBool()`, which chooses how to go on. -/
  | branch (zero one : Layout)
deriving DecidableEq, Repr

/-- BR: the reader's decoding functions (R10), as plain data. -/
structure BR where
  order : BitOrder
  ubv : Layout
  ubvfp : Layout
  varS32 : Layout
deriving DecidableEq, Repr

/-! ### Reading bits -/

/-- n bits, least significant first (R40). -/
def readBits : Nat → Bits → Option (Nat × Bits)
  | 0, bs => some (0, bs)
  | _ + 1, [] => none
  | n + 1, b :: bs =>
    match readBits n bs with
    | none => none
    | some (v, rest) => some (b.toNat + 2 * v, rest)

/-- n bits, most significant first, below what has been read before. -/
def readBitsMsb : Nat → Nat → Bits → Option (Nat × Bits)
  | 0, v, bs => some (v, bs)
  | _ + 1, _, [] => none
  | n + 1, v, b :: bs => readBitsMsb n (2 * v + b.toNat) bs

/-- `ReadBits(n)` in a given bit order (R40). -/
def readFixed (order : BitOrder) (n : Nat) (bs : Bits) : Option (Nat × Bits) :=
  match order with
  | .lsbFirst => readBits n bs
  | .msbFirst => readBitsMsb n 0 bs

/-- Reading on in a layout, with `acc` assembled so far. -/
def readLayout (order : BitOrder) : Layout → Nat → Bits → Option (Int × Bits)
  | .give negated base, acc, bs => some (if negated then base - acc else base + acc, bs)
  | .take n shift next, acc, bs =>
    match readFixed order n bs with
    | none => none
    | some (v, rest) => readLayout order next (acc + v * 2 ^ shift) rest
  | .skip n next, acc, bs =>
    match readBits n bs with
    | none => none
    | some (_, rest) => readLayout order next acc rest
  | .branch _ _, _, [] => none
  | .branch zero one, acc, b :: bs => if b then readLayout order one acc bs else readLayout order zero acc bs

/-- The value that the block receives for a variable-length request: in the range that R41 to R43 state, whatever the layout
(log entry 3). -/
def receivedValue (q : Request) (v : Int) : Int :=
  match q with
  | .bit => v
  | .bool => v
  | .bits _ => v
  | .ubv => v % 4294967296
  | .ubvfp => v % 2147483648
  | .varS32 => (v + 2147483648) % 4294967296 - 2147483648

/-- One variable-length request in a layout. -/
def readVariable (order : BitOrder) (l : Layout) (q : Request) (bs : Bits) : Option (Int × Bits) :=
  (readLayout order l 0 bs).map fun (v, rest) => (receivedValue q v, rest)

/-- What one request reads from a bit string: its value and the bits left, or none where too few bits are there
(R37 to R43). -/
def readRequest (br : BR) (q : Request) (bs : Bits) : Option (Int × Bits) :=
  match q with
  | .bit => (readBits 1 bs).map fun (v, rest) => ((v : Int), rest)
  | .bool => (readBits 1 bs).map fun (v, rest) => ((v : Int), rest)
  | .bits n => (readFixed br.order n bs).map fun (v, rest) => ((v : Int), rest)
  | .ubv => readVariable br.order br.ubv .ubv bs
  | .ubvfp => readVariable br.order br.ubvfp .ubvfp bs
  | .varS32 => readVariable br.order br.varS32 .varS32 bs

/-! ### The reference layouts -/

/-- What has been assembled is the value. -/
def Layout.stop : Layout := .give false 0

/-- UBV: bits 3:0, then bits 4 and 5, which choose 0, 4, 8 or 28 more bits above bit 3 (R44). -/
def referenceUBV : Layout :=
  .take 4 0
    (.branch
      (.branch .stop (.take 8 4 .stop))
      (.branch (.take 4 4 .stop) (.take 28 4 .stop)))

/-- UBVFP: a true selector bit takes the group beside it, and after four false ones the last group is taken (R45). -/
def referenceUBVFP : Layout :=
  .branch
    (.branch
      (.branch
        (.branch (.take 31 0 .stop) (.take 17 0 .stop))
        (.take 10 0 .stop))
      (.take 4 0 .stop))
    (.take 2 0 .stop)

/-- VarS32 after its first bit, the zig-zag sign: six more bits of the first group, and after each true continuation bit the
next group's seven, of which the fifth keeps four (R46). -/
def referenceVarTail (last : Layout) : Layout :=
  .take 6 0 (.branch last (.take 7 6 (.branch last (.take 7 13 (.branch last (.take 7 20 (.branch last
    (.take 4 27 (.skip 4 last)))))))))

/-- VarS32: a first bit of 0 gives the assembled bits v themselves and one of 1 gives -v-1 (R46). -/
def referenceVarS32 : Layout := .branch (referenceVarTail .stop) (referenceVarTail (.give true (-1)))

/-- The reference instantiation of BR (R40, R44 to R46). -/
def BR.reference : BR := ⟨.lsbFirst, referenceUBV, referenceUBVFP, referenceVarS32⟩

/-! ### The reference readers as their rules write them

`BR.reference` reads what these read (`readRequest_reference` in Laws/ReferenceReader.lean). -/

/-- `ReadUBV()`, as R44 writes it: bits 5:4 of the first six choose 0, 4, 8 or 28 more, which go above bits 3:0. -/
def readUBV (bs : Bits) : Option (Nat × Bits) :=
  match readBits 6 bs with
  | none => none
  | some (r, rest) =>
    let more := match r / 16 with | 0 => 0 | 1 => 4 | 2 => 8 | _ => 28
    match readBits more rest with
    | none => none
    | some (hi, rest') => some (hi * 16 + r % 16, rest')

/-- The ladder of `readUBVFP`: a true selector bit takes the group beside it, and after the last selector the last
group is taken without one (R45). -/
def readLadder : List Nat → Nat → Bits → Option (Nat × Bits)
  | [], last, bs => readBits last bs
  | _ :: _, _, [] => none
  | n :: ns, last, b :: bs => if b then readBits n bs else readLadder ns last bs

/-- `ReadUBVFP()` as R45 writes it. -/
def readUBVFP (bs : Bits) : Option (Nat × Bits) := readLadder [2, 4, 10, 17] 31 bs

/-- The loop of `ReadVarU32()`: `groups` 8-bit groups may still be read, the next one's bits 6:0 go in at `shift`, and
`x` is what has been assembled (R46). -/
def readGroups : Nat → Nat → Nat → Bits → Option (Nat × Bits)
  | 0, _, x, bs => some (x, bs)
  | groups + 1, shift, x, bs =>
    match readBits 8 bs with
    | none => none
    | some (b, rest) =>
      let x' := (x ||| ((b % 128) <<< shift)) % 2 ^ 32
      if b / 128 = 0 then some (x', rest) else readGroups groups (shift + 7) x' rest

/-- `ReadVarU32()`: at most five groups (R46). -/
def readVarU32 (bs : Bits) : Option (Nat × Bits) := readGroups 5 0 0 bs

/-- The zig-zag value of `ux` (R46). -/
def unzigzag (ux : Nat) : Int := if ux % 2 = 1 then -((ux / 2 : Nat) : Int) - 1 else ((ux / 2 : Nat) : Int)

/-- `ReadVarS32()` as R46 writes it. -/
def readVarS32 (bs : Bits) : Option (Int × Bits) :=
  match readVarU32 bs with
  | none => none
  | some (ux, rest) => some (unzigzag ux, rest)

/-- One request as the rules of the reference layouts write it (R38 to R46). -/
def referenceRequest (q : Request) (bs : Bits) : Option (Int × Bits) :=
  match q with
  | .bit => (readBits 1 bs).map fun (v, rest) => ((v : Int), rest)
  | .bool => (readBits 1 bs).map fun (v, rest) => ((v : Int), rest)
  | .bits n => (readBits n bs).map fun (v, rest) => ((v : Int), rest)
  | .ubv => (readUBV bs).map fun (v, rest) => ((v : Int), rest)
  | .ubvfp => (readUBVFP bs).map fun (v, rest) => ((v : Int), rest)
  | .varS32 => readVarS32 bs

/-! ### The reader -/

/-- The external Bit Reader: STREAM, the position POS of its next bit (10_state.md R30, 20_memory.md R48), and the decoding
functions BR that it was built with (00_scope.md R10). -/
structure Reader where
  stream : Bits
  pos : Nat
  br : BR
deriving DecidableEq, Repr

/-- Where the host puts the reader: a stream, and a position in it (70_reset_and_hazards.md R174). -/
structure Chunk where
  stream : Bits
  pos : Nat
deriving DecidableEq, Repr

/-- The reader on a chunk; its decoding functions stay. -/
def Reader.onChunk (r : Reader) (c : Chunk) : Reader := { r with stream := c.stream, pos := c.pos }

/-- The reader after a host that may have positioned it. -/
def Reader.placed (r : Reader) : Option Chunk → Reader
  | none => r
  | some c => r.onChunk c

/-- The bits not consumed yet. -/
def Reader.rest (r : Reader) : Bits := r.stream.drop r.pos

/-- The reader after `n` more bits were consumed. -/
def Reader.advance (r : Reader) (n : Nat) : Reader := { r with pos := r.pos + n }

/-- One request: its value, and the reader moved past exactly the bits it consumed (R30); none says EXHAUSTED (R37). -/
def Reader.request (q : Request) (r : Reader) : Option (Int × Reader) :=
  match readRequest r.br q r.rest with
  | none => none
  | some (v, left) => some (v, r.advance (r.rest.length - left.length))

/-! ### Field encoders -/

/-- The `n`-bit field of value `v`, least significant bit first (R40). -/
def encodeBits : Nat → Nat → Bits
  | 0, _ => []
  | n + 1, v => (v % 2 == 1) :: encodeBits n (v / 2)

/-- UBV in the shortest of its four forms (R44, R75). -/
def encodeUBV (v : Nat) : Bits :=
  if v < 16 then encodeBits 6 v
  else if v < 256 then encodeBits 6 (16 + v % 16) ++ encodeBits 4 (v / 16)
  else if v < 4096 then encodeBits 6 (32 + v % 16) ++ encodeBits 8 (v / 16)
  else encodeBits 6 (48 + v % 16) ++ encodeBits 28 (v / 16)

/-- UBVFP in the shortest of its five groups (R45, R75). -/
def encodeUBVFP (v : Nat) : Bits :=
  if v < 4 then true :: encodeBits 2 v
  else if v < 16 then false :: true :: encodeBits 4 v
  else if v < 1024 then false :: false :: true :: encodeBits 10 v
  else if v < 131072 then false :: false :: false :: true :: encodeBits 17 v
  else false :: false :: false :: false :: encodeBits 31 v

/-- VarU32 in as few groups as hold the value, at most `groups` (R46, R75). -/
def encodeGroups : Nat → Nat → Bits
  | 0, _ => []
  | groups + 1, v =>
    if v < 128 then encodeBits 8 v else encodeBits 8 (128 + v % 128) ++ encodeGroups groups (v / 128)

/-- The zig-zag code of a signed value (R46). -/
def zigzag (v : Int) : Nat := if v < 0 then 2 * (-v - 1).toNat + 1 else 2 * v.toNat

/-- VarS32 in the fewest groups (R46, R75). -/
def encodeVarS32 (v : Int) : Bits := encodeGroups 5 (zigzag v)

/-- One field's encoding in the reference layouts (R66, R75). -/
def encodeRequest (q : Request) (v : Int) : Bits :=
  match q with
  | .bit => encodeBits 1 v.toNat
  | .bool => encodeBits 1 v.toNat
  | .bits n => encodeBits n v.toNat
  | .ubv => encodeUBV v.toNat
  | .ubvfp => encodeUBVFP v.toNat
  | .varS32 => encodeVarS32 v

/-! ### Byte order of a stream given as bytes -/

/-- Stream bit i is bit (i mod 8) of byte i / 8 (R50). -/
def bitsOfBytes (bytes : List (BitVec 8)) : Bits := bytes.flatMap fun b => encodeBits 8 b.toNat

end Sys2Proof.Machine
end

