-- ==== Sys2Proof/Machine/Rom.lean ====
section
/-! DEFINITION. The two constant ROMs: OPROM, the operation table (30_encoding.md R63), and TREE, the code tree, with
the construction that fixes it (R57 to R61, R64). Their contents are the spec's reference instantiation
(log entries 1 and 2). -/

namespace Sys2Proof.Machine

/-- The operation's OP_TABLE name (R63), letter for letter as in spec/opcode_table.json. -/
def mnemonic : Instr → String
  | .plusOne => "PlusOne"
  | .plusTwo => "PlusTwo"
  | .plusThree => "PlusThree"
  | .plusFour => "PlusFour"
  | .plusN => "PlusN"
  | .pushOneLeftDeltaZeroRightZero => "PushOneLeftDeltaZeroRightZero"
  | .pushOneLeftDeltaZeroRightNonZero => "PushOneLeftDeltaZeroRightNonZero"
  | .pushOneLeftDeltaOneRightZero => "PushOneLeftDeltaOneRightZero"
  | .pushOneLeftDeltaOneRightNonZero => "PushOneLeftDeltaOneRightNonZero"
  | .pushOneLeftDeltaNRightZero => "PushOneLeftDeltaNRightZero"
  | .pushOneLeftDeltaNRightNonZero => "PushOneLeftDeltaNRightNonZero"
  | .pushOneLeftDeltaNRightNonZeroPack6Bits => "PushOneLeftDeltaNRightNonZeroPack6Bits"
  | .pushOneLeftDeltaNRightNonZeroPack8Bits => "PushOneLeftDeltaNRightNonZeroPack8Bits"
  | .pushTwoLeftDeltaZero => "PushTwoLeftDeltaZero"
  | .pushTwoPack5LeftDeltaZero => "PushTwoPack5LeftDeltaZero"
  | .pushThreeLeftDeltaZero => "PushThreeLeftDeltaZero"
  | .pushThreePack5LeftDeltaZero => "PushThreePack5LeftDeltaZero"
  | .pushTwoLeftDeltaOne => "PushTwoLeftDeltaOne"
  | .pushTwoPack5LeftDeltaOne => "PushTwoPack5LeftDeltaOne"
  | .pushThreeLeftDeltaOne => "PushThreeLeftDeltaOne"
  | .pushThreePack5LeftDeltaOne => "PushThreePack5LeftDeltaOne"
  | .pushTwoLeftDeltaN => "PushTwoLeftDeltaN"
  | .pushTwoPack5LeftDeltaN => "PushTwoPack5LeftDeltaN"
  | .pushThreeLeftDeltaN => "PushThreeLeftDeltaN"
  | .pushThreePack5LeftDeltaN => "PushThreePack5LeftDeltaN"
  | .pushN => "PushN"
  | .pushNAndNonTopological => "PushNAndNonTopological"
  | .popOnePlusOne => "PopOnePlusOne"
  | .popOnePlusN => "PopOnePlusN"
  | .popAllButOnePlusOne => "PopAllButOnePlusOne"
  | .popAllButOnePlusN => "PopAllButOnePlusN"
  | .popAllButOnePlusNPack3Bits => "PopAllButOnePlusNPack3Bits"
  | .popAllButOnePlusNPack6Bits => "PopAllButOnePlusNPack6Bits"
  | .popNPlusOne => "PopNPlusOne"
  | .popNPlusN => "PopNPlusN"
  | .popNAndNonTopographical => "PopNAndNonTopographical"
  | .nonTopoComplex => "NonTopoComplex"
  | .nonTopoPenultimatePlusOne => "NonTopoPenultimatePlusOne"
  | .nonTopoComplexPack4Bits => "NonTopoComplexPack4Bits"
  | .fieldPathEncodeFinish => "FieldPathEncodeFinish"

/-- One OPROM entry: name, weight, kind (00_scope.md R8). A kind of none is one that the multiplexer does not
implement (40_decode_loop.md R81). -/
structure OpEntry where
  name : String
  weight : Nat
  kind : Option Instr
deriving DecidableEq, Repr

/-- One TREE node (30_encoding.md R60): a leaf carries its operation index, an internal node its two children. -/
inductive TreeNode where
  | leaf (op : Nat)
  | internal (child0 child1 : Nat)
deriving DecidableEq, Repr

/-- The two ROMs (10_state.md R17, R33). A node's id is its place in `tree`, an operation's index its place in `ops`. -/
structure Rom where
  tree : List TreeNode
  ops : List OpEntry
deriving DecidableEq, Repr

/-- N_OPS (00_scope.md R8). -/
def Rom.nOps (rom : Rom) : Nat := rom.ops.length

/-- The root's id, 2·N_OPS-2 (30_encoding.md R59). -/
def Rom.root (rom : Rom) : Nat := 2 * rom.nOps - 2

/-- The kind of an operation index; none where the index is not below N_OPS or has no implemented kind (R81). -/
def Rom.kindOf (rom : Rom) (op : Nat) : Option Instr :=
  match rom.ops[op]? with
  | none => none
  | some entry => entry.kind

/-! ### The reference operation table -/

/-- The 40 kinds in index order (R63). -/
def referenceKinds : List Instr :=
  [.plusOne, .plusTwo, .plusThree, .plusFour,
   .plusN, .pushOneLeftDeltaZeroRightZero, .pushOneLeftDeltaZeroRightNonZero, .pushOneLeftDeltaOneRightZero,
   .pushOneLeftDeltaOneRightNonZero, .pushOneLeftDeltaNRightZero, .pushOneLeftDeltaNRightNonZero, .pushOneLeftDeltaNRightNonZeroPack6Bits,
   .pushOneLeftDeltaNRightNonZeroPack8Bits, .pushTwoLeftDeltaZero, .pushTwoPack5LeftDeltaZero, .pushThreeLeftDeltaZero,
   .pushThreePack5LeftDeltaZero, .pushTwoLeftDeltaOne, .pushTwoPack5LeftDeltaOne, .pushThreeLeftDeltaOne,
   .pushThreePack5LeftDeltaOne, .pushTwoLeftDeltaN, .pushTwoPack5LeftDeltaN, .pushThreeLeftDeltaN,
   .pushThreePack5LeftDeltaN, .pushN, .pushNAndNonTopological, .popOnePlusOne,
   .popOnePlusN, .popAllButOnePlusOne, .popAllButOnePlusN, .popAllButOnePlusNPack3Bits,
   .popAllButOnePlusNPack6Bits, .popNPlusOne, .popNPlusN, .popNAndNonTopographical,
   .nonTopoComplex, .nonTopoPenultimatePlusOne, .nonTopoComplexPack4Bits, .fieldPathEncodeFinish]

/-- The 40 weights in index order (R63). -/
def referenceWeights : List Nat :=
  [36271, 10334, 1375, 646, 4128, 35, 3, 521, 2942, 560,
   471, 10530, 251, 0, 0, 0, 0, 0, 0, 0,
   0, 0, 0, 0, 0, 0, 310, 2, 0, 1837,
   149, 300, 634, 0, 0, 1, 76, 271, 99, 25474]

/-- The reference OPROM (R63). -/
def referenceOps : List OpEntry :=
  (referenceKinds.zip referenceWeights).map fun (k, w) => ⟨mnemonic k, w, some k⟩

/-! ### The reference tree -/

/-- The internal nodes 40 to 78 (R64). -/
def referenceInternals : List TreeNode :=
  [.internal 35 34, .internal 33 28, .internal 25 24, .internal 23 22, .internal 21 20, .internal 19 18,
   .internal 17 16, .internal 15 14, .internal 13 47, .internal 46 45, .internal 44 43, .internal 42 41,
   .internal 40 27, .internal 48 6, .internal 52 51, .internal 50 49, .internal 53 55, .internal 54 56,
   .internal 57 5, .internal 58 36, .internal 38 59, .internal 30 60, .internal 12 37, .internal 31 26,
   .internal 61 10, .internal 7 62, .internal 9 63, .internal 32 3, .internal 64 65, .internal 66 67,
   .internal 2 29, .internal 68 69, .internal 8 70, .internal 4 71, .internal 72 73, .internal 1 11,
   .internal 74 75, .internal 39 76, .internal 0 77]

/-- The reference TREE: leaves 0 to 39, then the internal nodes; the root is node 78 (R64). -/
def referenceTree : List TreeNode := (List.range 40).map .leaf ++ referenceInternals

/-- The reference ROM contents. -/
def referenceRom : Rom := ⟨referenceTree, referenceOps⟩

/-! ### Tree construction -/

/-- TIE_BREAK: which of two nodes of equal weight is removed first (R58, R74). The two orders by node id are the model's
DESIGN CHOICE: 00_scope.md R11 asks only for a stable and deterministic tie-break, and others are left out (log entry
27). -/
inductive TieBreak where
  | largerIdFirst
  | smallerIdFirst
deriving DecidableEq, Repr

/-- ORIENT: which child the first removed node becomes (R59). The two fixed orientations are the model's DESIGN CHOICE: R11
does not say that ORIENT is the same at every merge (log entry 27). -/
inductive Orient where
  | firstIsChild0
  | firstIsChild1
deriving DecidableEq, Repr

/-- The tree-construction parameters (00_scope.md R11). `zeroWeight` is the weight that a weight of 0 enters the merge
with. -/
structure TreeParams where
  zeroWeight : Nat
  tieBreak : TieBreak
  orient : Orient
deriving DecidableEq, Repr

/-- The reference parameters (R58, R59). -/
def referenceParams : TreeParams := ⟨1, .largerIdFirst, .firstIsChild0⟩

/-- A node of the working collection W (R57). -/
structure Weighted where
  id : Nat
  weight : Nat
deriving DecidableEq, Repr

/-- Whether `a` is removed before `b`: the lesser weight, and TIE_BREAK among equals (R57, R58). -/
def removedBefore (tb : TieBreak) (a b : Weighted) : Bool :=
  a.weight < b.weight ||
    (a.weight == b.weight && match tb with
      | .largerIdFirst => b.id < a.id
      | .smallerIdFirst => a.id < b.id)

/-- The node of `a :: ws` that is removed first. -/
def firstRemoved (tb : TieBreak) (a : Weighted) (ws : List Weighted) : Weighted :=
  ws.foldl (fun best w => if removedBefore tb w best then w else best) a

/-- The merges (R57), at most `fuel` of them: the internal nodes in the order they are made, the first with id `next`. -/
def mergeNodes (p : TreeParams) : Nat → Nat → List Weighted → List TreeNode
  | 0, _, _ => []
  | _ + 1, _, [] => []
  | fuel + 1, next, w :: ws =>
    let a := firstRemoved p.tieBreak w ws
    match (w :: ws).erase a with
    | [] => []
    | v :: vs =>
      let b := firstRemoved p.tieBreak v vs
      let made : Weighted := ⟨next, a.weight + b.weight⟩
      let node : TreeNode := match p.orient with
        | .firstIsChild0 => .internal a.id b.id
        | .firstIsChild1 => .internal b.id a.id
      node :: mergeNodes p fuel (next + 1) ((v :: vs).erase b ++ [made])

/-- `build(weights)` (R57): one leaf per weight, then the internal nodes. -/
def buildTree (p : TreeParams) (weights : List Nat) : List TreeNode :=
  let leaves := (weights.zipIdx).map fun (w, i) => (⟨i, if w = 0 then p.zeroWeight else w⟩ : Weighted)
  (List.range weights.length).map .leaf ++ mergeNodes p weights.length weights.length leaves

/-- The path from node `id` to the leaf of operation `op`, first bit first, within `fuel` steps (R61). -/
def pathTo (tree : List TreeNode) (op : Nat) : Nat → Nat → Option Bits
  | 0, _ => none
  | fuel + 1, id =>
    match tree[id]? with
    | none => none
    | some (.leaf i) => if i = op then some [] else none
    | some (.internal c0 c1) =>
      match pathTo tree op fuel c0 with
      | some path => some (false :: path)
      | none => (pathTo tree op fuel c1).map (true :: ·)

end Sys2Proof.Machine
end

