-- ==== Sys2Proof/Machine/Operands.lean ====
section
/-! DEFINITION. The operand forms: the operand slots of each operation (30_encoding.md R63, R66, R68), and the
right-hand sides of the pseudocode with their biases (R67). -/

namespace Sys2Proof.Machine

/-! ### Slots -/

/-- The operand slots of each operation, in read order (R63, column "operands"). -/
def slotsOf : Instr → List Slot
  | .plusOne => []
  | .plusTwo => []
  | .plusThree => []
  | .plusFour => []
  | .plusN => [.field .ubvfp]
  | .pushOneLeftDeltaZeroRightZero => []
  | .pushOneLeftDeltaZeroRightNonZero => [.field .ubvfp]
  | .pushOneLeftDeltaOneRightZero => []
  | .pushOneLeftDeltaOneRightNonZero => [.field .ubvfp]
  | .pushOneLeftDeltaNRightZero => [.field .ubvfp]
  | .pushOneLeftDeltaNRightNonZero => [.field .ubvfp, .field .ubvfp]
  | .pushOneLeftDeltaNRightNonZeroPack6Bits => [.field (.bits 3), .field (.bits 3)]
  | .pushOneLeftDeltaNRightNonZeroPack8Bits => [.field (.bits 4), .field (.bits 4)]
  | .pushTwoLeftDeltaZero => [.field .ubvfp, .field .ubvfp]
  | .pushTwoPack5LeftDeltaZero => [.field (.bits 5), .field (.bits 5)]
  | .pushThreeLeftDeltaZero => [.field .ubvfp, .field .ubvfp, .field .ubvfp]
  | .pushThreePack5LeftDeltaZero => [.field (.bits 5), .field (.bits 5), .field (.bits 5)]
  | .pushTwoLeftDeltaOne => [.field .ubvfp, .field .ubvfp]
  | .pushTwoPack5LeftDeltaOne => [.field (.bits 5), .field (.bits 5)]
  | .pushThreeLeftDeltaOne => [.field .ubvfp, .field .ubvfp, .field .ubvfp]
  | .pushThreePack5LeftDeltaOne => [.field (.bits 5), .field (.bits 5), .field (.bits 5)]
  | .pushTwoLeftDeltaN => [.field .ubv, .field .ubvfp, .field .ubvfp]
  | .pushTwoPack5LeftDeltaN => [.field .ubv, .field (.bits 5), .field (.bits 5)]
  | .pushThreeLeftDeltaN => [.field .ubv, .field .ubvfp, .field .ubvfp, .field .ubvfp]
  | .pushThreePack5LeftDeltaN => [.field .ubv, .field (.bits 5), .field (.bits 5), .field (.bits 5)]
  | .pushN => [.pushCount .ubv, .field .ubv, .values .ubvfp]
  | .pushNAndNonTopological => [.guards .varS32, .pushCount .ubv, .values .ubvfp]
  | .popOnePlusOne => []
  | .popOnePlusN => [.field .ubvfp]
  | .popAllButOnePlusOne => []
  | .popAllButOnePlusN => [.field .ubvfp]
  | .popAllButOnePlusNPack3Bits => [.field (.bits 3)]
  | .popAllButOnePlusNPack6Bits => [.field (.bits 6)]
  | .popNPlusOne => [.popCount .ubvfp]
  | .popNPlusN => [.popCount .ubvfp, .field .varS32]
  | .popNAndNonTopographical => [.popCount .ubvfp, .guards .varS32]
  | .nonTopoComplex => [.guards .varS32]
  | .nonTopoPenultimatePlusOne => []
  | .nonTopoComplexPack4Bits => [.guards (.bits 4)]
  | .fieldPathEncodeFinish => []

/-! ### Field ranges -/

/-- Whether a value is one that a field of this kind can hold (R66). -/
def fieldAdmits (q : Request) (v : Int) : Bool :=
  match q with
  | .bit => decide (0 ≤ v ∧ v < 2)
  | .bool => decide (0 ≤ v ∧ v < 2)
  | .bits n => decide (0 ≤ v ∧ v < 2 ^ n)
  | .ubv => decide (0 ≤ v ∧ v < 4294967296)
  | .ubvfp => decide (0 ≤ v ∧ v < 2147483648)
  | .varS32 => decide (-2147483648 ≤ v ∧ v < 2147483648)

/-! ### Right-hand sides -/

/-- A constant. -/
def constant (k : Int) : Expr := ⟨none, k⟩

/-- A field plus its bias (R67). -/
def fieldPlus (q : Request) (bias : Int) : Expr := ⟨some q, bias⟩

/-- The value of a right-hand side, exact (00_scope.md R14), and the reader after its request; none says EXHAUSTED. -/
def evalExpr (e : Expr) (rd : Reader) : Option (Int × Reader) :=
  match e.field with
  | none => some (e.bias, rd)
  | some q =>
    match rd.request q with
    | none => none
    | some (v, rd') => some (v + e.bias, rd')

end Sys2Proof.Machine
end

