-- ==== Sys2Proof/WellFormed.lean ====
section
/-! DEFINITION. Which assembler lines are well formed at a cursor: each slot has an operand of its shape, every value is
one its field can hold (30_encoding.md R66, R70), and the counted parts have as many items as R68 says. Every `Instr` is
well formed: it has no operands of its own. -/

namespace Sys2Proof

open Sys2Proof.Machine

/-- Whether the operands fit the slots, with `levels` levels active and `count` values still to come (R68). A pop count may
exceed the levels there are (R70); then no level is left to guard (log entry 26). -/
def operandsWf : List Slot → List Operand → Nat → Nat → Bool
  | [], [], _, _ => true
  | .field q :: slots, .field v :: os, levels, count => fieldAdmits q v && operandsWf slots os levels count
  | .popCount q :: slots, .field v :: os, levels, count =>
    fieldAdmits q v && operandsWf slots os (levels - v.toNat) count
  | .pushCount q :: slots, .field v :: os, levels, _ => fieldAdmits q v && operandsWf slots os levels v.toNat
  | .guards q :: slots, .guards gs :: os, levels, count =>
    gs.length == levels && gs.all (fun g => g.all (fieldAdmits q)) && operandsWf slots os levels count
  | .values q :: slots, .values vs :: os, levels, count =>
    vs.length == count && vs.all (fieldAdmits q) && operandsWf slots os levels count
  | _, _, _, _ => false

/-- A line that is well formed at a cursor (R75). -/
def Line.wf (l : Line) (cur : Nat) : Bool := operandsWf (slotsOf l.op) l.operands (cur + 1) 0

end Sys2Proof
end

