-- ==== Sys2Proof/Decode.lean ====
section
/-! DEFINITION. From bits to operations: the walk down TREE (30_encoding.md R61, 40_decode_loop.md R78, R79), the
decoder of operations and of assembler lines, total on any bits, and after them the encoder, from the code table of
R63 and the field layouts. -/

namespace Sys2Proof

open Sys2Proof.Machine

/-! ### The walk -/

/-- How a walk ends. -/
inductive Walk where
  /-- At a leaf: its operation index and the number of code bits read. -/
  | leaf (op consumed : Nat)
  /-- At an internal node with no bit left (R71). -/
  | exhausted
  /-- At a node id that the tree does not have. -/
  | noNode (id : Nat)
deriving DecidableEq, Repr

/-- The child that a code bit leads to: "1 descends right, 0 descends left" (R61). -/
def childOn (b : Bool) (child0 child1 : Nat) : Nat := if b then child1 else child0

/-- The walk from node `id` on: a leaf ends it without reading a bit; an internal node reads one bit (R78, R79). -/
def walk (tree : List TreeNode) : Nat → Nat → Bits → Walk
  | id, n, [] =>
    match tree[id]? with
    | none => .noNode id
    | some (.leaf op) => .leaf op n
    | some (.internal _ _) => .exhausted
  | id, n, b :: bs =>
    match tree[id]? with
    | none => .noNode id
    | some (.leaf op) => .leaf op n
    | some (.internal c0 c1) => walk tree (childOn b c0 c1) (n + 1) bs

/-! ### The decoder -/

/-- Why a bit string is no operation, or no line. -/
inductive DecodeError where
  /-- The bits end inside a code or a field (R71). -/
  | malformedStream
  /-- The code's leaf has no operation (R70, R81). -/
  | unknownSymbol (op : Nat)
  /-- The walk left the tree. -/
  | noNode (id : Nat)
deriving DecidableEq, Repr

/-- The operation that a bit string begins with, under given ROMs, and the bits after its code. -/
def decodeIn (rom : Rom) (bs : Bits) : Except DecodeError (Instr × Bits) :=
  match walk rom.tree rom.root 0 bs with
  | .exhausted => .error .malformedStream
  | .noNode id => .error (.noNode id)
  | .leaf op n =>
    match rom.kindOf op with
    | none => .error (.unknownSymbol op)
    | some i => .ok (i, bs.drop n)

/-- The operation that a bit string begins with, and the bits after its code, with the reference ROMs. -/
def decode (bs : Bits) : Except DecodeError (Instr × Bits) := decodeIn referenceRom bs

/-- `k` fields of one kind. -/
def readValues (br : BR) (q : Request) : Nat → Bits → Option (List Int × Bits)
  | 0, bs => some ([], bs)
  | k + 1, bs =>
    match readRequest br q bs with
    | none => none
    | some (v, bs1) =>
      match readValues br q k bs1 with
      | none => none
      | some (vs, bs2) => some (v :: vs, bs2)

/-- `k` guards, a true one followed at once by its field (R68). -/
def readGuards (br : BR) (q : Request) : Nat → Bits → Option (List (Option Int) × Bits)
  | 0, bs => some ([], bs)
  | _ + 1, [] => none
  | k + 1, false :: bs =>
    match readGuards br q k bs with
    | none => none
    | some (gs, bs1) => some (none :: gs, bs1)
  | k + 1, true :: bs =>
    match readRequest br q bs with
    | none => none
    | some (v, bs1) =>
      match readGuards br q k bs1 with
      | none => none
      | some (gs, bs2) => some (some v :: gs, bs2)

/-- The operands of a slot list, with `levels` levels active and a push count read earlier (R68). Every field value is
accepted (R70); a pop count above the levels there are leaves none to guard (log entry 26). -/
def decodeOperands (br : BR) : List Slot → Nat → Nat → Bits → Except DecodeError (List Operand × Bits)
  | [], _, _, bs => .ok ([], bs)
  | .field q :: slots, levels, count, bs =>
    match readRequest br q bs with
    | none => .error .malformedStream
    | some (v, bs1) =>
      match decodeOperands br slots levels count bs1 with
      | .error e => .error e
      | .ok (os, bs2) => .ok (.field v :: os, bs2)
  | .popCount q :: slots, levels, count, bs =>
    match readRequest br q bs with
    | none => .error .malformedStream
    | some (v, bs1) =>
      match decodeOperands br slots (levels - v.toNat) count bs1 with
      | .error e => .error e
      | .ok (os, bs2) => .ok (.field v :: os, bs2)
  | .pushCount q :: slots, levels, _, bs =>
    match readRequest br q bs with
    | none => .error .malformedStream
    | some (v, bs1) =>
      match decodeOperands br slots levels v.toNat bs1 with
      | .error e => .error e
      | .ok (os, bs2) => .ok (.field v :: os, bs2)
  | .guards q :: slots, levels, count, bs =>
    match readGuards br q levels bs with
    | none => .error .malformedStream
    | some (gs, bs1) =>
      match decodeOperands br slots levels count bs1 with
      | .error e => .error e
      | .ok (os, bs2) => .ok (.guards gs :: os, bs2)
  | .values q :: slots, levels, count, bs =>
    match readValues br q count bs with
    | none => .error .malformedStream
    | some (vs, bs1) =>
      match decodeOperands br slots levels count bs1 with
      | .error e => .error e
      | .ok (os, bs2) => .ok (.values vs :: os, bs2)

/-- The line that a bit string begins with, at a cursor and with the reader's BR, and the bits after it (R65, R75). -/
def decodeLine (br : BR) (cur : Nat) (bs : Bits) : Except DecodeError (Line × Bits) :=
  match decode bs with
  | .error e => .error e
  | .ok (op, bs1) =>
    match decodeOperands br (slotsOf op) (cur + 1) 0 bs1 with
    | .error e => .error e
    | .ok (os, bs2) => .ok (⟨op, os⟩, bs2)

/-! ### The encoder -/

/-- The code of `n` bits written as a binary numeral: its most significant digit is the first bit read (R13). -/
def code (n word : Nat) : Bits := (encodeBits n word).reverse

/-- The code of each operation (R63). -/
def encode : Instr → Bits
  | .plusOne => code 1 0b0
  | .plusTwo => code 4 0b1110
  | .plusThree => code 6 0b110010
  | .plusFour => code 8 0b11011111
  | .plusN => code 5 0b11010
  | .pushOneLeftDeltaZeroRightZero => code 12 0b110110001101
  | .pushOneLeftDeltaZeroRightNonZero => code 15 0b110110001100101
  | .pushOneLeftDeltaOneRightZero => code 8 0b11011010
  | .pushOneLeftDeltaOneRightNonZero => code 5 0b11000
  | .pushOneLeftDeltaNRightZero => code 8 0b11011100
  | .pushOneLeftDeltaNRightNonZero => code 8 0b11011001
  | .pushOneLeftDeltaNRightNonZeroPack6Bits => code 4 0b1111
  | .pushOneLeftDeltaNRightNonZeroPack8Bits => code 9 0b110110110
  | .pushTwoLeftDeltaZero => code 16 0b1101100011001000
  | .pushTwoPack5LeftDeltaZero => code 17 0b11011000110010011
  | .pushThreeLeftDeltaZero => code 17 0b11011000110010010
  | .pushThreePack5LeftDeltaZero => code 17 0b11011000110011101
  | .pushTwoLeftDeltaOne => code 17 0b11011000110011100
  | .pushTwoPack5LeftDeltaOne => code 17 0b11011000110011111
  | .pushThreeLeftDeltaOne => code 17 0b11011000110011110
  | .pushThreePack5LeftDeltaOne => code 17 0b11011000110011001
  | .pushTwoLeftDeltaN => code 17 0b11011000110011000
  | .pushTwoPack5LeftDeltaN => code 17 0b11011000110011011
  | .pushThreeLeftDeltaN => code 17 0b11011000110011010
  | .pushThreePack5LeftDeltaN => code 16 0b1101100011000101
  | .pushN => code 16 0b1101100011000100
  | .pushNAndNonTopological => code 9 0b110111011
  | .popOnePlusOne => code 15 0b110110001100001
  | .popOnePlusN => code 16 0b1101100011000111
  | .popAllButOnePlusOne => code 6 0b110011
  | .popAllButOnePlusN => code 9 0b110110000
  | .popAllButOnePlusNPack3Bits => code 9 0b110111010
  | .popAllButOnePlusNPack6Bits => code 8 0b11011110
  | .popNPlusOne => code 16 0b1101100011000110
  | .popNPlusN => code 16 0b1101100011000001
  | .popNAndNonTopographical => code 16 0b1101100011000000
  | .nonTopoComplex => code 11 0b11011000111
  | .nonTopoPenultimatePlusOne => code 9 0b110110111
  | .nonTopoComplexPack4Bits => code 10 0b1101100010
  | .fieldPathEncodeFinish => code 2 0b10

/-- One guard and its field (R68). -/
def encodeGuard (q : Request) : Option Int → Bits
  | none => [false]
  | some v => true :: encodeRequest q v

/-- The bits of one slot's operand. -/
def encodeOperand : Slot → Operand → Bits
  | .field q, .field v => encodeRequest q v
  | .popCount q, .field v => encodeRequest q v
  | .pushCount q, .field v => encodeRequest q v
  | .guards q, .guards gs => gs.flatMap (encodeGuard q)
  | .values q, .values vs => vs.flatMap (encodeRequest q)
  | _, _ => []

/-- The bits of a slot list's operands, in read order. -/
def encodeOperands : List Slot → List Operand → Bits
  | slot :: slots, o :: os => encodeOperand slot o ++ encodeOperands slots os
  | [], _ => []
  | _ :: _, [] => []

/-- A line's bits: the code, then each field in read order, in the reference layouts (R65, R75). -/
def encodeLine (l : Line) : Bits := encode l.op ++ encodeOperands (slotsOf l.op) l.operands

/-! ### The table's window -/

/-- The longest operation there is, in bits: PopNAndNonTopographical at CUR = 5 with its longest fields,
16 + 35 + 6 × (1 + 40). -/
def longestOperation : Nat := 297

/-- The bits of a table word: bit 16 of the 17-bit window is the first bit read and bit 0 the 17th (R72), and after the
window every bit is 0, up to the longest operation. -/
def windowBits (nbits w : Nat) : Bits :=
  code 17 (w % 2 ^ max 17 nbits) ++ List.replicate (longestOperation - 17) false

/-- The operation the decoder reads from a table word (R72). -/
def decodeTableWord (nbits w : Nat) : Option Instr :=
  match decode (windowBits nbits w) with
  | .error _ => none
  | .ok (i, _) => some i

end Sys2Proof
end

