-- ==== Sys2Proof/Machine/SegRange.lean ====
section
/-! DEFINITION. SEG_MIN and SEG_MAX, the range of the segment values, as a build parameter (00_scope.md R9;
93_implementation_defined.md U5). -/

namespace Sys2Proof.Machine

/-- The parameters SEG_MIN and SEG_MAX, either of which may be infinite (92_eei_decisions.md D8). Every such range holds -1
and 0, which START and a pop put into segments (log entry 28). -/
structure SegRange where
  /-- SEG_MIN is -1 minus this; none where there is no lower bound. -/
  below : Option Nat
  /-- SEG_MAX; none where there is no upper bound. -/
  above : Option Nat
deriving DecidableEq, Repr

/-- SEG_MIN, where it is finite. -/
def SegRange.min (range : SegRange) : Option Int := range.below.map fun (n : Nat) => -1 - (n : Int)

/-- SEG_MAX, where it is finite. -/
def SegRange.max (range : SegRange) : Option Int := range.above.map fun (n : Nat) => (n : Int)

/-- SEG_MIN = -2^31 and SEG_MAX = 2^31 - 1 (R9). -/
def SegRange.reference : SegRange := ⟨some (-1 - Config.segMin).toNat, some Config.segMax.toNat⟩

/-- SEG_MIN and SEG_MAX infinite, which removes the fault SegmentRange (60_exceptions.md R154). -/
def SegRange.unbounded : SegRange := ⟨none, none⟩

/-- Whether a value is in SEG_MIN to SEG_MAX. -/
def SegRange.holds (range : SegRange) (v : Int) : Bool :=
  range.min.all (fun m => decide (m ≤ v)) && range.max.all (fun m => decide (v ≤ m))

/-- The value of the range nearest to `v`: `v` itself where the range holds it. -/
def SegRange.nearest (range : SegRange) (v : Int) : Int :=
  let atLeast := match range.min with
    | none => v
    | some m => if v < m then m else v
  match range.max with
  | none => atLeast
  | some m => if m < atLeast then m else atLeast

end Sys2Proof.Machine
end

