-- ==== Sys2Proof/Machine/State.lean ====
section
/-! DEFINITION. The machine's state as plain data (spec/10_state.md R17), the external agents' state that it runs
against (reader, host pins, trace sink), the outcome reasons, and the state after reset (70_reset_and_hazards.md R170). -/

namespace Sys2Proof.Machine

/-! ### Path-state stack register -/

/-- SEG[0] to SEG[5], outermost level first (R18). -/
structure Segs where
  seg0 : Int
  seg1 : Int
  seg2 : Int
  seg3 : Int
  seg4 : Int
  seg5 : Int
deriving DecidableEq, Repr

/-- The path state (SEG, CUR, FIN) (R18, R20, R21; 40_decode_loop.md R93), and the range of the SEG registers. -/
structure PathState where
  seg : Segs
  cur : Nat
  fin : Bool
  /-- SEG_MIN to SEG_MAX (R18; 00_scope.md R9): a build parameter, which nothing changes (log entry 28). -/
  range : SegRange
deriving DecidableEq, Repr

/-! ### Control -/

/-- The sub-phases of RUN (R28). -/
inductive Phase where
  | traverse
  | execute
  | emit
deriving DecidableEq, Repr

/-- ESTATE (R28). -/
inductive EState where
  | idle
  | run (phase : Phase)
  | done
  | fault
deriving DecidableEq, Repr

/-- FKIND: the fault kinds (60_exceptions.md R148). -/
inductive FKind where
  | none
  | malformedStream
  | pathOverflow
  | pathUnderflow
  | unknownSymbol
  | segmentRange
deriving DecidableEq, Repr

/-- What a micro-step raises: the kind with its info column (R148). -/
inductive FaultInfo where
  | malformedStream
  | pathOverflow (cur : Nat)
  | pathUnderflow (cur n : Nat)
  | unknownSymbol (opidx : Nat)
  | segmentRange (i : Nat) (v : Int)
deriving DecidableEq, Repr

/-- A snapshot: the copy SEG[0..CUR], with CUR+1 values (10_state.md R24). -/
abbrev Snapshot := List Int

/-- The events of the trace port (60_exceptions.md R164). TRACE_FKIND is the kind of a fault event's info. -/
inductive TraceEvent where
  | before (opidx pos cur : Nat) (seg : Segs)
  | after (opidx pos cur : Nat) (seg : Segs) (fin : Bool)
  | fault (info : FaultInfo) (opidx pos : Nat)
deriving DecidableEq, Repr

/-! ### Input pins -/

/-- One sample of the block's inputs and of the host's move on the reader, taken by one step (60_exceptions.md R163,
70_reset_and_hazards.md R185). -/
structure Pins where
  /-- RST. -/
  rst : Bool
  /-- START. -/
  start : Bool
  /-- SNAP_READY. -/
  snapReady : Bool
  /-- RD_RESP_VALID: the reader answers what is requested in this step. -/
  rdValid : Bool
  /-- The host positions the reader, or hands it another stream (R174). -/
  load : Option Chunk
deriving DecidableEq, Repr

/-- The sample of a host that does nothing while the reader answers and the consumer accepts (log entry 9). -/
def Pins.quiet : Pins := ⟨false, false, true, true, none⟩

/-! ### State -/

/-- The state: the block's own state (R17), the reader, the host's samples to come and the trace, and the model's own
fields `traceEn` (TRACE_EN, 00_scope.md R12; log entry 5) and `draws` (log entry 7). -/
structure State where
  /-- SEG, CUR and FIN, and the parameters SEG_MIN and SEG_MAX. -/
  ps : PathState
  /-- NODE (R25). -/
  node : Nat
  /-- OPIDX (R26). -/
  opidx : Nat
  /-- MSTEP (R27): the micro-steps of the running operation still to run; none while no operation runs. -/
  mstep : Option (List Micro)
  /-- ESTATE (R28). -/
  estate : EState
  /-- FKIND (R29). -/
  fkind : FKind
  /-- OUT (R17). -/
  out : List Snapshot
  /-- TREE and OPROM (R33). -/
  rom : Rom
  /-- STREAM and POS, which the external reader holds (R30, 20_memory.md R48), and the reader's BR (00_scope.md R10). -/
  rd : Reader
  /-- The pin samples to come, the next step's first. -/
  host : List Pins
  /-- The sample of every step after those: a reader that never answers or a consumer that never accepts
  (40_decode_loop.md R89) is one whose pin stays low here (log entry 9). -/
  hostRest : Pins
  /-- TRACE_EN. -/
  traceEn : Bool
  /-- The trace events emitted so far. -/
  trace : List TraceEvent
  /-- How many times unspecified values were taken, by a fault entry (60_exceptions.md R157) or by RST (R172): the argument
  of the free values. -/
  draws : Nat
deriving DecidableEq, Repr

/-- Why a step stops without a next state. The block's own faults are no such stop: they are taken, as next states with
ESTATE = FAULT (60_exceptions.md R149). -/
inductive Fault where
  /-- Raised by the walk where NODE names no entry of the TREE ROM (outside the ROM's index range, 20_memory.md R48).
  Safe: the machine stops where the spec gives no ROM contents; no state that a reset or a START leads to with
  consistent ROMs does so (log entry 15). -/
  | noTreeNode (id : Nat)
deriving DecidableEq, Repr

/-- Why the model gives an instruction no meaning. -/
inductive Refusal where
  /-- Raised by an arm of `exec` whose instruction has no meaning yet. Safe. No arm does. -/
  | notModelled (mnemonic : String)
deriving DecidableEq, Repr

/-- The path state's initial value (R23). -/
def PathState.initial (range : SegRange) : PathState := ⟨⟨-1, 0, 0, 0, 0, 0⟩, 0, false, range⟩

/-- The machine right after reset (R170), with the reference ROMs, the reference BR and the stated SEG_MIN and SEG_MAX (log entries 1 to
3 and 28). OPIDX is unspecified there: its 0 is the model's choice (log entry 6). The reader's and the model's own fields: log entries 5, 7, 9, 11 and 22. -/
def State.reset : State where
  ps := .initial .reference
  node := 78
  opidx := 0
  mstep := none
  estate := .idle
  fkind := .none
  out := []
  rom := referenceRom
  rd := ⟨[], 0, .reference⟩
  host := []
  hostRest := .quiet
  traceEn := true
  trace := []
  draws := 0

end Sys2Proof.Machine
end

