-- ==== Sys2Proof/Machine/Flags.lean ====
section
/-! DEFINITION. The flags: FIN, the block's only condition flag (10_state.md R21), the fault codes
(60_exceptions.md R148) and the STATUS word made of ESTATE and FKIND (10_state.md R31). -/

namespace Sys2Proof.Machine

/-- The code of a fault kind (R148). -/
def FKind.code : FKind → BitVec 3
  | .none => 0
  | .malformedStream => 1
  | .pathOverflow => 2
  | .pathUnderflow => 3
  | .unknownSymbol => 4
  | .segmentRange => 5

/-- The kind of a raised fault (R148). -/
def FaultInfo.kind : FaultInfo → FKind
  | .malformedStream => .malformedStream
  | .pathOverflow _ => .pathOverflow
  | .pathUnderflow _ _ => .pathUnderflow
  | .unknownSymbol _ => .unknownSymbol
  | .segmentRange _ _ => .segmentRange

/-- `FIN <- 1` (R21, R147). -/
def PathState.setFin (ps : PathState) : PathState := { ps with fin := true }

/-- BUSY (R31). -/
def State.busy (s : State) : Bool :=
  match s.estate with
  | .run _ => true
  | .idle => false
  | .done => false
  | .fault => false

/-- DONE (R31). -/
def State.doneBit (s : State) : Bool := s.estate == .done

/-- FAULTED (R31). -/
def State.faulted (s : State) : Bool := s.estate == .fault

/-- STATUS: bit 0 BUSY, bit 1 DONE, bit 2 FAULTED, bits 5:3 FKIND, bits 31:6 zero (R31). -/
def State.status (s : State) : BitVec 32 :=
  (0 : BitVec 26) ++ s.fkind.code ++ BitVec.ofBool s.faulted ++ BitVec.ofBool s.doneBit ++ BitVec.ofBool s.busy

end Sys2Proof.Machine
end

