-- ==== Sys2Proof/Machine/Ops.lean ====
section
/-! DEFINITION. The named operations over the path state, the reader and the control state: SEG reads and writes, Push,
Pop, the guard loop, the micro-steps, taking a fault, leaving it by START or RST, and Emit. -/

namespace Sys2Proof.Machine

/-! ### SEG -/

/-- `SEG[i]` (00_scope.md R15); there is no segment past 5, and reading one gives 0. -/
def Segs.get (g : Segs) (i : Nat) : Int :=
  match i with
  | 0 => g.seg0
  | 1 => g.seg1
  | 2 => g.seg2
  | 3 => g.seg3
  | 4 => g.seg4
  | 5 => g.seg5
  | _ => 0

/-- SEG with entry i replaced; there is no segment past 5 to replace. -/
def Segs.set (g : Segs) (i : Nat) (v : Int) : Segs :=
  match i with
  | 0 => { g with seg0 := v }
  | 1 => { g with seg1 := v }
  | 2 => { g with seg2 := v }
  | 3 => { g with seg3 := v }
  | 4 => { g with seg4 := v }
  | 5 => { g with seg5 := v }
  | _ => g

/-- The copy SEG[0..CUR] (10_state.md R24). -/
def PathState.snapshot (ps : PathState) : Snapshot := (List.range (ps.cur + 1)).map ps.seg.get

/-- Whether a segment may hold a value: SEG_MIN to SEG_MAX (R9). -/
abbrev PathState.InRange (ps : PathState) (v : Int) : Prop := ps.range.holds v = true

/-- What an operation works on (40_decode_loop.md R93): the path state and the reader. -/
structure OpCtx where
  ps : PathState
  rd : Reader
deriving DecidableEq, Repr

/-- What a micro-step or an operation gives: the path state and the reader after it, or the fault it raises (R93). -/
abbrev OpResult := Except FaultInfo OpCtx

/-- `SEG[i] <- v`, with the range check (R9, R15; 60_exceptions.md R154). -/
def writeSeg (i : Nat) (v : Int) (c : OpCtx) : OpResult :=
  if c.ps.InRange v then .ok { c with ps := { c.ps with seg := c.ps.seg.set i v } }
  else .error (.segmentRange i v)

/-- `SEG[i] <- SEG[i] + e`: e's request is answered, or raises MalformedStream (R37), before the write. -/
def addSeg (i : Nat) (e : Expr) (c : OpCtx) : OpResult :=
  match evalExpr e c.rd with
  | none => .error .malformedStream
  | some (v, rd) => writeSeg i (c.ps.seg.get i + v) { c with rd := rd }

/-! ### Push -/

/-- The check and the cursor's move of a push (42_push_one.md R107). -/
def enter (c : OpCtx) : OpResult :=
  if c.ps.cur + 1 > Config.maxDepth - 1 then .error (.pathOverflow c.ps.cur)
  else .ok { c with ps := { c.ps with cur := c.ps.cur + 1 } }

/-- `SEG[CUR] <- e` of a push (R107). -/
def setTop (e : Expr) (c : OpCtx) : OpResult :=
  match evalExpr e c.rd with
  | none => .error .malformedStream
  | some (v, rd) => writeSeg c.ps.cur v { c with rd := rd }

/-- `Push(v)` and `PushRead(e)` (R107). -/
def push (e : Expr) (c : OpCtx) : OpResult :=
  match enter c with
  | .error f => .error f
  | .ok c' => setTop e c'

/-- `repeat n times: PushRead(e)` (43_multi_push.md R117, R130). -/
def pushTimes : Nat → Expr → OpCtx → OpResult
  | 0, _, c => .ok c
  | n + 1, e, c =>
    match push e c with
    | .error f => .error f
    | .ok c' => pushTimes n e c'

/-- The count, the increment if any, and the pushes of PushN and PushNAndNonTopological (R130, R131). -/
def countPush (increment : Option Expr) (e : Expr) (c : OpCtx) : OpResult :=
  match c.rd.request .ubv with
  | none => .error .malformedStream
  | some (n, rd) =>
    match increment with
    | none => pushTimes n.toNat e { c with rd := rd }
    | some d =>
      match addSeg c.ps.cur d { c with rd := rd } with
      | .error f => .error f
      | .ok c' => pushTimes n.toNat e c'

/-! ### Pop -/

/-- `SEG[CUR] <- 0; CUR <- CUR - 1`, n times (44_pop.md R132). Every range holds 0, so this write passes its range check. -/
def popLevels : Nat → PathState → PathState
  | 0, ps => ps
  | n + 1, ps => popLevels n { ps with seg := ps.seg.set ps.cur 0, cur := ps.cur - 1 }

/-- `Pop(n)` (R132): the underflow check comes before anything changes. -/
def pop (n : Nat) (c : OpCtx) : OpResult :=
  if n > c.ps.cur then .error (.pathUnderflow c.ps.cur n)
  else .ok { c with ps := popLevels n c.ps }

/-- `Pop(n)` with n read from the stream first (R133). -/
def popRead (q : Request) (c : OpCtx) : OpResult :=
  match c.rd.request q with
  | none => .error .malformedStream
  | some (n, rd) => pop n.toNat { c with rd := rd }

/-! ### Penultimate adjust and guard loop -/

/-- NonTopoPenultimatePlusOne's pseudocode (45_nontopo_finish.md R145). -/
def addPenultimate (c : OpCtx) : OpResult :=
  if c.ps.cur = 0 then .error (.pathUnderflow c.ps.cur 1)
  else writeSeg (c.ps.cur - 1) (c.ps.seg.get (c.ps.cur - 1) + 1) c

/-- The guard loop over k levels from level i up, each delta read right after its guard (R143). -/
def guardLevels : Nat → Nat → Expr → OpCtx → OpResult
  | 0, _, _, c => .ok c
  | k + 1, i, e, c =>
    match c.rd.request .bool with
    | none => .error .malformedStream
    | some (g, rd) =>
      if g = 1 then
        match addSeg i e { c with rd := rd } with
        | .error f => .error f
        | .ok c' => guardLevels k (i + 1) e c'
      else guardLevels k (i + 1) e { c with rd := rd }

/-! ### Running micro-steps -/

/-- One micro-step, loops in full. -/
def runMicro (m : Micro) (c : OpCtx) : OpResult :=
  match m with
  | .addTop e => addSeg c.ps.cur e c
  | .addRoot e => addSeg 0 e c
  | .addPenultimate => addPenultimate c
  | .enter => enter c
  | .setTop e => setTop e c
  | .pop n => pop n c
  | .popAll => pop c.ps.cur c
  | .popRead q => popRead q c
  | .countPush increment e => countPush increment e c
  | .pushes n e => pushTimes n e c
  | .guardLoop e => guardLevels (c.ps.cur + 1) 0 e c
  | .guardsLeft k i e => guardLevels k i e c
  | .addLevel i e => addSeg i e c
  | .setFin => .ok { c with ps := c.ps.setFin }

/-- Micro-steps in order; the first that raises a fault ends them (40_decode_loop.md R82). -/
def runMicros : List Micro → OpCtx → OpResult
  | [], c => .ok c
  | m :: ms, c =>
    match runMicro m c with
    | .error f => .error f
    | .ok c' => runMicros ms c'

/-! ### Trace -/

/-- Emit a trace event, if the port is there (60_exceptions.md R164). -/
def traced (s : State) (e : TraceEvent) : State :=
  { s with trace := if s.traceEn then s.trace ++ [e] else s.trace }

/-- BEFORE(OPIDX, POS, CUR, SEG) (R164). -/
def traceBefore (s : State) : State := traced s (.before s.opidx s.rd.pos s.ps.cur s.ps.seg)

/-- AFTER(OPIDX, POS, CUR, SEG, FIN) (R164). -/
def traceAfter (s : State) : State := traced s (.after s.opidx s.rd.pos s.ps.cur s.ps.seg s.ps.fin)

/-! ### Taking a fault -/

/-- The unspecified path state after the fault entry numbered `draw` (R157). -/
def faultPath (range : SegRange) (draw : Nat) : PathState where
  seg := ⟨range.nearest (Config.faultSeg draw 0), range.nearest (Config.faultSeg draw 1),
    range.nearest (Config.faultSeg draw 2), range.nearest (Config.faultSeg draw 3),
    range.nearest (Config.faultSeg draw 4), range.nearest (Config.faultSeg draw 5)⟩
  cur := (Config.faultCur draw).val
  fin := Config.faultFin draw
  range := range

/-- Fault entry, `raise K(info)` (60_exceptions.md R149): FKIND and ESTATE are set and a FAULT event is emitted; what
R157 leaves unspecified becomes free; OUT, the ROMs, STREAM, BR, SEG_MIN and SEG_MAX stay (R158, R33, R52). -/
def raiseFault (f : FaultInfo) (s : State) : State :=
  let s' := traced s (.fault f s.opidx (Config.faultPos s.draws))
  { s' with
    fkind := f.kind
    estate := .fault
    ps := faultPath s.ps.range s.draws
    node := Config.faultNode s.draws
    opidx := Config.faultOpidx s.draws
    mstep := Config.faultMstep s.draws
    rd := { s.rd with pos := Config.faultPos s.draws }
    draws := s.draws + 1 }

/-! ### Leaving a fault: START and RST are the only ways out (R160) -/

/-- What START does where it is accepted (40_decode_loop.md R77). -/
def startDecode (s : State) : State :=
  { s with
    ps := .initial s.ps.range
    out := []
    fkind := .none
    node := s.rom.root
    mstep := none
    estate := .run .traverse }

/-- What RST does (70_reset_and_hazards.md R170): it moves neither the reader nor the ROMs. OPIDX is unspecified after it
(R172): a free value (log entry 6). -/
def applyReset (s : State) : State :=
  { s with
    ps := .initial s.ps.range
    node := s.rom.root
    opidx := Config.resetOpidx s.draws
    mstep := none
    estate := .idle
    fkind := .none
    out := []
    draws := s.draws + 1 }

/-! ### The end of an operation -/

/-- After the last micro-step: DONE if FIN is set (40_decode_loop.md R83), else the snapshot is offered (R84). -/
def finishOperation (s : State) : State :=
  let s' := traceAfter s
  { s' with mstep := none, estate := if s.ps.fin then .done else .run .emit }

/-- The rest of a running operation. -/
def resume (ms : List Micro) (s : State) : Host.Outcome State Fault Refusal :=
  match runMicros ms ⟨s.ps, s.rd⟩ with
  | .ok c => .next (finishOperation { s with ps := c.ps, rd := c.rd })
  | .error f => .next (raiseFault f s)

/-- One operation, from its first micro-step to its end or its fault (R82, R93). -/
def runOperation (ms : List Micro) (s : State) : Host.Outcome State Fault Refusal :=
  resume ms (traceBefore s)

/-- The output port accepts the offered snapshot: `Emit()` (R84). -/
def acceptSnapshot (s : State) : State :=
  { s with out := s.out ++ [s.ps.snapshot], estate := .run .traverse }

end Sys2Proof.Machine
end

