-- ==== Sys2Proof/Machine/Control.lean ====
section
/-! DEFINITION. What the decode loop does around the operations (40_decode_loop.md): sampling the pins, the host's moves,
fetching an operation by the walk, selecting its kind, and placing one operation for a step to run. -/

namespace Sys2Proof.Machine

/-! ### Pins -/

/-- The sample this step takes: the queue's first, or, once the queue is empty, the one that stays (log entry 9). -/
def State.pins (s : State) : Pins := s.host.headD s.hostRest

/-- The state once that sample is taken. -/
def State.popPins (s : State) : State := { s with host := s.host.tail }

/-- The host positions the reader (70_reset_and_hazards.md R174), if it does. -/
def loadReader (p : Pins) (s : State) : State :=
  { s with rd := s.rd.placed p.load }

/-- What a step does in IDLE, DONE and FAULT: the host may position the reader and START is accepted (40_decode_loop.md
R77); without START the block makes no step (R96). -/
def hostMoves (p : Pins) (s : State) : State :=
  if p.start then startDecode (loadReader p s) else loadReader p s

/-- What a step does under RST, whatever the ESTATE (70_reset_and_hazards.md R170): RST wins over START, and the block
is no longer busy, so the host may position the reader (log entry 10). -/
def resetMoves (p : Pins) (s : State) : State := loadReader p (applyReset s)

/-- What a step does in phase EMIT: it holds until SNAP_READY (40_decode_loop.md R84, R89). -/
def emitMoves (p : Pins) (s : State) : State := if p.snapReady then acceptSnapshot s else s

/-! ### Fetch and select -/

/-- What fetching gives. -/
inductive Fetched where
  /-- An operation to run, and the state it runs in. -/
  | run (i : Instr) (s : State)
  /-- A fault to take. -/
  | raise (f : FaultInfo) (s : State)
  /-- The walk left the TREE ROM. -/
  | stop (f : Fault)

/-- The multiplexer's choice by OPIDX (R80); UnknownSymbol where there is no kind to choose (R81). -/
def select (s : State) : Fetched :=
  match s.rom.kindOf s.opidx with
  | none => .raise (.unknownSymbol s.opidx) s
  | some i => .run i s

/-- The state at a leaf: OPIDX set, NODE back at the root, the code's bits consumed, phase EXECUTE (R79), no micro-step
run yet. -/
def atLeaf (op n : Nat) (s : State) : State :=
  { s with opidx := op, node := s.rom.root, rd := s.rd.advance n, estate := .run .execute, mstep := none }

/-- The traversal from NODE to a leaf (R78, R79), then the selection. -/
def fetch (s : State) : Fetched :=
  match walk s.rom.tree s.node 0 s.rd.rest with
  | .exhausted => .raise .malformedStream s
  | .noNode id => .stop (.noTreeNode id)
  | .leaf op n => select (atLeaf op n s)

/-! ### Placing one operation -/

/-- A state whose next step fetches the operation at the start of `bits`: what the host's positioning of the reader and an
accepted START leave, but for the path state and OUT, which stay, and with a quiet host (log entry 12). -/
def placeBits (bits : Bits) (s : State) : State :=
  { s with
    rd := s.rd.onChunk ⟨bits, 0⟩
    node := s.rom.root
    mstep := none
    estate := .run .traverse
    fkind := .none
    ps := { s.ps with fin := false }
    host := []
    hostRest := .quiet }

end Sys2Proof.Machine
end

