-- ==== Sys2Proof/Machine/Increment.lean ====
section
/-! DEFINITION. The increment-top operations (41_increment.md R101 to R106): for each operation its pseudocode as
micro-steps, and its meaning. -/

namespace Sys2Proof.Machine

/-- PlusOne's pseudocode (R102). -/
def plusOneSteps : List Micro :=
  [.addTop (constant 1)]

/-- PlusOne (R102). -/
def execPlusOne (s : State) : Host.Outcome State Fault Refusal := runOperation plusOneSteps s

/-- PlusTwo's pseudocode (R103). -/
def plusTwoSteps : List Micro :=
  [.addTop (constant 2)]

/-- PlusTwo (R103). -/
def execPlusTwo (s : State) : Host.Outcome State Fault Refusal := runOperation plusTwoSteps s

/-- PlusThree's pseudocode (R104). -/
def plusThreeSteps : List Micro :=
  [.addTop (constant 3)]

/-- PlusThree (R104). -/
def execPlusThree (s : State) : Host.Outcome State Fault Refusal := runOperation plusThreeSteps s

/-- PlusFour's pseudocode (R105). -/
def plusFourSteps : List Micro :=
  [.addTop (constant 4)]

/-- PlusFour (R105). -/
def execPlusFour (s : State) : Host.Outcome State Fault Refusal := runOperation plusFourSteps s

/-- PlusN's pseudocode (R106). -/
def plusNSteps : List Micro :=
  [.addTop (fieldPlus .ubvfp 5)]

/-- PlusN (R106). -/
def execPlusN (s : State) : Host.Outcome State Fault Refusal := runOperation plusNSteps s

end Sys2Proof.Machine
end

