-- ==== Sys2Proof/Machine/MultiPush.lean ====
section
/-! DEFINITION. The multi-push operations (43_multi_push.md R117 to R131): for each operation its pseudocode as
micro-steps, and its meaning. -/

namespace Sys2Proof.Machine

/-- PushTwoLeftDeltaZero's pseudocode (R118). -/
def pushTwoLeftDeltaZeroSteps : List Micro :=
  [.enter, .setTop (fieldPlus .ubvfp 0), .enter, .setTop (fieldPlus .ubvfp 0)]

/-- PushTwoLeftDeltaZero (R118). -/
def execPushTwoLeftDeltaZero (s : State) : Host.Outcome State Fault Refusal := runOperation pushTwoLeftDeltaZeroSteps s

/-- PushTwoPack5LeftDeltaZero's pseudocode (R119). -/
def pushTwoPack5LeftDeltaZeroSteps : List Micro :=
  [.enter, .setTop (fieldPlus (.bits 5) 0), .enter, .setTop (fieldPlus (.bits 5) 0)]

/-- PushTwoPack5LeftDeltaZero (R119). -/
def execPushTwoPack5LeftDeltaZero (s : State) : Host.Outcome State Fault Refusal := runOperation pushTwoPack5LeftDeltaZeroSteps s

/-- PushThreeLeftDeltaZero's pseudocode (R120). -/
def pushThreeLeftDeltaZeroSteps : List Micro :=
  [.enter, .setTop (fieldPlus .ubvfp 0),
   .enter, .setTop (fieldPlus .ubvfp 0),
   .enter, .setTop (fieldPlus .ubvfp 0)]

/-- PushThreeLeftDeltaZero (R120). -/
def execPushThreeLeftDeltaZero (s : State) : Host.Outcome State Fault Refusal := runOperation pushThreeLeftDeltaZeroSteps s

/-- PushThreePack5LeftDeltaZero's pseudocode (R121). -/
def pushThreePack5LeftDeltaZeroSteps : List Micro :=
  [.enter, .setTop (fieldPlus (.bits 5) 0),
   .enter, .setTop (fieldPlus (.bits 5) 0),
   .enter, .setTop (fieldPlus (.bits 5) 0)]

/-- PushThreePack5LeftDeltaZero (R121). -/
def execPushThreePack5LeftDeltaZero (s : State) : Host.Outcome State Fault Refusal := runOperation pushThreePack5LeftDeltaZeroSteps s

/-- PushTwoLeftDeltaOne's pseudocode (R122). -/
def pushTwoLeftDeltaOneSteps : List Micro :=
  [.addTop (constant 1), .enter, .setTop (fieldPlus .ubvfp 0), .enter, .setTop (fieldPlus .ubvfp 0)]

/-- PushTwoLeftDeltaOne (R122). -/
def execPushTwoLeftDeltaOne (s : State) : Host.Outcome State Fault Refusal := runOperation pushTwoLeftDeltaOneSteps s

/-- PushTwoPack5LeftDeltaOne's pseudocode (R123). -/
def pushTwoPack5LeftDeltaOneSteps : List Micro :=
  [.addTop (constant 1),
   .enter, .setTop (fieldPlus (.bits 5) 0),
   .enter, .setTop (fieldPlus (.bits 5) 0)]

/-- PushTwoPack5LeftDeltaOne (R123). -/
def execPushTwoPack5LeftDeltaOne (s : State) : Host.Outcome State Fault Refusal := runOperation pushTwoPack5LeftDeltaOneSteps s

/-- PushThreeLeftDeltaOne's pseudocode (R124). -/
def pushThreeLeftDeltaOneSteps : List Micro :=
  [.addTop (constant 1),
   .enter, .setTop (fieldPlus .ubvfp 0),
   .enter, .setTop (fieldPlus .ubvfp 0),
   .enter, .setTop (fieldPlus .ubvfp 0)]

/-- PushThreeLeftDeltaOne (R124). -/
def execPushThreeLeftDeltaOne (s : State) : Host.Outcome State Fault Refusal := runOperation pushThreeLeftDeltaOneSteps s

/-- PushThreePack5LeftDeltaOne's pseudocode (R125). -/
def pushThreePack5LeftDeltaOneSteps : List Micro :=
  [.addTop (constant 1),
   .enter, .setTop (fieldPlus (.bits 5) 0),
   .enter, .setTop (fieldPlus (.bits 5) 0),
   .enter, .setTop (fieldPlus (.bits 5) 0)]

/-- PushThreePack5LeftDeltaOne (R125). -/
def execPushThreePack5LeftDeltaOne (s : State) : Host.Outcome State Fault Refusal := runOperation pushThreePack5LeftDeltaOneSteps s

/-- PushTwoLeftDeltaN's pseudocode (R126). -/
def pushTwoLeftDeltaNSteps : List Micro :=
  [.addTop (fieldPlus .ubv 2),
   .enter, .setTop (fieldPlus .ubvfp 0),
   .enter, .setTop (fieldPlus .ubvfp 0)]

/-- PushTwoLeftDeltaN (R126). -/
def execPushTwoLeftDeltaN (s : State) : Host.Outcome State Fault Refusal := runOperation pushTwoLeftDeltaNSteps s

/-- PushTwoPack5LeftDeltaN's pseudocode (R127). -/
def pushTwoPack5LeftDeltaNSteps : List Micro :=
  [.addTop (fieldPlus .ubv 2),
   .enter, .setTop (fieldPlus (.bits 5) 0),
   .enter, .setTop (fieldPlus (.bits 5) 0)]

/-- PushTwoPack5LeftDeltaN (R127). -/
def execPushTwoPack5LeftDeltaN (s : State) : Host.Outcome State Fault Refusal := runOperation pushTwoPack5LeftDeltaNSteps s

/-- PushThreeLeftDeltaN's pseudocode (R128). -/
def pushThreeLeftDeltaNSteps : List Micro :=
  [.addTop (fieldPlus .ubv 2),
   .enter, .setTop (fieldPlus .ubvfp 0),
   .enter, .setTop (fieldPlus .ubvfp 0),
   .enter, .setTop (fieldPlus .ubvfp 0)]

/-- PushThreeLeftDeltaN (R128). -/
def execPushThreeLeftDeltaN (s : State) : Host.Outcome State Fault Refusal := runOperation pushThreeLeftDeltaNSteps s

/-- PushThreePack5LeftDeltaN's pseudocode (R129). -/
def pushThreePack5LeftDeltaNSteps : List Micro :=
  [.addTop (fieldPlus .ubv 2),
   .enter, .setTop (fieldPlus (.bits 5) 0),
   .enter, .setTop (fieldPlus (.bits 5) 0),
   .enter, .setTop (fieldPlus (.bits 5) 0)]

/-- PushThreePack5LeftDeltaN (R129). -/
def execPushThreePack5LeftDeltaN (s : State) : Host.Outcome State Fault Refusal := runOperation pushThreePack5LeftDeltaNSteps s

/-- PushN's pseudocode (R130). -/
def pushNSteps : List Micro :=
  [.countPush (some (fieldPlus .ubv 0)) (fieldPlus .ubvfp 0)]

/-- PushN (R130). -/
def execPushN (s : State) : Host.Outcome State Fault Refusal := runOperation pushNSteps s

/-- PushNAndNonTopological's pseudocode (R131). -/
def pushNAndNonTopologicalSteps : List Micro :=
  [.guardLoop (fieldPlus .varS32 1), .countPush none (fieldPlus .ubvfp 0)]

/-- PushNAndNonTopological (R131). -/
def execPushNAndNonTopological (s : State) : Host.Outcome State Fault Refusal := runOperation pushNAndNonTopologicalSteps s

end Sys2Proof.Machine
end

