-- ==== Sys2Proof/Machine/NonTopo.lean ====
section
/-! DEFINITION. The non-topological scan, penultimate adjust and terminal operations (45_nontopo_finish.md R143 to R147): for each operation its pseudocode as
micro-steps, and its meaning. -/

namespace Sys2Proof.Machine

/-- NonTopoComplex's pseudocode (R144). -/
def nonTopoComplexSteps : List Micro :=
  [.guardLoop (fieldPlus .varS32 0)]

/-- NonTopoComplex (R144). -/
def execNonTopoComplex (s : State) : Host.Outcome State Fault Refusal := runOperation nonTopoComplexSteps s

/-- NonTopoPenultimatePlusOne's pseudocode (R145). -/
def nonTopoPenultimatePlusOneSteps : List Micro :=
  [.addPenultimate]

/-- NonTopoPenultimatePlusOne (R145). -/
def execNonTopoPenultimatePlusOne (s : State) : Host.Outcome State Fault Refusal := runOperation nonTopoPenultimatePlusOneSteps s

/-- NonTopoComplexPack4Bits's pseudocode (R146). -/
def nonTopoComplexPack4BitsSteps : List Micro :=
  [.guardLoop (fieldPlus (.bits 4) (-7))]

/-- NonTopoComplexPack4Bits (R146). -/
def execNonTopoComplexPack4Bits (s : State) : Host.Outcome State Fault Refusal := runOperation nonTopoComplexPack4BitsSteps s

/-- FieldPathEncodeFinish's pseudocode (R147). -/
def fieldPathEncodeFinishSteps : List Micro :=
  [.setFin]

/-- FieldPathEncodeFinish (R147). -/
def execFieldPathEncodeFinish (s : State) : Host.Outcome State Fault Refusal := runOperation fieldPathEncodeFinishSteps s

end Sys2Proof.Machine
end

