-- ==== Sys2Proof/Machine/Pop.lean ====
section
/-! DEFINITION. The pop operations (44_pop.md R133 to R142): for each operation its pseudocode as
micro-steps, and its meaning. -/

namespace Sys2Proof.Machine

/-- PopOnePlusOne's pseudocode (R134). -/
def popOnePlusOneSteps : List Micro :=
  [.pop 1, .addTop (constant 1)]

/-- PopOnePlusOne (R134). -/
def execPopOnePlusOne (s : State) : Host.Outcome State Fault Refusal := runOperation popOnePlusOneSteps s

/-- PopOnePlusN's pseudocode (R135). -/
def popOnePlusNSteps : List Micro :=
  [.pop 1, .addTop (fieldPlus .ubvfp 1)]

/-- PopOnePlusN (R135). -/
def execPopOnePlusN (s : State) : Host.Outcome State Fault Refusal := runOperation popOnePlusNSteps s

/-- PopAllButOnePlusOne's pseudocode (R136). -/
def popAllButOnePlusOneSteps : List Micro :=
  [.popAll, .addRoot (constant 1)]

/-- PopAllButOnePlusOne (R136). -/
def execPopAllButOnePlusOne (s : State) : Host.Outcome State Fault Refusal := runOperation popAllButOnePlusOneSteps s

/-- PopAllButOnePlusN's pseudocode (R137). -/
def popAllButOnePlusNSteps : List Micro :=
  [.popAll, .addRoot (fieldPlus .ubvfp 1)]

/-- PopAllButOnePlusN (R137). -/
def execPopAllButOnePlusN (s : State) : Host.Outcome State Fault Refusal := runOperation popAllButOnePlusNSteps s

/-- PopAllButOnePlusNPack3Bits's pseudocode (R138). -/
def popAllButOnePlusNPack3BitsSteps : List Micro :=
  [.popAll, .addRoot (fieldPlus (.bits 3) 1)]

/-- PopAllButOnePlusNPack3Bits (R138). -/
def execPopAllButOnePlusNPack3Bits (s : State) : Host.Outcome State Fault Refusal := runOperation popAllButOnePlusNPack3BitsSteps s

/-- PopAllButOnePlusNPack6Bits's pseudocode (R139). -/
def popAllButOnePlusNPack6BitsSteps : List Micro :=
  [.popAll, .addRoot (fieldPlus (.bits 6) 1)]

/-- PopAllButOnePlusNPack6Bits (R139). -/
def execPopAllButOnePlusNPack6Bits (s : State) : Host.Outcome State Fault Refusal := runOperation popAllButOnePlusNPack6BitsSteps s

/-- PopNPlusOne's pseudocode (R140). -/
def popNPlusOneSteps : List Micro :=
  [.popRead .ubvfp, .addTop (constant 1)]

/-- PopNPlusOne (R140). -/
def execPopNPlusOne (s : State) : Host.Outcome State Fault Refusal := runOperation popNPlusOneSteps s

/-- PopNPlusN's pseudocode (R141). -/
def popNPlusNSteps : List Micro :=
  [.popRead .ubvfp, .addTop (fieldPlus .varS32 0)]

/-- PopNPlusN (R141). -/
def execPopNPlusN (s : State) : Host.Outcome State Fault Refusal := runOperation popNPlusNSteps s

/-- PopNAndNonTopographical's pseudocode (R142). -/
def popNAndNonTopographicalSteps : List Micro :=
  [.popRead .ubvfp, .guardLoop (fieldPlus .varS32 0)]

/-- PopNAndNonTopographical (R142). -/
def execPopNAndNonTopographical (s : State) : Host.Outcome State Fault Refusal := runOperation popNAndNonTopographicalSteps s

end Sys2Proof.Machine
end

