-- ==== Sys2Proof/Machine/PushOne.lean ====
section
/-! DEFINITION. The single-push operations (42_push_one.md R108 to R116): for each operation its pseudocode as
micro-steps, and its meaning. -/

namespace Sys2Proof.Machine

/-- PushOneLeftDeltaZeroRightZero's pseudocode (R109). -/
def pushOneLeftDeltaZeroRightZeroSteps : List Micro :=
  [.enter, .setTop (constant 0)]

/-- PushOneLeftDeltaZeroRightZero (R109). -/
def execPushOneLeftDeltaZeroRightZero (s : State) : Host.Outcome State Fault Refusal := runOperation pushOneLeftDeltaZeroRightZeroSteps s

/-- PushOneLeftDeltaZeroRightNonZero's pseudocode (R110). -/
def pushOneLeftDeltaZeroRightNonZeroSteps : List Micro :=
  [.enter, .setTop (fieldPlus .ubvfp 0)]

/-- PushOneLeftDeltaZeroRightNonZero (R110). -/
def execPushOneLeftDeltaZeroRightNonZero (s : State) : Host.Outcome State Fault Refusal := runOperation pushOneLeftDeltaZeroRightNonZeroSteps s

/-- PushOneLeftDeltaOneRightZero's pseudocode (R111). -/
def pushOneLeftDeltaOneRightZeroSteps : List Micro :=
  [.addTop (constant 1), .enter, .setTop (constant 0)]

/-- PushOneLeftDeltaOneRightZero (R111). -/
def execPushOneLeftDeltaOneRightZero (s : State) : Host.Outcome State Fault Refusal := runOperation pushOneLeftDeltaOneRightZeroSteps s

/-- PushOneLeftDeltaOneRightNonZero's pseudocode (R112). -/
def pushOneLeftDeltaOneRightNonZeroSteps : List Micro :=
  [.addTop (constant 1), .enter, .setTop (fieldPlus .ubvfp 0)]

/-- PushOneLeftDeltaOneRightNonZero (R112). -/
def execPushOneLeftDeltaOneRightNonZero (s : State) : Host.Outcome State Fault Refusal := runOperation pushOneLeftDeltaOneRightNonZeroSteps s

/-- PushOneLeftDeltaNRightZero's pseudocode (R113). -/
def pushOneLeftDeltaNRightZeroSteps : List Micro :=
  [.addTop (fieldPlus .ubvfp 0), .enter, .setTop (constant 0)]

/-- PushOneLeftDeltaNRightZero (R113). -/
def execPushOneLeftDeltaNRightZero (s : State) : Host.Outcome State Fault Refusal := runOperation pushOneLeftDeltaNRightZeroSteps s

/-- PushOneLeftDeltaNRightNonZero's pseudocode (R114). -/
def pushOneLeftDeltaNRightNonZeroSteps : List Micro :=
  [.addTop (fieldPlus .ubvfp 2), .enter, .setTop (fieldPlus .ubvfp 1)]

/-- PushOneLeftDeltaNRightNonZero (R114). -/
def execPushOneLeftDeltaNRightNonZero (s : State) : Host.Outcome State Fault Refusal := runOperation pushOneLeftDeltaNRightNonZeroSteps s

/-- PushOneLeftDeltaNRightNonZeroPack6Bits's pseudocode (R115). -/
def pushOneLeftDeltaNRightNonZeroPack6BitsSteps : List Micro :=
  [.addTop (fieldPlus (.bits 3) 2), .enter, .setTop (fieldPlus (.bits 3) 1)]

/-- PushOneLeftDeltaNRightNonZeroPack6Bits (R115). -/
def execPushOneLeftDeltaNRightNonZeroPack6Bits (s : State) : Host.Outcome State Fault Refusal := runOperation pushOneLeftDeltaNRightNonZeroPack6BitsSteps s

/-- PushOneLeftDeltaNRightNonZeroPack8Bits's pseudocode (R116). -/
def pushOneLeftDeltaNRightNonZeroPack8BitsSteps : List Micro :=
  [.addTop (fieldPlus (.bits 4) 2), .enter, .setTop (fieldPlus (.bits 4) 1)]

/-- PushOneLeftDeltaNRightNonZeroPack8Bits (R116). -/
def execPushOneLeftDeltaNRightNonZeroPack8Bits (s : State) : Host.Outcome State Fault Refusal := runOperation pushOneLeftDeltaNRightNonZeroPack8BitsSteps s

end Sys2Proof.Machine
end

