-- ==== Sys2Proof/Machine/Dispatch.lean ====
section
/-! DEFINITION. The dispatch multiplexer: one arm per operation kind, matched exhaustively (40_decode_loop.md R80). -/

namespace Sys2Proof.Machine

open Sys2Proof

def exec (i : Instr) (s : State) : Host.Outcome State Fault Refusal :=
  match i with
  | .plusOne => Sys2Proof.Machine.execPlusOne s
  | .plusTwo => Sys2Proof.Machine.execPlusTwo s
  | .plusThree => Sys2Proof.Machine.execPlusThree s
  | .plusFour => Sys2Proof.Machine.execPlusFour s
  | .plusN => Sys2Proof.Machine.execPlusN s
  | .pushOneLeftDeltaZeroRightZero => Sys2Proof.Machine.execPushOneLeftDeltaZeroRightZero s
  | .pushOneLeftDeltaZeroRightNonZero => Sys2Proof.Machine.execPushOneLeftDeltaZeroRightNonZero s
  | .pushOneLeftDeltaOneRightZero => Sys2Proof.Machine.execPushOneLeftDeltaOneRightZero s
  | .pushOneLeftDeltaOneRightNonZero => Sys2Proof.Machine.execPushOneLeftDeltaOneRightNonZero s
  | .pushOneLeftDeltaNRightZero => Sys2Proof.Machine.execPushOneLeftDeltaNRightZero s
  | .pushOneLeftDeltaNRightNonZero => Sys2Proof.Machine.execPushOneLeftDeltaNRightNonZero s
  | .pushOneLeftDeltaNRightNonZeroPack6Bits => Sys2Proof.Machine.execPushOneLeftDeltaNRightNonZeroPack6Bits s
  | .pushOneLeftDeltaNRightNonZeroPack8Bits => Sys2Proof.Machine.execPushOneLeftDeltaNRightNonZeroPack8Bits s
  | .pushTwoLeftDeltaZero => Sys2Proof.Machine.execPushTwoLeftDeltaZero s
  | .pushTwoPack5LeftDeltaZero => Sys2Proof.Machine.execPushTwoPack5LeftDeltaZero s
  | .pushThreeLeftDeltaZero => Sys2Proof.Machine.execPushThreeLeftDeltaZero s
  | .pushThreePack5LeftDeltaZero => Sys2Proof.Machine.execPushThreePack5LeftDeltaZero s
  | .pushTwoLeftDeltaOne => Sys2Proof.Machine.execPushTwoLeftDeltaOne s
  | .pushTwoPack5LeftDeltaOne => Sys2Proof.Machine.execPushTwoPack5LeftDeltaOne s
  | .pushThreeLeftDeltaOne => Sys2Proof.Machine.execPushThreeLeftDeltaOne s
  | .pushThreePack5LeftDeltaOne => Sys2Proof.Machine.execPushThreePack5LeftDeltaOne s
  | .pushTwoLeftDeltaN => Sys2Proof.Machine.execPushTwoLeftDeltaN s
  | .pushTwoPack5LeftDeltaN => Sys2Proof.Machine.execPushTwoPack5LeftDeltaN s
  | .pushThreeLeftDeltaN => Sys2Proof.Machine.execPushThreeLeftDeltaN s
  | .pushThreePack5LeftDeltaN => Sys2Proof.Machine.execPushThreePack5LeftDeltaN s
  | .pushN => Sys2Proof.Machine.execPushN s
  | .pushNAndNonTopological => Sys2Proof.Machine.execPushNAndNonTopological s
  | .popOnePlusOne => Sys2Proof.Machine.execPopOnePlusOne s
  | .popOnePlusN => Sys2Proof.Machine.execPopOnePlusN s
  | .popAllButOnePlusOne => Sys2Proof.Machine.execPopAllButOnePlusOne s
  | .popAllButOnePlusN => Sys2Proof.Machine.execPopAllButOnePlusN s
  | .popAllButOnePlusNPack3Bits => Sys2Proof.Machine.execPopAllButOnePlusNPack3Bits s
  | .popAllButOnePlusNPack6Bits => Sys2Proof.Machine.execPopAllButOnePlusNPack6Bits s
  | .popNPlusOne => Sys2Proof.Machine.execPopNPlusOne s
  | .popNPlusN => Sys2Proof.Machine.execPopNPlusN s
  | .popNAndNonTopographical => Sys2Proof.Machine.execPopNAndNonTopographical s
  | .nonTopoComplex => Sys2Proof.Machine.execNonTopoComplex s
  | .nonTopoPenultimatePlusOne => Sys2Proof.Machine.execNonTopoPenultimatePlusOne s
  | .nonTopoComplexPack4Bits => Sys2Proof.Machine.execNonTopoComplexPack4Bits s
  | .fieldPathEncodeFinish => Sys2Proof.Machine.execFieldPathEncodeFinish s

end Sys2Proof.Machine
end

