-- ==== Sys2Proof/Machine/Program.lean ====
section
/-! DEFINITION. The operations as lists of micro-steps, the request that a micro-step offers, and how far an operation goes
while the reader answers nothing (40_decode_loop.md R82; 60_exceptions.md R163). -/

namespace Sys2Proof.Machine

/-- The micro-steps of each operation's pseudocode. -/
def program : Instr → List Micro
  | .plusOne => plusOneSteps
  | .plusTwo => plusTwoSteps
  | .plusThree => plusThreeSteps
  | .plusFour => plusFourSteps
  | .plusN => plusNSteps
  | .pushOneLeftDeltaZeroRightZero => pushOneLeftDeltaZeroRightZeroSteps
  | .pushOneLeftDeltaZeroRightNonZero => pushOneLeftDeltaZeroRightNonZeroSteps
  | .pushOneLeftDeltaOneRightZero => pushOneLeftDeltaOneRightZeroSteps
  | .pushOneLeftDeltaOneRightNonZero => pushOneLeftDeltaOneRightNonZeroSteps
  | .pushOneLeftDeltaNRightZero => pushOneLeftDeltaNRightZeroSteps
  | .pushOneLeftDeltaNRightNonZero => pushOneLeftDeltaNRightNonZeroSteps
  | .pushOneLeftDeltaNRightNonZeroPack6Bits => pushOneLeftDeltaNRightNonZeroPack6BitsSteps
  | .pushOneLeftDeltaNRightNonZeroPack8Bits => pushOneLeftDeltaNRightNonZeroPack8BitsSteps
  | .pushTwoLeftDeltaZero => pushTwoLeftDeltaZeroSteps
  | .pushTwoPack5LeftDeltaZero => pushTwoPack5LeftDeltaZeroSteps
  | .pushThreeLeftDeltaZero => pushThreeLeftDeltaZeroSteps
  | .pushThreePack5LeftDeltaZero => pushThreePack5LeftDeltaZeroSteps
  | .pushTwoLeftDeltaOne => pushTwoLeftDeltaOneSteps
  | .pushTwoPack5LeftDeltaOne => pushTwoPack5LeftDeltaOneSteps
  | .pushThreeLeftDeltaOne => pushThreeLeftDeltaOneSteps
  | .pushThreePack5LeftDeltaOne => pushThreePack5LeftDeltaOneSteps
  | .pushTwoLeftDeltaN => pushTwoLeftDeltaNSteps
  | .pushTwoPack5LeftDeltaN => pushTwoPack5LeftDeltaNSteps
  | .pushThreeLeftDeltaN => pushThreeLeftDeltaNSteps
  | .pushThreePack5LeftDeltaN => pushThreePack5LeftDeltaNSteps
  | .pushN => pushNSteps
  | .pushNAndNonTopological => pushNAndNonTopologicalSteps
  | .popOnePlusOne => popOnePlusOneSteps
  | .popOnePlusN => popOnePlusNSteps
  | .popAllButOnePlusOne => popAllButOnePlusOneSteps
  | .popAllButOnePlusN => popAllButOnePlusNSteps
  | .popAllButOnePlusNPack3Bits => popAllButOnePlusNPack3BitsSteps
  | .popAllButOnePlusNPack6Bits => popAllButOnePlusNPack6BitsSteps
  | .popNPlusOne => popNPlusOneSteps
  | .popNPlusN => popNPlusNSteps
  | .popNAndNonTopographical => popNAndNonTopographicalSteps
  | .nonTopoComplex => nonTopoComplexSteps
  | .nonTopoPenultimatePlusOne => nonTopoPenultimatePlusOneSteps
  | .nonTopoComplexPack4Bits => nonTopoComplexPack4BitsSteps
  | .fieldPathEncodeFinish => fieldPathEncodeFinishSteps

/-- The request that a micro-step offers before it can go on (60_exceptions.md R163); none where it reads nothing. -/
def microRequest : Micro → Option Request
  | .addTop e => e.field
  | .addRoot e => e.field
  | .addPenultimate => none
  | .enter => none
  | .setTop e => e.field
  | .pop _ => none
  | .popAll => none
  | .popRead q => some q
  | .countPush _ _ => some .ubv
  | .pushes _ _ => none
  | .guardLoop _ => none
  | .guardsLeft 0 _ _ => none
  | .guardsLeft (_ + 1) _ _ => some .bool
  | .addLevel _ e => e.field
  | .setFin => none

/-! ### Going on without an answer -/

/-- What a micro-step does before its first request, and what is left of it; nothing is left where it asks nothing. -/
def unaskedPart (m : Micro) (c : OpCtx) : Except FaultInfo (OpCtx × List Micro) :=
  if (microRequest m).isSome then .ok (c, [m])
  else
    match m with
    | .guardLoop e => .ok (c, [.guardsLeft (c.ps.cur + 1) 0 e])
    | .pushes (n + 1) ⟨some q, bias⟩ =>
      match enter c with
      | .error f => .error f
      | .ok c' => .ok (c', [.setTop ⟨some q, bias⟩, .pushes n ⟨some q, bias⟩])
    | m =>
      match runMicro m c with
      | .error f => .error f
      | .ok c' => .ok (c', [])

/-- Micro-steps in order up to the first request: what they leave, and the micro-steps still to run, of which the first
offers a request; the first that raises a fault ends them (40_decode_loop.md R82). -/
def runUnasked : List Micro → OpCtx → Except FaultInfo (OpCtx × List Micro)
  | [], c => .ok (c, [])
  | m :: ms, c =>
    match unaskedPart m c with
    | .error f => .error f
    | .ok (c', []) => runUnasked ms c'
    | .ok (c', m' :: left) => .ok (c', m' :: left ++ ms)

/-- The rest of a running operation while the reader answers nothing: to its end where it asks nothing, else to its next
request, which is then offered (60_exceptions.md R163). -/
def resumeUnasked (ms : List Micro) (s : State) : Host.Outcome State Fault Refusal :=
  match runUnasked ms ⟨s.ps, s.rd⟩ with
  | .error f => .next (raiseFault f s)
  | .ok (c, []) => .next (finishOperation { s with ps := c.ps, rd := c.rd })
  | .ok (c, m :: left) => .next { s with ps := c.ps, rd := c.rd, mstep := some (m :: left) }

end Sys2Proof.Machine
end

