-- ==== Sys2Proof/Machine/Sequencer.lean ====
section
/-! DEFINITION. The decode loop's sequencer (40_decode_loop.md R76 to R93): what one step does in each ESTATE, under one
sample of the pins. -/

namespace Sys2Proof.Machine

/-- Run what was fetched. -/
def runFetched : Fetched → Host.Outcome State Fault Refusal
  | .run i s => exec i s
  | .raise f s => .next (raiseFault f s)
  | .stop f => .fault f

/-- A step in phase EXECUTE while the reader answers nothing: the operation goes on to its next request (60_exceptions.md
R163). -/
def executeUnanswered (s : State) : Host.Outcome State Fault Refusal :=
  match s.mstep with
  | some ms => resumeUnasked ms s
  | none =>
    match select s with
    | .run i s' => resumeUnasked (program i) (traceBefore s')
    | .raise f s' => .next (raiseFault f s')
    | .stop f => .fault f

/-- A step in phase TRAVERSE while the reader answers nothing: an internal node's code bit stays requested (R163), and a
leaf asks nothing (R79). -/
def traverseUnanswered (s : State) : Host.Outcome State Fault Refusal :=
  match s.rom.tree[s.node]? with
  | none => .fault (.noTreeNode s.node)
  | some (.leaf op) => executeUnanswered (atLeaf op 0 s)
  | some (.internal _ _) => .next s

/-- One step under a sample of the pins, which has been taken from the queue already. -/
def stepWith (p : Pins) (s : State) : Host.Outcome State Fault Refusal :=
  if p.rst then .next (resetMoves p s)
  else
    match s.estate with
    | .idle => .next (hostMoves p s)
    | .done => .next (hostMoves p s)
    | .fault => .next (hostMoves p s)
    | .run .traverse =>
      if s.ps.fin then .next { s with estate := .done }
      else if p.rdValid then runFetched (fetch s)
      else traverseUnanswered s
    | .run .execute =>
      if p.rdValid then
        match s.mstep with
        | none => runFetched (select s)
        | some ms => resume ms s
      else executeUnanswered s
    | .run .emit => .next (emitMoves p s)

end Sys2Proof.Machine
end

