-- ==== Sys2Proof/Machine/Step.lean ====
section
/-! DEFINITION. One step (40_decode_loop.md R93): a whole operation from its first code bit to its end, or an accepted
snapshot, a START, a RST, or a wait. -/

namespace Sys2Proof.Machine

/-- One step. -/
def step (s : State) : Host.Outcome State Fault Refusal := stepWith s.pins s.popPins

/-- `s` with one operation placed where the next step fetches it (30_encoding.md R72; log entries 12 and 21). -/
def State.withFetchWord (s : State) (nbits w : Nat) : State := placeBits (windowBits nbits w) s

end Sys2Proof.Machine
end

