-- ==== Sys2Proof/Machine/Tick.lean ====
section
/-! DEFINITION. The machine at its finer granularity, one code bit or one micro-step at a time (40_decode_loop.md R93: "A
model may use either granularity"): what NODE, OPIDX, MSTEP and the reader request look like in the middle of an
operation, and what RST and a reader that does not answer do there. -/

namespace Sys2Proof.Machine

/-- A micro-step that is not a loop: run it whole, and go on with the rest. -/
def plainMicro (m : Micro) (rest : List Micro) (c : OpCtx) : Except FaultInfo (OpCtx × List Micro) :=
  match runMicro m c with
  | .error f => .error f
  | .ok c' => .ok (c', rest)

/-- One micro-step: what it leaves of the path state and the reader, and the micro-steps still to run. A loop makes one
pass (R107, R130, R143). -/
def microTick (m : Micro) (rest : List Micro) (c : OpCtx) : Except FaultInfo (OpCtx × List Micro) :=
  match m with
  | .addTop e => plainMicro (.addTop e) rest c
  | .addRoot e => plainMicro (.addRoot e) rest c
  | .addPenultimate => plainMicro .addPenultimate rest c
  | .enter => plainMicro .enter rest c
  | .setTop e => plainMicro (.setTop e) rest c
  | .pop n => plainMicro (.pop n) rest c
  | .popAll => plainMicro .popAll rest c
  | .popRead q => plainMicro (.popRead q) rest c
  | .addLevel i e => plainMicro (.addLevel i e) rest c
  | .setFin => plainMicro .setFin rest c
  | .countPush increment e =>
    match c.rd.request .ubv with
    | none => .error .malformedStream
    | some (n, rd) =>
      match increment with
      | none => .ok ({ c with rd := rd }, .pushes n.toNat e :: rest)
      | some d => .ok ({ c with rd := rd }, .addTop d :: .pushes n.toNat e :: rest)
  | .pushes 0 _ => .ok (c, rest)
  | .pushes (n + 1) e => .ok (c, .enter :: .setTop e :: .pushes n e :: rest)
  | .guardLoop e => .ok (c, .guardsLeft (c.ps.cur + 1) 0 e :: rest)
  | .guardsLeft 0 _ _ => .ok (c, rest)
  | .guardsLeft (k + 1) i e =>
    match c.rd.request .bool with
    | none => .error .malformedStream
    | some (g, rd) =>
      if g = 1 then .ok ({ c with rd := rd }, .addLevel i e :: .guardsLeft k (i + 1) e :: rest)
      else .ok ({ c with rd := rd }, .guardsLeft k (i + 1) e :: rest)

/-- One traversal step: a leaf ends the walk without reading, an internal node reads one bit (R78, R79). -/
def tickTraverse (p : Pins) (s : State) : Host.Outcome State Fault Refusal :=
  match s.rom.tree[s.node]? with
  | none => .fault (.noTreeNode s.node)
  | some (.leaf op) => .next (atLeaf op 0 s)
  | some (.internal c0 c1) =>
    if p.rdValid then
      match s.rd.request .bit with
      | none => .next (raiseFault .malformedStream s)
      | some (b, rd) => .next { s with node := childOn (b == 1) c0 c1, rd := rd }
    else .next s

/-- One tick of phase EXECUTE: select the operation, run one micro-step, or end the operation (R80, R82). -/
def tickExecute (p : Pins) (s : State) : Host.Outcome State Fault Refusal :=
  match s.mstep with
  | none =>
    match select s with
    | .run i s' => .next { traceBefore s' with mstep := some (program i) }
    | .raise f s' => .next (raiseFault f s')
    | .stop f => .fault f
  | some [] => .next (finishOperation s)
  | some (m :: ms) =>
    if (microRequest m).isSome && !p.rdValid then .next s
    else
      match microTick m ms ⟨s.ps, s.rd⟩ with
      | .error f => .next (raiseFault f s)
      | .ok (c, left) => .next { s with ps := c.ps, rd := c.rd, mstep := some left }

/-- One tick under a sample of the pins. -/
def tickWith (p : Pins) (s : State) : Host.Outcome State Fault Refusal :=
  if p.rst then .next (resetMoves p s)
  else
    match s.estate with
    | .idle => .next (hostMoves p s)
    | .done => .next (hostMoves p s)
    | .fault => .next (hostMoves p s)
    | .run .traverse => if s.ps.fin then .next { s with estate := .done } else tickTraverse p s
    | .run .execute => tickExecute p s
    | .run .emit => .next (emitMoves p s)

/-- One tick. -/
def tick (s : State) : Host.Outcome State Fault Refusal := tickWith s.pins s.popPins

end Sys2Proof.Machine
end

