-- ==== Sys2Proof/Machine/Ports.lean ====
section
/-! DEFINITION. The output ports as functions of the state (60_exceptions.md R163), the snapshot's rendering
(10_state.md R24) and the text of an assembler line (30_encoding.md R75). STATUS is in Flags.lean. -/

namespace Sys2Proof.Machine

/-! ### Reader request channel -/

/-- The request offered to the reader, if there is one (R163). -/
def State.rdReq (s : State) : Option Request :=
  match s.estate with
  | .run .traverse =>
    match s.rom.tree[s.node]? with
    | some (.internal _ _) => some .bit
    | some (.leaf _) => none
    | none => none
  | .run .execute =>
    match s.mstep with
    | some (m :: _) => microRequest m
    | some [] => none
    | none => none
  | .run .emit => none
  | .idle => none
  | .done => none
  | .fault => none

/-- RD_REQ_VALID. -/
def State.rdReqValid (s : State) : Bool := s.rdReq.isSome

/-- The RD_REQ_KIND code of a request (R163). -/
def requestKind : Request → BitVec 3
  | .bit => 0
  | .bits _ => 1
  | .bool => 2
  | .ubv => 3
  | .ubvfp => 4
  | .varS32 => 5

/-- The RD_REQ_N of a request: the width for BITS, 0 otherwise (R163). -/
def requestWidth : Request → BitVec 6
  | .bits n => BitVec.ofNat 6 n
  | .bit => 0
  | .bool => 0
  | .ubv => 0
  | .ubvfp => 0
  | .varS32 => 0

/-! ### Snapshot port -/

/-- SNAP_VALID: a snapshot is offered in phase EMIT. -/
def State.snapValid (s : State) : Bool := s.estate == .run .emit

/-- SNAP_DEPTH: CUR + 1 (R163). -/
def State.snapDepth (s : State) : BitVec 3 := BitVec.ofNat 3 (s.ps.cur + 1)

/-- SNAP_SEG[i]: SEG[i], and 0 from SNAP_DEPTH on (R24). -/
def State.snapSeg (s : State) (i : Nat) : Int := if i ≤ s.ps.cur then s.ps.seg.get i else 0

/-- OUTCOUNT: the number of snapshots in OUT on 32 bits; past what 32 bits can count the spec states no value
(10_state.md R31; log entry 13). -/
def State.outcount (s : State) : BitVec 32 :=
  if s.out.length < 2 ^ 32 then BitVec.ofNat 32 s.out.length else Config.outcountBeyond s.out.length

/-! ### Text -/

/-- The rendering of a snapshot: slash-joined integers (R24). -/
def renderSnapshot (snap : Snapshot) : String := String.intercalate "/" (snap.map toString)

/-- An operand in assembler text; the brace characters are 123 and 125 (R75). -/
def operandText : Operand → String
  | .field v => toString v
  | .guards gs =>
    String.singleton (Char.ofNat 123)
      ++ String.intercalate ", " (gs.map fun g => match g with | none => "-" | some v => toString v)
      ++ String.singleton (Char.ofNat 125)
  | .values vs => "[" ++ String.intercalate ", " (vs.map toString) ++ "]"

/-- A line in assembler text: the OP_TABLE name, then its operands in read order (R75). -/
def lineText (l : Line) : String :=
  match l.operands with
  | [] => mnemonic l.op
  | o :: os => mnemonic l.op ++ " " ++ String.intercalate ", " ((o :: os).map operandText)

end Sys2Proof.Machine
end

