-- ==== Sys2Proof/Machine/WholeDecode.lean ====
section
/-! DEFINITION. One operation and the whole decode as functions of the stream (40_decode_loop.md R93, R94), with no control
state: what `step` is held against. -/

namespace Sys2Proof.Machine

/-- `opStep(kind, ps, rd)` (R93). -/
def opStep (i : Instr) (ps : PathState) (rd : Reader) : OpResult := runMicros (program i) ⟨ps, rd⟩

/-- What a whole decode gives (R94). -/
inductive DecodeResult where
  /-- `Ok(OUT, pos)`. -/
  | ok (out : List Snapshot) (pos : Nat)
  /-- `Err(K, OUT_partial)`, with K's info. -/
  | err (f : FaultInfo) (out : List Snapshot)
  /-- The walk left the tree: no rule of the spec, and not met with consistent ROMs. -/
  | noNode (id : Nat)
  /-- The fuel ran out: not met where every code has a bit and the fuel is more than the bits there are. -/
  | outOfFuel
deriving DecidableEq, Repr

/-- The loop of R94, at most `fuel` operations. -/
def decodeLoop (rom : Rom) : Nat → PathState → List Snapshot → Reader → DecodeResult
  | 0, _, _, _ => .outOfFuel
  | fuel + 1, ps, out, rd =>
    match walk rom.tree rom.root 0 rd.rest with
    | .exhausted => .err .malformedStream out
    | .noNode id => .noNode id
    | .leaf op n =>
      match rom.kindOf op with
      | none => .err (.unknownSymbol op) out
      | some i =>
        match opStep i ps (rd.advance n) with
        | .error f => .err f out
        | .ok c =>
          if c.ps.fin then .ok out c.rd.pos
          else decodeLoop rom fuel c.ps (out ++ [c.ps.snapshot]) c.rd

/-- `decodeFieldPaths(stream, pos0)` (R94), under given parameters: one operation more than there are bits is enough fuel
(R95). -/
def decodeFieldPaths (rom : Rom) (range : SegRange) (rd : Reader) : DecodeResult :=
  decodeLoop rom (rd.rest.length + 1) (.initial range) [] rd

end Sys2Proof.Machine
end

