-- ==== Sys2Proof/Safety.lean ====
section
/-! DEFINITION. What counts as a safe run, and the terms the claims use: the invariant (10_state.md R20, R22, R29), ROM
consistency (70_reset_and_hazards.md R173), the state that a completed or a faulting operation leaves, what a sequence of
fields reads, and the reads and writes that an operation comes to (60_exceptions.md R150, R151, R154). -/

namespace Sys2Proof.Machine

/-! ### The path state's invariant -/

/-- Every segment is in SEG_MIN to SEG_MAX (R18). -/
def PathState.AllInRange (ps : PathState) : Prop := ∀ i, ps.InRange (ps.seg.get i)

/-- CUR is 0 to 5 and every segment is in range (R18, R20). -/
def PathState.Bounded (ps : PathState) : Prop := ps.cur ≤ 5 ∧ ps.AllInRange

/-- Invariant Z: every segment above CUR is 0 (R22). -/
def PathState.ZeroAbove (ps : PathState) : Prop := ∀ i, ps.cur < i → ps.seg.get i = 0

/-! ### ROM consistency -/

/-- A tree node whose children are nodes of the tree, or whose operation has a kind. -/
def nodeConsistent (rom : Rom) : TreeNode → Bool
  | .leaf op => (rom.kindOf op).isSome
  | .internal c0 c1 => decide (c0 < rom.tree.length) && decide (c1 < rom.tree.length)

/-- What the decode loop needs of the ROMs (R60, R173): 2·N_OPS-1 nodes for N_OPS ≥ 2, every child a node, every leaf an
operation with a kind, and an internal root. -/
def Rom.consistent (rom : Rom) : Bool :=
  decide (2 ≤ rom.nOps) && rom.tree.length == 2 * rom.nOps - 1 && rom.tree.all (nodeConsistent rom) &&
    (match rom.tree[rom.root]? with
      | some (.internal _ _) => true
      | some (.leaf _) => false
      | none => false)

/-! ### Micro-steps still to run -/

/-- Whether a micro-step names no level by number. -/
def levelFree : Micro → Bool
  | .addTop _ => true
  | .addRoot _ => true
  | .addPenultimate => true
  | .enter => true
  | .setTop _ => true
  | .pop _ => true
  | .popAll => true
  | .popRead _ => true
  | .countPush _ _ => true
  | .pushes _ _ => true
  | .guardLoop _ => true
  | .guardsLeft _ _ _ => false
  | .addLevel _ _ => false
  | .setFin => true

/-- The levels that a guard loop in progress names are active ones, and only a guard loop in progress names any (R143). -/
def levelsOk (cur : Nat) : List Micro → Bool
  | [] => true
  | .addLevel i _ :: ms => decide (i ≤ cur) && levelsOk cur ms
  | .guardsLeft k i _ :: ms => decide (i + k ≤ cur + 1) && levelsOk cur ms
  | m :: ms => levelFree m && ms.all levelFree

/-! ### The machine's invariant -/

/-- The machine's invariant, over every ESTATE. -/
structure State.Inv (s : State) : Prop where
  /-- The ROMs belong together (R173). -/
  rom : s.rom.consistent = true
  /-- SEG and CUR are in range, after a fault too (R18, R20). -/
  bounded : s.ps.Bounded
  /-- Invariant Z (R22), but not after a fault, where SEG and CUR are unspecified (R157). -/
  clear : s.estate ≠ .fault → s.ps.ZeroAbove
  /-- FKIND is NONE exactly outside FAULT (R29). -/
  kind : s.fkind = .none ↔ s.estate ≠ .fault
  /-- FIN is set in DONE (R83) and clear while another operation may come (R85). -/
  finDone : s.estate = .done → s.ps.fin = true
  finIdle : s.estate = .idle → s.ps.fin = false
  finTraverse : s.estate = .run .traverse → s.ps.fin = false
  finEmit : s.estate = .run .emit → s.ps.fin = false
  /-- NODE is a node of the tree while a code is read (R25), and the root in every other state but FAULT. -/
  nodeTraverse : s.estate = .run .traverse → s.node < s.rom.tree.length
  nodeRoot : s.estate ≠ .run .traverse → s.estate ≠ .fault → s.node = s.rom.root
  /-- MSTEP exists only while an operation executes (R27). -/
  mstepNone : s.estate ≠ .run .execute → s.estate ≠ .fault → s.mstep = none
  /-- A guard loop in progress stays within the active levels (R143). -/
  mstepLevels : s.estate = .run .execute → ∀ ms, s.mstep = some ms → levelsOk s.ps.cur ms = true
  /-- OPIDX selects an operation while one executes (R26, R81). -/
  opidxKind : s.estate = .run .execute → (s.rom.kindOf s.opidx).isSome = true
  /-- Every snapshot has 1 to 6 values, all in range (R24). -/
  out : ∀ snap ∈ s.out, 1 ≤ snap.length ∧ snap.length ≤ 6 ∧ ∀ v ∈ snap, s.ps.InRange v

/-! ### What an operation leaves -/

/-- The trace events of an operation that ends with event `e`: BEFORE and `e`, where the trace port is there (R164). -/
def State.opTrace (s : State) (e : TraceEvent) : List TraceEvent :=
  if s.traceEn then [.before s.opidx s.rd.pos s.ps.cur s.ps.seg, e] else []

/-- What a non-terminal operation that ran in `s` leaves when it completes with path state `ps` and reader `rd`: the
snapshot is offered (R84), and nothing else has changed. -/
def State.completed (s : State) (ps : PathState) (rd : Reader) : State :=
  { s with
    ps := ps
    rd := rd
    mstep := none
    estate := .run .emit
    trace := s.trace ++ s.opTrace (.after s.opidx rd.pos ps.cur ps.seg ps.fin) }

/-- What the terminal operation leaves (R83, R147). -/
def State.terminated (s : State) : State :=
  { s with
    ps := { s.ps with fin := true }
    mstep := none
    estate := .done
    trace := s.trace ++ s.opTrace (.after s.opidx s.rd.pos s.ps.cur s.ps.seg true) }

/-- The free values after a fault (R157) put into a state: its path state, NODE, OPIDX, MSTEP and POS. -/
def State.unspecified (s : State) : State :=
  { s with
    ps := {
      seg := ⟨s.ps.range.nearest (Config.faultSeg s.draws 0), s.ps.range.nearest (Config.faultSeg s.draws 1),
        s.ps.range.nearest (Config.faultSeg s.draws 2), s.ps.range.nearest (Config.faultSeg s.draws 3),
        s.ps.range.nearest (Config.faultSeg s.draws 4), s.ps.range.nearest (Config.faultSeg s.draws 5)⟩
      cur := (Config.faultCur s.draws).val
      fin := Config.faultFin s.draws
      range := s.ps.range }
    node := Config.faultNode s.draws
    opidx := Config.faultOpidx s.draws
    mstep := Config.faultMstep s.draws
    rd := { s.rd with pos := Config.faultPos s.draws }
    draws := s.draws + 1 }

/-- What taking fault `f` leaves when no operation has begun (R149). -/
def State.taking (s : State) (f : FaultInfo) : State :=
  { s.unspecified with
    fkind := f.kind
    estate := .fault
    trace := s.trace ++ (if s.traceEn then [.fault f s.opidx (Config.faultPos s.draws)] else []) }

/-- What an operation that ran in `s` leaves when it raises fault `f` (R149). -/
def State.faultedBy (s : State) (f : FaultInfo) : State :=
  { s.unspecified with
    fkind := f.kind
    estate := .fault
    trace := s.trace ++ s.opTrace (.fault f s.opidx (Config.faultPos s.draws)) }

/-! ### Path states the rules speak of -/

/-- SEG[i] with v added. -/
def PathState.added (ps : PathState) (i : Nat) (v : Int) : PathState :=
  { ps with seg := ps.seg.set i (ps.seg.get i + v) }

/-- One level more, with value v at the new top (R107). -/
def PathState.pushed (ps : PathState) (v : Int) : PathState :=
  { ps with cur := ps.cur + 1, seg := ps.seg.set (ps.cur + 1) v }

/-- Several levels more, outermost first. -/
def PathState.pushedAll (ps : PathState) (vs : List Int) : PathState := vs.foldl PathState.pushed ps

/-- SEG[i] after n levels were popped from cursor `cur`: the levels left behind are 0 (R132). -/
def poppedSeg (ps : PathState) (n i : Nat) : Int := if ps.cur - n < i ∧ i ≤ ps.cur then 0 else ps.seg.get i

/-- n levels fewer (R132). -/
def PathState.popped (ps : PathState) (n : Nat) : PathState :=
  { ps with
    cur := ps.cur - n
    seg := ⟨poppedSeg ps n 0, poppedSeg ps n 1, poppedSeg ps n 2, poppedSeg ps n 3, poppedSeg ps n 4, poppedSeg ps n 5⟩ }

/-- What the guards add to level i: nothing for a false guard, else the field plus the bias (R143). -/
def guardDelta (gs : List (Option Int)) (bias : Int) (i : Nat) : Int :=
  match gs[i]? with
  | some (some x) => x + bias
  | some none => 0
  | none => 0

/-- Every level with its guard's delta added (R143). -/
def PathState.adjusted (ps : PathState) (gs : List (Option Int)) (bias : Int) : PathState :=
  { ps with
    seg := ⟨ps.seg.get 0 + guardDelta gs bias 0, ps.seg.get 1 + guardDelta gs bias 1,
      ps.seg.get 2 + guardDelta gs bias 2, ps.seg.get 3 + guardDelta gs bias 3,
      ps.seg.get 4 + guardDelta gs bias 4, ps.seg.get 5 + guardDelta gs bias 5⟩ }

/-- Every level that a true guard adjusts stays in range. -/
def PathState.AdjustInRange (ps : PathState) (gs : List (Option Int)) (bias : Int) : Prop :=
  ∀ i x, gs[i]? = some (some x) → ps.InRange (ps.seg.get i + (x + bias))

/-! ### The reference table -/

/-- `i` stands at index `idx` of the reference OP_TABLE and has the code `bits` (30_encoding.md R63). -/
def ListedAs (i : Instr) (idx : Nat) (bits : Bits) : Prop := referenceRom.kindOf idx = some i ∧ encode i = bits

/-! ### Faults by operation, and decodes compared -/

/-- The fault kinds that each operation can raise while it executes (60_exceptions.md R155). -/
def faultsOf : Instr → List FKind
  | .plusOne => [.segmentRange]
  | .plusTwo => [.segmentRange]
  | .plusThree => [.segmentRange]
  | .plusFour => [.segmentRange]
  | .plusN => [.malformedStream, .segmentRange]
  | .pushOneLeftDeltaZeroRightZero => [.pathOverflow]
  | .pushOneLeftDeltaZeroRightNonZero => [.pathOverflow, .malformedStream]
  | .pushOneLeftDeltaOneRightZero => [.segmentRange, .pathOverflow]
  | .pushOneLeftDeltaOneRightNonZero => [.segmentRange, .pathOverflow, .malformedStream]
  | .pushOneLeftDeltaNRightZero => [.malformedStream, .segmentRange, .pathOverflow]
  | .pushOneLeftDeltaNRightNonZero => [.malformedStream, .segmentRange, .pathOverflow]
  | .pushOneLeftDeltaNRightNonZeroPack6Bits => [.malformedStream, .segmentRange, .pathOverflow]
  | .pushOneLeftDeltaNRightNonZeroPack8Bits => [.malformedStream, .segmentRange, .pathOverflow]
  | .pushTwoLeftDeltaZero => [.pathOverflow, .malformedStream]
  | .pushTwoPack5LeftDeltaZero => [.pathOverflow, .malformedStream]
  | .pushThreeLeftDeltaZero => [.pathOverflow, .malformedStream]
  | .pushThreePack5LeftDeltaZero => [.pathOverflow, .malformedStream]
  | .pushTwoLeftDeltaOne => [.segmentRange, .pathOverflow, .malformedStream]
  | .pushTwoPack5LeftDeltaOne => [.segmentRange, .pathOverflow, .malformedStream]
  | .pushThreeLeftDeltaOne => [.segmentRange, .pathOverflow, .malformedStream]
  | .pushThreePack5LeftDeltaOne => [.segmentRange, .pathOverflow, .malformedStream]
  | .pushTwoLeftDeltaN => [.malformedStream, .segmentRange, .pathOverflow]
  | .pushTwoPack5LeftDeltaN => [.malformedStream, .segmentRange, .pathOverflow]
  | .pushThreeLeftDeltaN => [.malformedStream, .segmentRange, .pathOverflow]
  | .pushThreePack5LeftDeltaN => [.malformedStream, .segmentRange, .pathOverflow]
  | .pushN => [.malformedStream, .segmentRange, .pathOverflow]
  | .pushNAndNonTopological => [.malformedStream, .segmentRange, .pathOverflow]
  | .popOnePlusOne => [.pathUnderflow, .segmentRange]
  | .popOnePlusN => [.pathUnderflow, .malformedStream, .segmentRange]
  | .popAllButOnePlusOne => [.segmentRange]
  | .popAllButOnePlusN => [.malformedStream, .segmentRange]
  | .popAllButOnePlusNPack3Bits => [.malformedStream, .segmentRange]
  | .popAllButOnePlusNPack6Bits => [.malformedStream, .segmentRange]
  | .popNPlusOne => [.malformedStream, .pathUnderflow, .segmentRange]
  | .popNPlusN => [.malformedStream, .pathUnderflow, .segmentRange]
  | .popNAndNonTopographical => [.malformedStream, .pathUnderflow, .segmentRange]
  | .nonTopoComplex => [.malformedStream, .segmentRange]
  | .nonTopoPenultimatePlusOne => [.pathUnderflow, .segmentRange]
  | .nonTopoComplexPack4Bits => [.malformedStream, .segmentRange]
  | .fieldPathEncodeFinish => []

/-- A host that has no more moves to make: it only answers and accepts (log entry 9). -/
abbrev State.QuietHost (s : State) : Prop := s.host = [] ∧ s.hostRest = .quiet

/-- Two states in the same place of the same decode: equal but for the trace port, the count of earlier faults, and an
OPIDX that no operation is using (R26, R36, R164, R171). -/
structure SameDecode (s t : State) : Prop where
  ps : s.ps = t.ps
  node : s.node = t.node
  mstep : s.mstep = t.mstep
  estate : s.estate = t.estate
  fkind : s.fkind = t.fkind
  out : s.out = t.out
  rom : s.rom = t.rom
  rd : s.rd = t.rd
  host : s.host = t.host
  hostRest : s.hostRest = t.hostRest
  opidx : s.estate = .run .execute → s.opidx = t.opidx

/-- Two states that look the same from outside: the ports but the trace, what the reader holds and what is to come
(R157, R163). -/
structure SameOutside (s t : State) : Prop where
  estate : s.estate = t.estate
  fkind : s.fkind = t.fkind
  out : s.out = t.out
  rom : s.rom = t.rom
  stream : s.rd.stream = t.rd.stream
  br : s.rd.br = t.rd.br
  range : s.ps.range = t.ps.range
  host : s.host = t.host
  hostRest : s.hostRest = t.hostRest

/-! ### Runs -/

/-- The state after `k` steps; none where one of them stops. -/
def State.after : Nat → State → Option State
  | 0, s => some s
  | k + 1, s =>
    match step s with
    | .next t => t.after k
    | .fault _ => none
    | .refused _ => none

/-! ### What a sequence of requests reads -/

/-- `n` requests of one kind, one after the other. -/
def Reader.requests (q : Request) : Nat → Reader → Option (List Int × Reader)
  | 0, r => some ([], r)
  | n + 1, r =>
    match r.request q with
    | none => none
    | some (v, r1) =>
      match Reader.requests q n r1 with
      | none => none
      | some (vs, r2) => some (v :: vs, r2)

/-- `n` guards, a true one followed at once by its field (R143). -/
def Reader.guards (q : Request) : Nat → Reader → Option (List (Option Int) × Reader)
  | 0, r => some ([], r)
  | n + 1, r =>
    match r.request .bool with
    | none => none
    | some (g, r1) =>
      if g = 1 then
        match r1.request q with
        | none => none
        | some (x, r2) =>
          match Reader.guards q n r2 with
          | none => none
          | some (gs, r3) => some (some x :: gs, r3)
      else
        match Reader.guards q n r1 with
        | none => none
        | some (gs, r2) => some (none :: gs, r2)

/-! ### What an operation comes to -/

/-- Operation `i`, running in `s`, comes to the row of pushes that ends it: `n` values, each read by a request `q`, the
first from the reader `r` (R110, R112, R114 to R116, R118 to R131). What stands before the row has been read and added. -/
inductive ReachesPushes (s : State) : Instr → Request → Nat → Reader → Prop where
  /-- Nothing stands before the row. -/
  | atOnce (i : Instr) (q : Request) (n : Nat)
      (form : (i, q, n) ∈ [(Instr.pushOneLeftDeltaZeroRightNonZero, Request.ubvfp, 1), (.pushTwoLeftDeltaZero, .ubvfp, 2),
        (.pushTwoPack5LeftDeltaZero, .bits 5, 2), (.pushThreeLeftDeltaZero, .ubvfp, 3),
        (.pushThreePack5LeftDeltaZero, .bits 5, 3)]) :
      ReachesPushes s i q n s.rd
  /-- The old top has gone up by one. -/
  | afterOne (i : Instr) (q : Request) (n : Nat)
      (form : (i, q, n) ∈ [(Instr.pushOneLeftDeltaOneRightNonZero, Request.ubvfp, 1), (.pushTwoLeftDeltaOne, .ubvfp, 2),
        (.pushTwoPack5LeftDeltaOne, .bits 5, 2), (.pushThreeLeftDeltaOne, .ubvfp, 3),
        (.pushThreePack5LeftDeltaOne, .bits 5, 3)])
      (sum : s.ps.InRange (s.ps.seg.get s.ps.cur + 1)) :
      ReachesPushes s i q n s.rd
  /-- The old top has gone up by a field plus 2. -/
  | afterField (i : Instr) (q0 q : Request) (n : Nat) (d : Int) (r : Reader)
      (form : (i, q0, q, n) ∈ [(Instr.pushOneLeftDeltaNRightNonZero, Request.ubvfp, Request.ubvfp, 1),
        (.pushOneLeftDeltaNRightNonZeroPack6Bits, .bits 3, .bits 3, 1),
        (.pushOneLeftDeltaNRightNonZeroPack8Bits, .bits 4, .bits 4, 1), (.pushTwoLeftDeltaN, .ubv, .ubvfp, 2),
        (.pushTwoPack5LeftDeltaN, .ubv, .bits 5, 2), (.pushThreeLeftDeltaN, .ubv, .ubvfp, 3),
        (.pushThreePack5LeftDeltaN, .ubv, .bits 5, 3)])
      (read : s.rd.request q0 = some (d, r)) (sum : s.ps.InRange (s.ps.seg.get s.ps.cur + (d + 2))) :
      ReachesPushes s i q n r
  /-- The count and the increment have been read, and the old top has gone up (R130). -/
  | pushN (n d : Int) (r r' : Reader) (count : s.rd.request .ubv = some (n, r)) (read : r.request .ubv = some (d, r'))
      (sum : s.ps.InRange (s.ps.seg.get s.ps.cur + d)) :
      ReachesPushes s .pushN .ubvfp n.toNat r'
  /-- The guard loop has run and the count has been read (R131). -/
  | pushNAndNonTopological (gs : List (Option Int)) (n : Int) (r r' : Reader)
      (loop : Reader.guards .varS32 (s.ps.cur + 1) s.rd = some (gs, r)) (sums : s.ps.AdjustInRange gs 1)
      (count : r.request .ubv = some (n, r')) :
      ReachesPushes s .pushNAndNonTopological .ubvfp n.toNat r'

/-- Operation `i`, running in `s`, comes to its guard loop with the path state `ps` and the reader `r`; a true guard's
level goes up by a field `q` plus `bias` (R131, R142, R144, R146). -/
inductive ReachesGuards (s : State) : Instr → Request → Int → PathState → Reader → Prop where
  | nonTopoComplex : ReachesGuards s .nonTopoComplex .varS32 0 s.ps s.rd
  | nonTopoComplexPack4Bits : ReachesGuards s .nonTopoComplexPack4Bits (.bits 4) (-7) s.ps s.rd
  | pushNAndNonTopological : ReachesGuards s .pushNAndNonTopological .varS32 1 s.ps s.rd
  /-- The levels have been popped. -/
  | popNAndNonTopographical (n : Int) (r : Reader) (count : s.rd.request .ubvfp = some (n, r))
      (fits : n.toNat ≤ s.ps.cur) :
      ReachesGuards s .popNAndNonTopographical .varS32 0 (s.ps.popped n.toNat) r

/-- A guard loop that began with `ps` and `r` has adjusted the levels below `j`, an active level, and goes on with the
reader `rj` (R143). -/
def LoopReaches (ps : PathState) (q : Request) (bias : Int) (r : Reader) (j : Nat) (rj : Reader) : Prop :=
  j ≤ ps.cur ∧ ∃ gs, Reader.guards q j r = some (gs, rj) ∧ ps.AdjustInRange gs bias

/-- Operation `i`, running in `s`, comes to the write `SEG[j] <- v`, whose exact value `v` may be out of range (R15). The
writes left out are those of a 0, by a pop or a push: every range holds it. -/
inductive ReachesWrite (s : State) : Instr → Nat → Int → Prop where
  /-- The top and a constant, first of all (R102 to R105, R111, R112, R122 to R125). -/
  | top (i : Instr) (k : Int)
      (form : (i, k) ∈ [(Instr.plusOne, (1 : Int)), (.plusTwo, 2), (.plusThree, 3), (.plusFour, 4),
        (.pushOneLeftDeltaOneRightZero, 1), (.pushOneLeftDeltaOneRightNonZero, 1), (.pushTwoLeftDeltaOne, 1),
        (.pushTwoPack5LeftDeltaOne, 1), (.pushThreeLeftDeltaOne, 1), (.pushThreePack5LeftDeltaOne, 1)]) :
      ReachesWrite s i s.ps.cur (s.ps.seg.get s.ps.cur + k)
  /-- The top and a field with its bias, first of all (R106, R113 to R116, R126 to R129). -/
  | topField (i : Instr) (q : Request) (k d : Int) (r : Reader)
      (form : (i, q, k) ∈ [(Instr.plusN, Request.ubvfp, (5 : Int)), (.pushOneLeftDeltaNRightZero, .ubvfp, 0),
        (.pushOneLeftDeltaNRightNonZero, .ubvfp, 2), (.pushOneLeftDeltaNRightNonZeroPack6Bits, .bits 3, 2),
        (.pushOneLeftDeltaNRightNonZeroPack8Bits, .bits 4, 2), (.pushTwoLeftDeltaN, .ubv, 2),
        (.pushTwoPack5LeftDeltaN, .ubv, 2), (.pushThreeLeftDeltaN, .ubv, 2), (.pushThreePack5LeftDeltaN, .ubv, 2)])
      (read : s.rd.request q = some (d, r)) :
      ReachesWrite s i s.ps.cur (s.ps.seg.get s.ps.cur + (d + k))
  /-- The top and the increment, after the count (R130). -/
  | pushN (n d : Int) (r r' : Reader) (count : s.rd.request .ubv = some (n, r)) (read : r.request .ubv = some (d, r')) :
      ReachesWrite s .pushN s.ps.cur (s.ps.seg.get s.ps.cur + d)
  /-- A pushed field plus 1 (R114 to R116). -/
  | pushed (i : Instr) (q : Request) (d v : Int) (r r' : Reader)
      (form : (i, q) ∈ [(Instr.pushOneLeftDeltaNRightNonZero, Request.ubvfp),
        (.pushOneLeftDeltaNRightNonZeroPack6Bits, .bits 3), (.pushOneLeftDeltaNRightNonZeroPack8Bits, .bits 4)])
      (read : s.rd.request q = some (d, r)) (sum : s.ps.InRange (s.ps.seg.get s.ps.cur + (d + 2))) (room : s.ps.cur ≤ 4)
      (value : r.request q = some (v, r')) :
      ReachesWrite s i (s.ps.cur + 1) (v + 1)
  /-- A pushed field as it is read, after the values pushed before it (R110, R112, R118 to R131). -/
  | pushedField (i : Instr) (q : Request) (n k : Nat) (v : Int) (vs : List Int) (r rk rv : Reader)
      (row : ReachesPushes s i q n r)
      (form : i ∉ [Instr.pushOneLeftDeltaNRightNonZero, .pushOneLeftDeltaNRightNonZeroPack6Bits,
        .pushOneLeftDeltaNRightNonZeroPack8Bits])
      (more : k < n) (room : s.ps.cur + k ≤ 4) (read : Reader.requests q k r = some (vs, rk))
      (fit : ∀ w ∈ vs, s.ps.InRange w) (value : rk.request q = some (v, rv)) :
      ReachesWrite s i (s.ps.cur + k + 1) v
  /-- The new top and 1 (R134). -/
  | popOne (fits : 1 ≤ s.ps.cur) :
      ReachesWrite s .popOnePlusOne (s.ps.cur - 1) (s.ps.seg.get (s.ps.cur - 1) + 1)
  /-- The new top and a field plus 1 (R135). -/
  | popOneField (d : Int) (r : Reader) (fits : 1 ≤ s.ps.cur) (read : s.rd.request .ubvfp = some (d, r)) :
      ReachesWrite s .popOnePlusN (s.ps.cur - 1) (s.ps.seg.get (s.ps.cur - 1) + (d + 1))
  /-- SEG[0] and 1 (R136). -/
  | popAll : ReachesWrite s .popAllButOnePlusOne 0 (s.ps.seg.get 0 + 1)
  /-- SEG[0] and a field plus 1 (R137 to R139). -/
  | popAllField (i : Instr) (q : Request) (d : Int) (r : Reader)
      (form : (i, q) ∈ [(Instr.popAllButOnePlusN, Request.ubvfp), (.popAllButOnePlusNPack3Bits, .bits 3),
        (.popAllButOnePlusNPack6Bits, .bits 6)])
      (read : s.rd.request q = some (d, r)) :
      ReachesWrite s i 0 (s.ps.seg.get 0 + (d + 1))
  /-- The new top and 1, after a counted pop (R140). -/
  | popN (n : Int) (r : Reader) (count : s.rd.request .ubvfp = some (n, r)) (fits : n.toNat ≤ s.ps.cur) :
      ReachesWrite s .popNPlusOne (s.ps.cur - n.toNat) (s.ps.seg.get (s.ps.cur - n.toNat) + 1)
  /-- The new top and a signed field, after a counted pop (R141). -/
  | popNField (n x : Int) (r r' : Reader) (count : s.rd.request .ubvfp = some (n, r)) (fits : n.toNat ≤ s.ps.cur)
      (read : r.request .varS32 = some (x, r')) :
      ReachesWrite s .popNPlusN (s.ps.cur - n.toNat) (s.ps.seg.get (s.ps.cur - n.toNat) + x)
  /-- The level below the top and 1 (R145). -/
  | penultimate (below : 1 ≤ s.ps.cur) :
      ReachesWrite s .nonTopoPenultimatePlusOne (s.ps.cur - 1) (s.ps.seg.get (s.ps.cur - 1) + 1)
  /-- A guarded level and its delta (R143). -/
  | guarded (i : Instr) (q : Request) (bias : Int) (ps : PathState) (r : Reader) (j : Nat) (rj rg rx : Reader) (x : Int)
      (loop : ReachesGuards s i q bias ps r) (level : LoopReaches ps q bias r j rj)
      (guard : rj.request .bool = some (1, rg)) (read : rg.request q = some (x, rx)) :
      ReachesWrite s i j (ps.seg.get j + (x + bias))

/-- The first `k` micro-steps of `ms` from `c`, where none of them raises a fault: what they leave, and the micro-steps
still to run. -/
def microTicks : Nat → List Micro → OpCtx → Option (OpCtx × List Micro)
  | 0, ms, c => some (c, ms)
  | _ + 1, [], _ => none
  | k + 1, m :: ms, c =>
    match microTick m ms c with
    | .error _ => none
    | .ok (c', left) => microTicks k left c'

end Sys2Proof.Machine
end

