-- ==== Sys2Proof/Certificates/Slice0/Obligations.lean ====
section
/-! DEFINITION. The statements for the provers. Each docstring names the rules of spec/ that it formalises. Concrete codes
and field bits mean the reference instantiation (30_encoding.md R63, 20_memory.md R44 to R46; log entries 1 to 3); a
statement that reads fields by a reader's requests holds for every BR that the model admits (00_scope.md R10; log entry 3), and every
statement for every SEG_MIN and SEG_MAX that it admits, unless it says otherwise (R9; log entry 28). -/

open Sys2Proof Sys2Proof.Machine

/-! ### Encoding -/

/-- A few codes written out bit by bit from 30_encoding.md R63, at least one of each family, decode to their
operations. -/
def Obligations.SampleCodesDecode : Prop :=
  decode [false] = .ok (.plusOne, []) ∧
  decode [true, true, false, true, false, true] = .ok (.plusN, [true]) ∧
  decode [true, true, false, true, true, false, false, false, true, true, false, true] =
    .ok (.pushOneLeftDeltaZeroRightZero, []) ∧
  decode [true, true, true, true, false] = .ok (.pushOneLeftDeltaNRightNonZeroPack6Bits, [false]) ∧
  decode [true, true, false, true, true, false, false, false, true, true, false, false, true, false, false, true, true] =
    .ok (.pushTwoPack5LeftDeltaZero, []) ∧
  decode [true, true, false, false, true, true] = .ok (.popAllButOnePlusOne, []) ∧
  decode [true, true, false, true, true, false, true, true, true] = .ok (.nonTopoPenultimatePlusOne, []) ∧
  decode [true, false] = .ok (.fieldPathEncodeFinish, []) ∧
  decode [true] = .error .malformedStream ∧
  decode [] = .error .malformedStream

/-- R57 to R59, R61, R64: the construction with the reference parameters makes the reference TREE from the reference
weights: 79 nodes, leaves 0 to 39 with their own index, root 78; and the code of each operation is its leaf's path. -/
def Obligations.TreeAndCodesComeFromTheWeights : Prop :=
  buildTree referenceParams referenceWeights = referenceTree ∧
  referenceTree.length = 79 ∧
  referenceRom.root = 78 ∧
  (∀ op, op < 40 → referenceTree[op]? = some (.leaf op)) ∧
  ∀ op i, referenceRom.kindOf op = some i → pathTo referenceTree op 40 referenceRom.root = some (encode i)

/-- R74: with the other tie-break the codes of exactly these fifteen operations change, and PopOnePlusOne's becomes
1101100011001011. -/
def Obligations.OtherTieBreakChangesFifteenCodes : Prop :=
  let other := buildTree ⟨1, .smallerIdFirst, .firstIsChild0⟩ referenceWeights
  (∀ op i, referenceRom.kindOf op = some i →
    (pathTo other op 40 78 ≠ some (encode i) ↔ op ∈ [6, 13, 14, 15, 16, 18, 20, 21, 22, 23, 24, 27, 28, 34, 35])) ∧
  pathTo other 27 40 78 = some (code 16 0b1101100011001011)

/-- R61, R79: a bit string decodes to an operation exactly when it starts with that operation's code, and what is left is
what follows the code. -/
def Obligations.DecodeReadsExactlyTheCode : Prop :=
  ∀ (i : Instr) (bs rest : Bits), decode bs = .ok (i, rest) ↔ bs = encode i ++ rest

/-- R62: no code is a prefix of another, any 17 bits start with exactly one code, and the Kraft sum is 1. -/
def Obligations.CodesArePrefixFreeAndComplete : Prop :=
  (∀ i j : Instr, encode i <+: encode j → i = j) ∧
  (∀ bs : Bits, 17 ≤ bs.length → ∃! i : Instr, encode i <+: bs) ∧
  (referenceKinds.map fun i => 2 ^ (17 - (encode i).length)).sum = 2 ^ 17

/-- R72: a 17-bit window whose first bit read is bit 16 selects the operation whose match it has under its mask. -/
def Obligations.WindowSelectsByMaskAndMatch : Prop :=
  ∀ (i : Instr) (w : Nat), w < 2 ^ 17 →
    let length := (encode i).length
    let mask := (1 <<< length - 1) <<< (17 - length)
    let wanted := ((encode i).foldl (fun acc b => 2 * acc + b.toNat) 0) <<< (17 - length)
    (decodeTableWord 24 w = some i ↔ w &&& mask = wanted)

/-- R40 to R46, R66: every value that a field's kind admits, encoded in the reference layouts and followed by any bits, is
read back by the reference BR, and exactly its own bits are consumed. -/
def Obligations.FieldsRoundTrip : Prop :=
  ∀ (q : Request) (v : Int) (rest : Bits), fieldAdmits q v = true →
    readRequest .reference q (encodeRequest q v ++ rest) = some (v, rest)

/-- R65, R68, R75: an encoded well-formed line decodes to itself, at every cursor, with every operand value its fields
admit, whatever follows it; a pop count above the cursor included, whose guards are none (log entry 26). -/
def Obligations.LinesRoundTrip : Prop :=
  ∀ (l : Line) (cur : Nat) (rest : Bits), l.wf cur = true →
    decodeLine .reference cur (encodeLine l ++ rest) = .ok (l, rest)

/-! ### The reader -/

/-- R30, R49, R52, R10: whatever BR is, a request leaves STREAM and BR alone and moves POS past exactly the bits that
decide its value, never backwards: one bit for BIT and BOOL, n for BITS(n), and under the reference BR at least one for
the others. -/
def Obligations.RequestsConsumeExactlyTheirBits : Prop :=
  ∀ (q : Request) (r r' : Reader) (v : Int), r.request q = some (v, r') →
    r'.stream = r.stream ∧ r'.br = r.br ∧
    ∃ k, r'.pos = r.pos + k ∧ k ≤ r.rest.length ∧
      (q = .bit ∨ q = .bool → k = 1) ∧ (∀ n, q = .bits n → k = n) ∧
      (r.br = .reference → q = .ubv ∨ q = .ubvfp ∨ q = .varS32 → 0 < k) ∧
      ∀ other : Reader, other.br = r.br → other.rest.take k = r.rest.take k →
        other.request q = some (v, other.advance k)

/-- R40 to R43, R66: the value ranges of the requests, whatever BR is (outside the reference layouts: log entry 3). -/
def Obligations.RequestValuesAreInRange : Prop :=
  ∀ (q : Request) (r r' : Reader) (v : Int), r.request q = some (v, r') →
    match q with
    | .bit => 0 ≤ v ∧ v < 2
    | .bool => 0 ≤ v ∧ v < 2
    | .bits n => 0 ≤ v ∧ v < 2 ^ n
    | .ubv => 0 ≤ v ∧ v < 2 ^ 32
    | .ubvfp => 0 ≤ v ∧ v < 2 ^ 31
    | .varS32 => -2 ^ 31 ≤ v ∧ v < 2 ^ 31

/-! ### Reset, START and waiting -/

/-- R170: under RST every state element takes its reset value whatever the ESTATE; the ROMs, the reader (unless the host
itself moves it), the trace and TRACE_EN stay. OPIDX is unspecified there and left out; the model counts the draw of its
free value (log entry 6). -/
def Obligations.RstGivesTheResetState : Prop :=
  ∀ s : State, s.pins.rst = true →
    ∃ (o : Nat) (t : State), step s = .next t ∧ tick s = .next t ∧
      t = { s with
            ps := ⟨⟨-1, 0, 0, 0, 0, 0⟩, 0, false, s.ps.range⟩
            node := 2 * s.rom.ops.length - 2
            opidx := o
            mstep := none
            estate := .idle
            fkind := .none
            out := []
            rd := s.rd.placed s.pins.load
            draws := s.draws + 1
            host := s.host.tail } ∧
      t.status = 0 ∧ t.outcount = 0 ∧ t.rdReqValid = false ∧ t.snapValid = false

/-- R170: the state after power-on has the reset table's values (the reference ROMs' root is node 78). -/
def Obligations.PowerOnStateHasTheResetValues : Prop :=
  State.reset.ps = ⟨⟨-1, 0, 0, 0, 0, 0⟩, 0, false, .reference⟩ ∧ State.reset.node = 78 ∧ State.reset.mstep = none ∧
  State.reset.estate = .idle ∧ State.reset.fkind = .none ∧ State.reset.status = 0 ∧ State.reset.out = [] ∧
  State.reset.outcount = 0 ∧ State.reset.rdReqValid = false ∧ State.reset.snapValid = false

/-- R77: START, accepted in IDLE, DONE and FAULT, loads the initial path state, empties OUT, clears FKIND, puts NODE at
the root and enters RUN; POS is not changed unless the host positions the reader in the same sample. -/
def Obligations.StartBeginsADecode : Prop :=
  ∀ s : State, s.pins.rst = false → s.pins.start = true →
    s.estate = .idle ∨ s.estate = .done ∨ s.estate = .fault →
    step s = .next { s with
      ps := ⟨⟨-1, 0, 0, 0, 0, 0⟩, 0, false, s.ps.range⟩
      out := []
      fkind := .none
      node := 2 * s.rom.ops.length - 2
      mstep := none
      estate := .run .traverse
      rd := s.rd.placed s.pins.load
      host := s.host.tail }

/-- R90, R178: while ESTATE = RUN, START and a host's move on the reader have no effect. -/
def Obligations.RunIgnoresStartAndHostMoves : Prop :=
  ∀ (s : State) (p : Pins) (start : Bool) (load : Option Chunk), s.busy = true → p.rst = false →
    stepWith { p with start := start, load := load } s = stepWith p s ∧
    tickWith { p with start := start, load := load } s = tickWith p s

/-- R96, R168: in IDLE, DONE and FAULT, without RST and START, the block makes no step, at either granularity: nothing
changes but that the sample is taken and that the reader stands where the host puts it, if it does (R174). -/
def Obligations.WaitingStatesKeepTheirState : Prop :=
  ∀ s : State, s.pins.rst = false → s.pins.start = false →
    s.estate = .idle ∨ s.estate = .done ∨ s.estate = .fault →
    step s = .next { s with rd := s.rd.placed s.pins.load, host := s.host.tail } ∧
    tick s = .next { s with rd := s.rd.placed s.pins.load, host := s.host.tail }

/-- R84, R89: in EMIT the snapshot SEG[0..CUR] is offered; with SNAP_READY it is appended to OUT and the phase returns to
TRAVERSE; without, the block holds and reads no bits; and with a consumer that never accepts the decode never ends. -/
def Obligations.EmitAppendsWhenAccepted : Prop :=
  ∀ s : State, s.estate = .run .emit →
    s.snapValid = true ∧
    (s.pins.rst = false → s.pins.snapReady = true →
      step s = .next { s with
        out := s.out ++ [(List.range (s.ps.cur + 1)).map s.ps.seg.get]
        estate := .run .traverse
        host := s.host.tail }) ∧
    (s.pins.rst = false → s.pins.snapReady = false → step s = .next { s with host := s.host.tail }) ∧
    ((∀ p ∈ s.hostRest :: s.host, p.rst = false ∧ p.snapReady = false) →
      ∀ k, s.after k = some { s with host := s.host.drop k })

/-- R163: the request codes and widths; a code bit is requested at an internal node and nothing is requested outside
TRAVERSE and EXECUTE; a request stays offered, unchanged, until it is answered; and with a reader that never answers it
stays for ever (U19). An answer with no offered request is ignored: a tick does the same with it and without it, and so
does a step outside TRAVERSE and EXECUTE; in them a step that does not start at a request does the same without an
answer, up to the next request (where there is none, the same altogether), and with one goes on from that request. -/
def Obligations.RequestsStayOffered : Prop :=
  (requestKind .bit = 0 ∧ (∀ n, requestKind (.bits n) = 1) ∧ requestKind .bool = 2 ∧
    requestKind .ubv = 3 ∧ requestKind .ubvfp = 4 ∧ requestKind .varS32 = 5) ∧
  ((∀ n, n ≤ 32 → (requestWidth (.bits n)).toNat = n) ∧ requestWidth .bit = 0 ∧ requestWidth .bool = 0 ∧
    requestWidth .ubv = 0 ∧ requestWidth .ubvfp = 0 ∧ requestWidth .varS32 = 0) ∧
  (∀ s : State, s.rdReqValid = true → s.estate = .run .traverse ∨ s.estate = .run .execute) ∧
  (∀ (s : State) (c0 c1 : Nat), s.estate = .run .traverse → s.rom.tree[s.node]? = some (.internal c0 c1) →
    s.rdReq = some .bit) ∧
  (∀ s : State, s.rdReqValid = true → s.ps.fin = false → s.pins.rst = false → s.pins.rdValid = false →
    tick s = .next { s with host := s.host.tail } ∧ step s = .next { s with host := s.host.tail }) ∧
  (∀ s : State, s.rdReqValid = true → s.ps.fin = false →
    (∀ p ∈ s.hostRest :: s.host, p.rst = false ∧ p.rdValid = false) →
    ∀ k, s.after k = some { s with host := s.host.drop k }) ∧
  (∀ (s : State) (p : Pins) (b : Bool), s.rdReq = none → tickWith { p with rdValid := b } s = tickWith p s) ∧
  (∀ (s : State) (p : Pins) (b : Bool), s.estate ≠ .run .traverse → s.estate ≠ .run .execute →
    stepWith { p with rdValid := b } s = stepWith p s) ∧
  (∀ (s t : State) (p : Pins), s.estate = .run .traverse ∨ s.estate = .run .execute → s.rdReq = none →
    stepWith { p with rdValid := false } s = .next t →
    (t.rdReq = none → stepWith { p with rdValid := true } s = .next t) ∧
    (t.rdReq ≠ none → stepWith { p with rdValid := true } s = stepWith { p with rdValid := true } t))

/-- R31, R148, R163, R24: the STATUS word's fields, at most one of BUSY, DONE and FAULTED, none in IDLE, and the codes of
FKIND; OUTCOUNT (below what 32 bits can count); and the snapshot port: SNAP_VALID in EMIT, SNAP_DEPTH, and SNAP_SEG with 0
from SNAP_DEPTH on. -/
def Obligations.PortsShowTheControlState : Prop :=
  (FKind.none.code = 0 ∧ FKind.malformedStream.code = 1 ∧ FKind.pathOverflow.code = 2 ∧
    FKind.pathUnderflow.code = 3 ∧ FKind.unknownSymbol.code = 4 ∧ FKind.segmentRange.code = 5) ∧
  ∀ s : State,
    s.status.getLsbD 0 = s.busy ∧ s.status.getLsbD 1 = s.doneBit ∧ s.status.getLsbD 2 = s.faulted ∧
    s.status.extractLsb' 3 3 = s.fkind.code ∧ s.status.extractLsb' 6 26 = 0 ∧
    (s.busy = true ↔ ∃ ph, s.estate = .run ph) ∧ (s.doneBit = true ↔ s.estate = .done) ∧
    (s.faulted = true ↔ s.estate = .fault) ∧
    (s.out.length < 2 ^ 32 → s.outcount.toNat = s.out.length) ∧
    (s.snapValid = true ↔ s.estate = .run .emit) ∧
    (s.ps.cur ≤ 5 → s.snapDepth.toNat = s.ps.cur + 1) ∧
    ∀ i, (i ≤ s.ps.cur → s.snapSeg i = s.ps.seg.get i) ∧ (s.ps.cur < i → s.snapSeg i = 0)

/-! ### One step -/

/-- R78 to R82: where the bits at POS decode to an operation, a step from TRAVERSE at the root sets OPIDX to its index,
puts NODE at the root, moves POS past the code, and is `exec` of the operation in that state. -/
def Obligations.StepRunsTheDecodedOperation : Prop :=
  ∀ (s : State) (i : Instr) (rest : Bits),
    s.estate = .run .traverse → s.node = s.rom.root → s.ps.fin = false →
    s.pins.rst = false → s.pins.rdValid = true →
    decodeIn s.rom s.rd.rest = .ok (i, rest) →
    ∃ op, s.rom.kindOf op = some i ∧
      step s = exec i { s with
        opidx := op
        node := s.rom.root
        mstep := none
        estate := .run .execute
        rd := { s.rd with pos := s.rd.pos + (s.rd.rest.length - rest.length) }
        host := s.host.tail }

/-- Log entry 12: `withFetchWord` places an operation that the very next step runs: its code is consumed and the rest of
the placed bits is what its operand fields read. -/
def Obligations.PlacedWordIsTheNextOperation : Prop :=
  ∀ (s : State) (nbits w : Nat) (i : Instr), s.rom = referenceRom → decodeTableWord nbits w = some i →
    ∃ op, referenceRom.kindOf op = some i ∧
      step (s.withFetchWord nbits w) = exec i { s.withFetchWord nbits w with
        opidx := op
        estate := .run .execute
        rd := ⟨windowBits nbits w, (encode i).length, s.rd.br⟩ }

/-- R71, R81, R150, R153: a stream that ends inside a code, an empty one too, raises MalformedStream; a leaf whose index
has no operation raises UnknownSymbol with that index, no operation runs and no operand bit is read. The OPIDX that the
FAULT event of the first shows, that of the operation before, is the model's reading (log entry 14). -/
def Obligations.TraversalFaultsAreTaken : Prop :=
  ∀ s : State, s.estate = .run .traverse → s.node = s.rom.root → s.ps.fin = false →
    s.pins.rst = false → s.pins.rdValid = true →
    (decodeIn s.rom s.rd.rest = .error .malformedStream →
      step s = .next ({ s with host := s.host.tail }.taking .malformedStream)) ∧
    (∀ op, decodeIn s.rom s.rd.rest = .error (.unknownSymbol op) →
      step s = .next ({ s with host := s.host.tail, opidx := op }.taking (.unknownSymbol op)))

/-- R98: from START, a stream that holds exactly the terminal operation's code ends in DONE with OUT empty and POS two
bits on. -/
def Obligations.TerminalCodeAloneDecodesToNothing : Prop :=
  ∀ s : State, s.QuietHost → s.rom = referenceRom → s.rd.rest = [true, false] →
    ∃ t, step (startDecode s) = .next t ∧ t.estate = .done ∧ t.fkind = .none ∧ t.out = [] ∧
      t.rd.pos = s.rd.pos + 2

/-- R93: the two granularities agree: while no RST is asserted and the reader answers, a tick inside an operation step
leads to the same outcome as the step itself. -/
def Obligations.TicksMakeUpTheStep : Prop :=
  ∀ s t : State, s.QuietHost → s.estate = .run .traverse ∨ s.estate = .run .execute → tick s = .next t →
    (t.estate = .run .traverse ∨ t.estate = .run .execute → step t = step s) ∧
    (¬(t.estate = .run .traverse ∨ t.estate = .run .execute) → step s = .next t)

/-! ### Invariants -/

/-- The power-on state has the invariant (its ROMs: R173; its values: R170). -/
def Obligations.PowerOnStateHasTheInvariant : Prop := State.reset.Inv

/-- R18, R20, R22, R24, R25, R27, R29, R83: every step keeps the invariant. -/
def Obligations.StepKeepsTheInvariant : Prop :=
  ∀ s t : State, s.Inv → step s = .next t → t.Inv

/-- R22: "Z holds after every micro-step that does not fault", and the rest of the invariant with it: every tick keeps
it. -/
def Obligations.TickKeepsTheInvariant : Prop :=
  ∀ s t : State, s.Inv → tick s = .next t → t.Inv

/-- R149, R153, R175: from a state with the invariant no step stops (the block's faults are taken as next states), and no
stream makes a step raise UnknownSymbol, whatever the reader's BR is. -/
def Obligations.InvariantStatesStepWithoutUnknownSymbol : Prop :=
  ∀ s : State, s.Inv → ∃ t, step s = .next t ∧ (t.fkind = .unknownSymbol → s.fkind = .unknownSymbol)

/-- R9, R10, R33, R52: no step writes TREE, OPROM, STREAM, BR, SEG_MIN or SEG_MAX: only the host hands the reader another
stream, and only while the block is not busy (R178) or under RST, which ends the decode in the same step (the model's
choice, log entry 10). -/
def Obligations.RomsAndStreamAreNeverWritten : Prop :=
  ∀ s t : State, step s = .next t →
    t.rom = s.rom ∧ t.traceEn = s.traceEn ∧ t.rd.br = s.rd.br ∧ t.ps.range = s.ps.range ∧
    (t.rd.stream = s.rd.stream ∨ ((s.pins.rst = true ∨ s.busy = false) ∧ s.pins.load.map (·.stream) = some t.rd.stream))

/-- R55, R84, R92: a step leaves OUT as it is, or appends the one snapshot that EMIT offers, or, under START or RST,
empties it. -/
def Obligations.OutGrowsBySnapshotsInOrder : Prop :=
  ∀ s t : State, step s = .next t →
    t.out = s.out ∨
    (s.estate = .run .emit ∧ s.pins.snapReady = true ∧ t.out = s.out ++ [s.ps.snapshot]) ∨
    (t.out = [] ∧ (s.pins.rst = true ∨ (s.pins.start = true ∧ s.busy = false)))

/-! ### Whole decodes -/

/-- R94: from START with a quiet host, the steps compute `decodeFieldPaths`: DONE with its OUT and POS, or FAULT with its
fault kind and the snapshots before it. -/
def Obligations.StepsComputeTheWholeDecode : Prop :=
  ∀ s : State, s.QuietHost →
    (∀ out pos, decodeFieldPaths s.rom s.ps.range s.rd = .ok out pos →
      ∃ k t, (startDecode s).after k = some t ∧
        t.estate = .done ∧ t.fkind = .none ∧ t.out = out ∧ t.rd.pos = pos) ∧
    (∀ f out, decodeFieldPaths s.rom s.ps.range s.rd = .err f out →
      ∃ k t, (startDecode s).after k = some t ∧
        t.estate = .fault ∧ t.fkind = f.kind ∧ t.out = out)

/-- R95, R183: with a host that only answers and accepts, every decode ends, within two steps for each bit left and
three more. -/
def Obligations.EveryDecodeEnds : Prop :=
  ∀ s : State, s.Inv → s.QuietHost → s.busy = true →
    ∃ k t, k ≤ 2 * s.rd.rest.length + 3 ∧ s.after k = some t ∧
      (t.estate = .done ∨ t.estate = .fault)

/-- R164, R171, R12: a decode does not depend on the trace port, on earlier faults or on a stale OPIDX: two states in the
same place of the same decode step to states that look the same from outside, and, short of a fault, are in the same
place again. -/
def Obligations.TraceAndHistoryDoNotInfluenceADecode : Prop :=
  ∀ s t s' : State, SameDecode s t → step s = .next s' →
    ∃ t', step t = .next t' ∧ SameOutside s' t' ∧ (s'.estate ≠ .fault → SameDecode s' t')

/-- R171: every decode begins alike: START from any two waiting states with the same ROMs, SEG_MIN, SEG_MAX, reader and host
leads to the same place. -/
def Obligations.StartForgetsEarlierDecodes : Prop :=
  ∀ s t s' : State, s.rom = t.rom → s.ps.range = t.ps.range → s.rd = t.rd → s.host = t.host → s.hostRest = t.hostRest →
    s.busy = false → t.busy = false → s.pins.rst = false → s.pins.start = true → step s = .next s' →
    ∃ t', step t = .next t' ∧ SameDecode s' t'

/-! ### Operations in general -/

/-- R82, R83, R84, R91, R149, R157, R158: what any operation does from any state: it ends with its snapshot offered, or
done, or with a fault taken, and outside the path state, POS, MSTEP, ESTATE and the trace nothing else changes, but for
FKIND and the values that a fault leaves unspecified. -/
def Obligations.OperationsKeepTheirFrame : Prop :=
  ∀ (i : Instr) (s : State), ∃ t, exec i s = .next t ∧
    t.rom = s.rom ∧ t.ps.range = s.ps.range ∧ t.rd.stream = s.rd.stream ∧ t.rd.br = s.rd.br ∧ t.out = s.out ∧
    t.host = s.host ∧ t.hostRest = s.hostRest ∧ t.traceEn = s.traceEn ∧
    s.trace <+: t.trace ∧
    ((t.estate = .run .emit ∧ t.ps.fin = false ∨ t.estate = .done ∧ t.ps.fin = true) ∧
        t.node = s.node ∧ t.opidx = s.opidx ∧ t.mstep = none ∧ t.fkind = s.fkind ∧ t.draws = s.draws ∧
        s.rd.pos ≤ t.rd.pos ∨
      t.estate = .fault ∧ ∃ f : FaultInfo, t = s.faultedBy f)

/-- R20, R21, R108, R117, R133, R143: which operations move CUR, and by how much, and that only FieldPathEncodeFinish
sets FIN. -/
def Obligations.OnlyPushesAndPopsMoveTheCursor : Prop :=
  ∀ (i : Instr) (s t : State), exec i s = .next t → t.estate ≠ .fault →
    t.ps.fin = (s.ps.fin || decide (i = .fieldPathEncodeFinish)) ∧
    (i ∈ [.plusOne, .plusTwo, .plusThree, .plusFour, .plusN, .nonTopoComplex, .nonTopoPenultimatePlusOne,
        .nonTopoComplexPack4Bits, .fieldPathEncodeFinish] → t.ps.cur = s.ps.cur) ∧
    (i ∈ [.pushOneLeftDeltaZeroRightZero, .pushOneLeftDeltaZeroRightNonZero, .pushOneLeftDeltaOneRightZero,
        .pushOneLeftDeltaOneRightNonZero, .pushOneLeftDeltaNRightZero, .pushOneLeftDeltaNRightNonZero,
        .pushOneLeftDeltaNRightNonZeroPack6Bits, .pushOneLeftDeltaNRightNonZeroPack8Bits] →
      t.ps.cur = s.ps.cur + 1) ∧
    (i ∈ [.pushTwoLeftDeltaZero, .pushTwoPack5LeftDeltaZero, .pushTwoLeftDeltaOne, .pushTwoPack5LeftDeltaOne,
        .pushTwoLeftDeltaN, .pushTwoPack5LeftDeltaN] → t.ps.cur = s.ps.cur + 2) ∧
    (i ∈ [.pushThreeLeftDeltaZero, .pushThreePack5LeftDeltaZero, .pushThreeLeftDeltaOne, .pushThreePack5LeftDeltaOne,
        .pushThreeLeftDeltaN, .pushThreePack5LeftDeltaN] → t.ps.cur = s.ps.cur + 3) ∧
    (i ∈ [.pushN, .pushNAndNonTopological] → s.ps.cur ≤ t.ps.cur) ∧
    (i ∈ [.popOnePlusOne, .popOnePlusN] → t.ps.cur + 1 = s.ps.cur) ∧
    (i ∈ [.popAllButOnePlusOne, .popAllButOnePlusN, .popAllButOnePlusNPack3Bits, .popAllButOnePlusNPack6Bits] →
      t.ps.cur = 0) ∧
    (i ∈ [.popNPlusOne, .popNPlusN, .popNAndNonTopographical] → t.ps.cur ≤ s.ps.cur)

/-- R155: an operation that faults raises one of the fault kinds that the table lists for it, and FieldPathEncodeFinish
raises none. The table is that of the stated SEG_MAX, or a greater one, so that a pushed field is in range as it is read. -/
def Obligations.OperationsRaiseOnlyTheirFaults : Prop :=
  ∀ (i : Instr) (s t : State), s.ps.InRange 2147483647 → exec i s = .next t → t.estate = .fault → t.fkind ∈ faultsOf i

/-! ### Increment-top operations -/

/-- R102 to R105: each fixed increment, its index and code, what it adds to the top, and its one fault. -/
def Obligations.FixedIncrementsAddTheirConstant : Prop :=
  ∀ (s : State) (i : Instr) (idx : Nat) (bits : Bits) (k : Int),
    (i, idx, bits, k) ∈ [(Instr.plusOne, 0, [false], 1), (Instr.plusTwo, 1, [true, true, true, false], 2),
      (Instr.plusThree, 2, [true, true, false, false, true, false], 3),
      (Instr.plusFour, 3, [true, true, false, true, true, true, true, true], 4)] →
    s.ps.fin = false →
    ListedAs i idx bits ∧
    (s.ps.InRange (s.ps.seg.get s.ps.cur + k) → exec i s = .next (s.completed (s.ps.added s.ps.cur k) s.rd)) ∧
    (¬s.ps.InRange (s.ps.seg.get s.ps.cur + k) →
      exec i s = .next (s.faultedBy (.segmentRange s.ps.cur (s.ps.seg.get s.ps.cur + k))))

/-- R106: PlusN adds its field plus 5 to the top; its index, its code and its faults. -/
def Obligations.PlusNAddsItsFieldPlusFive : Prop :=
  ListedAs .plusN 4 [true, true, false, true, false] ∧
  ∀ s : State, s.ps.fin = false →
    (∀ d r1, s.rd.request .ubvfp = some (d, r1) →
      (s.ps.InRange (s.ps.seg.get s.ps.cur + (d + 5)) →
        exec .plusN s = .next (s.completed (s.ps.added s.ps.cur (d + 5)) r1)) ∧
      (¬s.ps.InRange (s.ps.seg.get s.ps.cur + (d + 5)) →
        exec .plusN s = .next (s.faultedBy (.segmentRange s.ps.cur (s.ps.seg.get s.ps.cur + (d + 5)))))) ∧
    (s.rd.request .ubvfp = none → exec .plusN s = .next (s.faultedBy .malformedStream))

/-! ### Single-push operations -/

/-- R109, R110: with a level to spare, one more level is active and holds 0, or the field read, which the stated SEG_MAX
always admits and a smaller one may not; at CUR = 5 both raise PathOverflow, the field unread; indices and codes. -/
def Obligations.PushOneLeftDeltaZeroPushesOneLevel : Prop :=
  ListedAs .pushOneLeftDeltaZeroRightZero 5
    [true, true, false, true, true, false, false, false, true, true, false, true] ∧
  ListedAs .pushOneLeftDeltaZeroRightNonZero 6
    [true, true, false, true, true, false, false, false, true, true, false, false, true, false, true] ∧
  ∀ s : State, s.ps.fin = false →
    (s.ps.cur ≤ 4 → exec .pushOneLeftDeltaZeroRightZero s = .next (s.completed (s.ps.pushed 0) s.rd)) ∧
    (s.ps.cur ≤ 4 → ∀ v r1, s.rd.request .ubvfp = some (v, r1) →
      (s.ps.range = .reference → s.ps.InRange v) ∧
      (s.ps.InRange v → exec .pushOneLeftDeltaZeroRightNonZero s = .next (s.completed (s.ps.pushed v) r1)) ∧
      (¬s.ps.InRange v →
        exec .pushOneLeftDeltaZeroRightNonZero s = .next (s.faultedBy (.segmentRange (s.ps.cur + 1) v)))) ∧
    (s.ps.cur ≤ 4 → s.rd.request .ubvfp = none →
      exec .pushOneLeftDeltaZeroRightNonZero s = .next (s.faultedBy .malformedStream)) ∧
    (s.ps.cur = 5 → exec .pushOneLeftDeltaZeroRightZero s = .next (s.faultedBy (.pathOverflow 5)) ∧
      exec .pushOneLeftDeltaZeroRightNonZero s = .next (s.faultedBy (.pathOverflow 5)))

/-- R111, R112: the old top goes up by one, then one level is pushed, with 0 or the field read; SegmentRange on the
increment, and on the field where SEG_MAX is smaller than stated; PathOverflow at CUR = 5 after the increment, the field
unread; indices and codes. -/
def Obligations.PushOneLeftDeltaOneAddsThenPushes : Prop :=
  ListedAs .pushOneLeftDeltaOneRightZero 7 [true, true, false, true, true, false, true, false] ∧
  ListedAs .pushOneLeftDeltaOneRightNonZero 8 [true, true, false, false, false] ∧
  ∀ s : State, s.ps.fin = false →
    (s.ps.InRange (s.ps.seg.get s.ps.cur + 1) → s.ps.cur ≤ 4 →
      exec .pushOneLeftDeltaOneRightZero s = .next (s.completed ((s.ps.added s.ps.cur 1).pushed 0) s.rd) ∧
      (∀ v r1, s.rd.request .ubvfp = some (v, r1) →
        (s.ps.range = .reference → s.ps.InRange v) ∧
        (s.ps.InRange v →
          exec .pushOneLeftDeltaOneRightNonZero s = .next (s.completed ((s.ps.added s.ps.cur 1).pushed v) r1)) ∧
        (¬s.ps.InRange v →
          exec .pushOneLeftDeltaOneRightNonZero s = .next (s.faultedBy (.segmentRange (s.ps.cur + 1) v)))) ∧
      (s.rd.request .ubvfp = none →
        exec .pushOneLeftDeltaOneRightNonZero s = .next (s.faultedBy .malformedStream))) ∧
    (s.ps.InRange (s.ps.seg.get s.ps.cur + 1) → s.ps.cur = 5 →
      exec .pushOneLeftDeltaOneRightZero s = .next (s.faultedBy (.pathOverflow 5)) ∧
      exec .pushOneLeftDeltaOneRightNonZero s = .next (s.faultedBy (.pathOverflow 5))) ∧
    (¬s.ps.InRange (s.ps.seg.get s.ps.cur + 1) →
      exec .pushOneLeftDeltaOneRightZero s =
        .next (s.faultedBy (.segmentRange s.ps.cur (s.ps.seg.get s.ps.cur + 1))) ∧
      exec .pushOneLeftDeltaOneRightNonZero s =
        .next (s.faultedBy (.segmentRange s.ps.cur (s.ps.seg.get s.ps.cur + 1))))

/-- R113, R114: the old top goes up by the field (+0, or +2 with a value read after it), then one level is pushed with 0,
or with the second field plus 1. -/
def Obligations.PushOneLeftDeltaNAddsThenPushes : Prop :=
  ∀ (s : State) (d : Int) (r1 : Reader), s.ps.fin = false → s.ps.cur ≤ 4 → s.rd.request .ubvfp = some (d, r1) →
    (s.ps.InRange (s.ps.seg.get s.ps.cur + d) →
      exec .pushOneLeftDeltaNRightZero s = .next (s.completed ((s.ps.added s.ps.cur d).pushed 0) r1)) ∧
    ∀ v r2, r1.request .ubvfp = some (v, r2) → s.ps.InRange (s.ps.seg.get s.ps.cur + (d + 2)) → s.ps.InRange (v + 1) →
      exec .pushOneLeftDeltaNRightNonZero s =
        .next (s.completed ((s.ps.added s.ps.cur (d + 2)).pushed (v + 1)) r2)

/-- R115, R116: the packed pushes: two 3-bit or two 4-bit fields, +2 on the increment and +1 on the value. -/
def Obligations.PackedPushesAddThenPush : Prop :=
  ∀ (s : State) (i : Instr) (n : Nat) (d v : Int) (r1 r2 : Reader),
    (i, n) ∈ [(Instr.pushOneLeftDeltaNRightNonZeroPack6Bits, 3), (Instr.pushOneLeftDeltaNRightNonZeroPack8Bits, 4)] →
    s.ps.fin = false → s.ps.cur ≤ 4 →
    s.rd.request (.bits n) = some (d, r1) → r1.request (.bits n) = some (v, r2) →
    s.ps.InRange (s.ps.seg.get s.ps.cur + (d + 2)) → s.ps.InRange (v + 1) →
    exec i s = .next (s.completed ((s.ps.added s.ps.cur (d + 2)).pushed (v + 1)) r2)

/-- R107, R109 to R116, R151: each single push at CUR = 5 raises PathOverflow, after its increment's field was read and
added, and without its value's field being asked for. -/
def Obligations.SinglePushesAtFullDepthOverflow : Prop :=
  ∀ s : State, s.ps.cur = 5 →
    (∀ i ∈ [Instr.pushOneLeftDeltaZeroRightZero, .pushOneLeftDeltaZeroRightNonZero],
      exec i s = .next (s.faultedBy (.pathOverflow 5))) ∧
    (∀ i ∈ [Instr.pushOneLeftDeltaOneRightZero, .pushOneLeftDeltaOneRightNonZero], s.ps.InRange (s.ps.seg.get 5 + 1) →
      exec i s = .next (s.faultedBy (.pathOverflow 5))) ∧
    (∀ i q k, (i, q, k) ∈ [(Instr.pushOneLeftDeltaNRightZero, Request.ubvfp, (0 : Int)),
        (.pushOneLeftDeltaNRightNonZero, .ubvfp, 2), (.pushOneLeftDeltaNRightNonZeroPack6Bits, .bits 3, 2),
        (.pushOneLeftDeltaNRightNonZeroPack8Bits, .bits 4, 2)] →
      ∀ d r1, s.rd.request q = some (d, r1) → s.ps.InRange (s.ps.seg.get 5 + (d + k)) →
        exec i s = .next (s.faultedBy (.pathOverflow 5)))

/-! ### Multi-push operations -/

/-- R118 to R121: two or three values are read and pushed. -/
def Obligations.MultiPushLeftDeltaZeroPushesItsValues : Prop :=
  ∀ (s : State) (i : Instr) (q : Request) (n : Nat) (vs : List Int) (r1 : Reader),
    (i, q, n) ∈ [(Instr.pushTwoLeftDeltaZero, Request.ubvfp, 2), (.pushTwoPack5LeftDeltaZero, .bits 5, 2),
      (.pushThreeLeftDeltaZero, .ubvfp, 3), (.pushThreePack5LeftDeltaZero, .bits 5, 3)] →
    s.ps.fin = false → s.ps.cur + n ≤ 5 → Reader.requests q n s.rd = some (vs, r1) → (∀ v ∈ vs, s.ps.InRange v) →
    exec i s = .next (s.completed (s.ps.pushedAll vs) r1)

/-- R122 to R125: the old top goes up by one, then two or three values are read and pushed. -/
def Obligations.MultiPushLeftDeltaOneAddsThenPushes : Prop :=
  ∀ (s : State) (i : Instr) (q : Request) (n : Nat) (vs : List Int) (r1 : Reader),
    (i, q, n) ∈ [(Instr.pushTwoLeftDeltaOne, Request.ubvfp, 2), (.pushTwoPack5LeftDeltaOne, .bits 5, 2),
      (.pushThreeLeftDeltaOne, .ubvfp, 3), (.pushThreePack5LeftDeltaOne, .bits 5, 3)] →
    s.ps.fin = false → s.ps.cur + n ≤ 5 → s.ps.InRange (s.ps.seg.get s.ps.cur + 1) →
    Reader.requests q n s.rd = some (vs, r1) → (∀ v ∈ vs, s.ps.InRange v) →
    exec i s = .next (s.completed ((s.ps.added s.ps.cur 1).pushedAll vs) r1)

/-- R126 to R129: the old top goes up by a UBV field plus 2, then two or three values are read and pushed. -/
def Obligations.MultiPushLeftDeltaNAddsThenPushes : Prop :=
  ∀ (s : State) (i : Instr) (q : Request) (n : Nat) (d : Int) (vs : List Int) (r1 r2 : Reader),
    (i, q, n) ∈ [(Instr.pushTwoLeftDeltaN, Request.ubvfp, 2), (.pushTwoPack5LeftDeltaN, .bits 5, 2),
      (.pushThreeLeftDeltaN, .ubvfp, 3), (.pushThreePack5LeftDeltaN, .bits 5, 3)] →
    s.ps.fin = false → s.ps.cur + n ≤ 5 → s.rd.request .ubv = some (d, r1) →
    s.ps.InRange (s.ps.seg.get s.ps.cur + (d + 2)) → Reader.requests q n r1 = some (vs, r2) →
    (∀ v ∈ vs, s.ps.InRange v) →
    exec i s = .next (s.completed ((s.ps.added s.ps.cur (d + 2)).pushedAll vs) r2)

/-- R130: PushN reads the count, then the increment, adds it to the old top, then reads and pushes the values; a count of
0 pushes nothing. -/
def Obligations.PushNAddsThenPushesItsCount : Prop :=
  ∀ (s : State) (n d : Int) (vs : List Int) (r1 r2 r3 : Reader),
    s.ps.fin = false → s.rd.request .ubv = some (n, r1) → r1.request .ubv = some (d, r2) →
    s.ps.InRange (s.ps.seg.get s.ps.cur + d) → s.ps.cur + n.toNat ≤ 5 →
    Reader.requests .ubvfp n.toNat r2 = some (vs, r3) → (∀ v ∈ vs, s.ps.InRange v) →
    exec .pushN s = .next (s.completed ((s.ps.added s.ps.cur d).pushedAll vs) r3)

/-- R131: PushNAndNonTopological adds the guarded deltas plus 1 to the active levels, then reads the count and pushes the
values. -/
def Obligations.PushNAndNonTopologicalAdjustsThenPushes : Prop :=
  ∀ (s : State) (gs : List (Option Int)) (n : Int) (vs : List Int) (r1 r2 r3 : Reader),
    s.ps.fin = false → Reader.guards .varS32 (s.ps.cur + 1) s.rd = some (gs, r1) → s.ps.AdjustInRange gs 1 →
    r1.request .ubv = some (n, r2) → s.ps.cur + n.toNat ≤ 5 →
    Reader.requests .ubvfp n.toNat r2 = some (vs, r3) → (∀ v ∈ vs, s.ps.InRange v) →
    exec .pushNAndNonTopological s = .next (s.completed ((s.ps.adjusted gs 1).pushedAll vs) r3)

/-- R107, R117, R151: in every operation that pushes values it reads (R110, R112, R114 to R116, R118 to R131), the pushes
run until one would pass CUR = 5: what stands before the pushes and the values before it have been read by then, and that
push raises PathOverflow without reading its own. -/
def Obligations.PushesOverflowAtTheFirstPushTooMany : Prop :=
  ∀ (s : State) (i : Instr) (q : Request) (n : Nat) (r r1 : Reader) (vs : List Int),
    ReachesPushes s i q n r → s.ps.cur ≤ 5 → 5 < s.ps.cur + n →
    Reader.requests q (5 - s.ps.cur) r = some (vs, r1) → (∀ v ∈ vs, s.ps.InRange v) →
    exec i s = .next (s.faultedBy (.pathOverflow 5))

/-! ### Pop operations -/

/-- R134, R135: one level is left and zeroed, and the new top goes up by 1, or by the field plus 1; at CUR = 0 both raise
PathUnderflow, the field unread; indices, codes and the other faults. -/
def Obligations.PopOnePopsThenAdds : Prop :=
  ListedAs .popOnePlusOne 27
    [true, true, false, true, true, false, false, false, true, true, false, false, false, false, true] ∧
  ListedAs .popOnePlusN 28
    [true, true, false, true, true, false, false, false, true, true, false, false, false, true, true, true] ∧
  ∀ s : State, s.ps.fin = false →
    (s.ps.cur = 0 → exec .popOnePlusOne s = .next (s.faultedBy (.pathUnderflow 0 1)) ∧
      exec .popOnePlusN s = .next (s.faultedBy (.pathUnderflow 0 1))) ∧
    (1 ≤ s.ps.cur →
      let top := s.ps.seg.get (s.ps.cur - 1)
      (s.ps.InRange (top + 1) →
        exec .popOnePlusOne s = .next (s.completed ((s.ps.popped 1).added (s.ps.cur - 1) 1) s.rd)) ∧
      (¬s.ps.InRange (top + 1) →
        exec .popOnePlusOne s = .next (s.faultedBy (.segmentRange (s.ps.cur - 1) (top + 1)))) ∧
      (s.rd.request .ubvfp = none → exec .popOnePlusN s = .next (s.faultedBy .malformedStream)) ∧
      ∀ d r1, s.rd.request .ubvfp = some (d, r1) →
        (s.ps.InRange (top + (d + 1)) →
          exec .popOnePlusN s = .next (s.completed ((s.ps.popped 1).added (s.ps.cur - 1) (d + 1)) r1)) ∧
        (¬s.ps.InRange (top + (d + 1)) →
          exec .popOnePlusN s = .next (s.faultedBy (.segmentRange (s.ps.cur - 1) (top + (d + 1))))))

/-- R136 to R139: all levels but the outermost are left and zeroed, and SEG[0] goes up by 1, or by the field plus 1, CUR = 0
included; never PathUnderflow; indices, codes and faults. -/
def Obligations.PopAllButOnePopsThenAdds : Prop :=
  ListedAs .popAllButOnePlusOne 29 [true, true, false, false, true, true] ∧
  ListedAs .popAllButOnePlusN 30 [true, true, false, true, true, false, false, false, false] ∧
  ListedAs .popAllButOnePlusNPack3Bits 31 [true, true, false, true, true, true, false, true, false] ∧
  ListedAs .popAllButOnePlusNPack6Bits 32 [true, true, false, true, true, true, true, false] ∧
  ∀ s : State, s.ps.fin = false →
    (s.ps.InRange (s.ps.seg.get 0 + 1) →
      exec .popAllButOnePlusOne s = .next (s.completed ((s.ps.popped s.ps.cur).added 0 1) s.rd)) ∧
    (¬s.ps.InRange (s.ps.seg.get 0 + 1) →
      exec .popAllButOnePlusOne s = .next (s.faultedBy (.segmentRange 0 (s.ps.seg.get 0 + 1)))) ∧
    ∀ i q, (i, q) ∈ [(Instr.popAllButOnePlusN, Request.ubvfp), (.popAllButOnePlusNPack3Bits, .bits 3),
        (.popAllButOnePlusNPack6Bits, .bits 6)] →
      (s.rd.request q = none → exec i s = .next (s.faultedBy .malformedStream)) ∧
      ∀ d r1, s.rd.request q = some (d, r1) →
        (s.ps.InRange (s.ps.seg.get 0 + (d + 1)) →
          exec i s = .next (s.completed ((s.ps.popped s.ps.cur).added 0 (d + 1)) r1)) ∧
        (¬s.ps.InRange (s.ps.seg.get 0 + (d + 1)) →
          exec i s = .next (s.faultedBy (.segmentRange 0 (s.ps.seg.get 0 + (d + 1)))))

/-- R140, R141: as many levels as the field says are left and zeroed, 0 included, and the new top goes up by 1, or by a
signed field read after the pop; PathUnderflow, before that field, where the count exceeds CUR; indices, codes and the
other faults. -/
def Obligations.PopNPopsItsCountThenAdds : Prop :=
  ListedAs .popNPlusOne 33
    [true, true, false, true, true, false, false, false, true, true, false, false, false, true, true, false] ∧
  ListedAs .popNPlusN 34
    [true, true, false, true, true, false, false, false, true, true, false, false, false, false, false, true] ∧
  ∀ s : State, s.ps.fin = false →
    (s.rd.request .ubvfp = none → exec .popNPlusOne s = .next (s.faultedBy .malformedStream) ∧
      exec .popNPlusN s = .next (s.faultedBy .malformedStream)) ∧
    ∀ n r1, s.rd.request .ubvfp = some (n, r1) →
      (s.ps.cur < n.toNat → exec .popNPlusOne s = .next (s.faultedBy (.pathUnderflow s.ps.cur n.toNat)) ∧
        exec .popNPlusN s = .next (s.faultedBy (.pathUnderflow s.ps.cur n.toNat))) ∧
      (n.toNat ≤ s.ps.cur →
        let new := s.ps.cur - n.toNat
        let top := s.ps.seg.get new
        (s.ps.InRange (top + 1) →
          exec .popNPlusOne s = .next (s.completed ((s.ps.popped n.toNat).added new 1) r1)) ∧
        (¬s.ps.InRange (top + 1) → exec .popNPlusOne s = .next (s.faultedBy (.segmentRange new (top + 1)))) ∧
        (r1.request .varS32 = none → exec .popNPlusN s = .next (s.faultedBy .malformedStream)) ∧
        ∀ x r2, r1.request .varS32 = some (x, r2) →
          (s.ps.InRange (top + x) →
            exec .popNPlusN s = .next (s.completed ((s.ps.popped n.toNat).added new x) r2)) ∧
          (¬s.ps.InRange (top + x) → exec .popNPlusN s = .next (s.faultedBy (.segmentRange new (top + x)))))

/-- R142: as many levels as the field says are left and zeroed, then the guarded deltas are added to the levels that
remain. -/
def Obligations.PopNAndNonTopographicalPopsThenAdjusts : Prop :=
  ∀ (s : State) (n : Int) (gs : List (Option Int)) (r1 r2 : Reader), s.ps.fin = false → s.ps.cur ≤ 5 →
    s.rd.request .ubvfp = some (n, r1) → n.toNat ≤ s.ps.cur →
    Reader.guards .varS32 (s.ps.cur - n.toNat + 1) r1 = some (gs, r2) →
    (s.ps.popped n.toNat).AdjustInRange gs 0 →
    exec .popNAndNonTopographical s = .next (s.completed ((s.ps.popped n.toNat).adjusted gs 0) r2)

/-- R132, R134, R135, R140 to R142, R152: popping more levels than there are raises PathUnderflow before anything more is
read. -/
def Obligations.PoppingTooManyUnderflows : Prop :=
  (∀ s : State, s.ps.cur = 0 → ∀ i ∈ [Instr.popOnePlusOne, .popOnePlusN],
    exec i s = .next (s.faultedBy (.pathUnderflow 0 1))) ∧
  (∀ (s : State) (n : Int) (r1 : Reader), s.rd.request .ubvfp = some (n, r1) → s.ps.cur < n.toNat →
    ∀ i ∈ [Instr.popNPlusOne, .popNPlusN, .popNAndNonTopographical],
      exec i s = .next (s.faultedBy (.pathUnderflow s.ps.cur n.toNat)))

/-! ### Scans, penultimate adjust, terminal -/

/-- R143, R144, R146: the scans add each true guard's delta, a signed field or a 4-bit field minus 7, to its level, in
ascending order, each delta read right after its guard. -/
def Obligations.ScansAdjustTheActiveLevels : Prop :=
  ∀ (s : State) (i : Instr) (q : Request) (bias : Int) (gs : List (Option Int)) (r1 : Reader),
    (i, q, bias) ∈ [(Instr.nonTopoComplex, Request.varS32, (0 : Int)), (.nonTopoComplexPack4Bits, .bits 4, -7)] →
    s.ps.fin = false → s.ps.cur ≤ 5 → Reader.guards q (s.ps.cur + 1) s.rd = some (gs, r1) →
    s.ps.AdjustInRange gs bias →
    exec i s = .next (s.completed (s.ps.adjusted gs bias) r1)

/-- R145: NonTopoPenultimatePlusOne, its index and code, what it adds, and its faults. -/
def Obligations.PenultimateAdjustAddsBelowTheTop : Prop :=
  ListedAs .nonTopoPenultimatePlusOne 37 [true, true, false, true, true, false, true, true, true] ∧
  ∀ s : State, s.ps.fin = false →
    (s.ps.cur = 0 → exec .nonTopoPenultimatePlusOne s = .next (s.faultedBy (.pathUnderflow 0 1))) ∧
    (1 ≤ s.ps.cur → s.ps.InRange (s.ps.seg.get (s.ps.cur - 1) + 1) →
      exec .nonTopoPenultimatePlusOne s = .next (s.completed (s.ps.added (s.ps.cur - 1) 1) s.rd)) ∧
    (1 ≤ s.ps.cur → ¬s.ps.InRange (s.ps.seg.get (s.ps.cur - 1) + 1) →
      exec .nonTopoPenultimatePlusOne s =
        .next (s.faultedBy (.segmentRange (s.ps.cur - 1) (s.ps.seg.get (s.ps.cur - 1) + 1))))

/-- R83, R147: FieldPathEncodeFinish sets FIN and ends the decode: SEG, CUR and OUT are unchanged, no bit is read and no
fault is raised; its index and code. -/
def Obligations.FinishSetsFinAndEndsTheDecode : Prop :=
  ListedAs .fieldPathEncodeFinish 39 [true, false] ∧
  ∀ s : State, exec .fieldPathEncodeFinish s = .next s.terminated

/-! ### Fault order -/

/-- R37, R150: any operand request of any operation that finds too few bits raises MalformedStream: the field or the count
that an operation reads first; the values it pushes, at whichever push they run out; a field after a count or a pop; and
each guard and delta of a guard loop, at whichever level. -/
def Obligations.ExhaustedFieldsAreMalformed : Prop :=
  (∀ (s : State) (i : Instr) (q : Request),
    (i, q) ∈ [(Instr.plusN, Request.ubvfp), (.pushOneLeftDeltaNRightZero, .ubvfp),
      (.pushOneLeftDeltaNRightNonZero, .ubvfp), (.pushOneLeftDeltaNRightNonZeroPack6Bits, .bits 3),
      (.pushOneLeftDeltaNRightNonZeroPack8Bits, .bits 4), (.pushTwoLeftDeltaN, .ubv), (.pushTwoPack5LeftDeltaN, .ubv),
      (.pushThreeLeftDeltaN, .ubv), (.pushThreePack5LeftDeltaN, .ubv), (.pushN, .ubv),
      (.popAllButOnePlusN, .ubvfp), (.popAllButOnePlusNPack3Bits, .bits 3), (.popAllButOnePlusNPack6Bits, .bits 6),
      (.popNPlusOne, .ubvfp), (.popNPlusN, .ubvfp), (.popNAndNonTopographical, .ubvfp)] →
    s.rd.request q = none → exec i s = .next (s.faultedBy .malformedStream)) ∧
  (∀ (s : State) (i : Instr) (q : Request) (n k : Nat) (vs : List Int) (r rk : Reader),
    ReachesPushes s i q n r → k < n → s.ps.cur + k ≤ 4 → Reader.requests q k r = some (vs, rk) →
    (∀ v ∈ vs, s.ps.InRange v) → rk.request q = none →
    exec i s = .next (s.faultedBy .malformedStream)) ∧
  (∀ (s : State) (n : Int) (r : Reader), s.rd.request .ubv = some (n, r) → r.request .ubv = none →
    exec .pushN s = .next (s.faultedBy .malformedStream)) ∧
  (∀ (s : State) (gs : List (Option Int)) (r : Reader), s.ps.cur ≤ 5 →
    Reader.guards .varS32 (s.ps.cur + 1) s.rd = some (gs, r) → s.ps.AdjustInRange gs 1 → r.request .ubv = none →
    exec .pushNAndNonTopological s = .next (s.faultedBy .malformedStream)) ∧
  (∀ s : State, 1 ≤ s.ps.cur → s.rd.request .ubvfp = none →
    exec .popOnePlusN s = .next (s.faultedBy .malformedStream)) ∧
  (∀ (s : State) (n : Int) (r : Reader), s.rd.request .ubvfp = some (n, r) → n.toNat ≤ s.ps.cur →
    r.request .varS32 = none → exec .popNPlusN s = .next (s.faultedBy .malformedStream)) ∧
  (∀ (s : State) (i : Instr) (q : Request) (bias : Int) (ps : PathState) (r : Reader) (j : Nat) (rj : Reader),
    ReachesGuards s i q bias ps r → s.ps.cur ≤ 5 → LoopReaches ps q bias r j rj →
    (rj.request .bool = none → exec i s = .next (s.faultedBy .malformedStream)) ∧
    ∀ rg, rj.request .bool = some (1, rg) → rg.request q = none →
      exec i s = .next (s.faultedBy .malformedStream))

/-- R9, R15, R154: every write that an operation comes to, of a sum at the top, at SEG[0], below the top, at the new top
after a pop, at any level of a guard loop, of a pushed field plus 1, or of a pushed field as it is read, whose exact value
is outside SEG_MIN to SEG_MAX, raises SegmentRange with the level and the value. -/
def Obligations.OverrangeWritesRaiseSegmentRange : Prop :=
  ∀ (s : State) (i : Instr) (j : Nat) (v : Int), s.ps.cur ≤ 5 → ReachesWrite s i j v → ¬s.ps.InRange v →
    exec i s = .next (s.faultedBy (.segmentRange j v))

/-- R156: the fault reported is that of the first micro-step, in pseudocode order, that raises one: an operation faults
exactly when, after some number of its micro-steps that raise nothing, the next one raises a fault, and that is the fault
taken. And the rule's own examples: PushOneLeftDeltaNRightNonZero at CUR = 5 reports MalformedStream where its
increment's bits run out and PathOverflow where they do not, though its value's bits be missing; PopNPlusN reports
PathUnderflow though its delta's bits be missing. -/
def Obligations.FirstFailingMicroStepDecidesTheFault : Prop :=
  (∀ (s : State) (i : Instr) (k : Nat) (c : OpCtx) (m : Micro) (rest : List Micro) (f : FaultInfo),
    microTicks k (program i) ⟨s.ps, s.rd⟩ = some (c, m :: rest) → microTick m rest c = .error f →
    exec i s = .next (s.faultedBy f)) ∧
  (∀ (s t : State) (i : Instr), exec i s = .next t → t.estate = .fault →
    ∃ k c m rest f, microTicks k (program i) ⟨s.ps, s.rd⟩ = some (c, m :: rest) ∧ microTick m rest c = .error f ∧
      t = s.faultedBy f) ∧
  (∀ s : State, s.ps.cur = 5 → s.rd.request .ubvfp = none →
    exec .pushOneLeftDeltaNRightNonZero s = .next (s.faultedBy .malformedStream)) ∧
  (∀ (s : State) (d : Int) (r1 : Reader), s.ps.cur = 5 → s.rd.request .ubvfp = some (d, r1) →
    r1.request .ubvfp = none → s.ps.InRange (s.ps.seg.get 5 + (d + 2)) →
    exec .pushOneLeftDeltaNRightNonZero s = .next (s.faultedBy (.pathOverflow 5))) ∧
  (∀ (s : State) (n : Int) (r1 : Reader), s.rd.request .ubvfp = some (n, r1) → r1.request .varS32 = none →
    s.ps.cur < n.toNat →
    exec .popNPlusN s = .next (s.faultedBy (.pathUnderflow s.ps.cur n.toNat)))
end

