-- ==== Sys2Proof/Laws/BitReader.lean ====
section
/-! SUPPORT. What the requests read, whatever BR is: each consumes an initial piece of the bits, the piece alone decides
the value, and the value is in the range that the request states. -/

namespace Sys2Proof.Machine

/-- `used` is what a reading function consumes of `bs` to give `v`, whatever follows it. -/
def Consumes {α : Type} (f : Bits → Option (α × Bits)) (bs used left : Bits) (v : α) : Prop :=
  bs = used ++ left ∧ ∀ other, f (used ++ other) = some (v, other)

theorem readBits_consumes : ∀ (n : Nat) (bs left : Bits) (v : Nat), readBits n bs = some (v, left) →
    ∃ used, Consumes (readBits n) bs used left v ∧ used.length = n
  | 0, bs, left, v, h => by
    simp only [readBits, Option.some.injEq, Prod.mk.injEq] at h
    obtain ⟨rfl, rfl⟩ := h
    exact ⟨[], ⟨rfl, fun _ => rfl⟩, rfl⟩
  | n + 1, [], left, v, h => by simp [readBits] at h
  | n + 1, b :: bs, left, v, h => by
    simp only [readBits] at h
    split at h
    · cases h
    · rename_i w rest hr
      simp only [Option.some.injEq, Prod.mk.injEq] at h
      obtain ⟨rfl, rfl⟩ := h
      obtain ⟨used, ⟨rfl, hu⟩, hl⟩ := readBits_consumes n bs rest w hr
      exact ⟨b :: used, ⟨rfl, fun other => by simp [readBits, hu other]⟩, by simp [hl]⟩

/-- Bits of `n` bits are below 2^n. -/
theorem readBits_lt : ∀ (n : Nat) (bs left : Bits) (v : Nat), readBits n bs = some (v, left) → v < 2 ^ n
  | 0, bs, left, v, h => by
    simp only [readBits, Option.some.injEq, Prod.mk.injEq] at h
    omega
  | n + 1, [], left, v, h => by simp [readBits] at h
  | n + 1, b :: bs, left, v, h => by
    simp only [readBits] at h
    split at h
    · cases h
    · rename_i w rest hr
      simp only [Option.some.injEq, Prod.mk.injEq] at h
      obtain ⟨rfl, rfl⟩ := h
      have hw := readBits_lt n bs rest w hr
      have hb := b.toNat_le
      rw [Nat.pow_succ]
      omega

/-- Reading on after a first reading. -/
theorem Consumes.append {α β : Type} {f : Bits → Option (α × Bits)} {g : Bits → Option (β × Bits)}
    {bs u1 mid u2 left : Bits} {a : α} {b : β} (h1 : Consumes f bs u1 mid a) (h2 : Consumes g mid u2 left b) :
    bs = (u1 ++ u2) ++ left ∧ ∀ other, f ((u1 ++ u2) ++ other) = some (a, u2 ++ other) ∧
      g (u2 ++ other) = some (b, other) := by
  obtain ⟨rfl, h1⟩ := h1
  obtain ⟨rfl, h2⟩ := h2
  exact ⟨by simp, fun other => ⟨by simpa using h1 (u2 ++ other), h2 other⟩⟩

theorem readBitsMsb_consumes : ∀ (n acc : Nat) (bs left : Bits) (v : Nat), readBitsMsb n acc bs = some (v, left) →
    ∃ used, Consumes (readBitsMsb n acc) bs used left v ∧ used.length = n
  | 0, acc, bs, left, v, h => by
    simp only [readBitsMsb, Option.some.injEq, Prod.mk.injEq] at h
    obtain ⟨rfl, rfl⟩ := h
    exact ⟨[], ⟨rfl, fun _ => rfl⟩, rfl⟩
  | n + 1, acc, [], left, v, h => by simp [readBitsMsb] at h
  | n + 1, acc, b :: bs, left, v, h => by
    obtain ⟨used, ⟨rfl, hu⟩, hl⟩ := readBitsMsb_consumes n (2 * acc + b.toNat) bs left v h
    exact ⟨b :: used, ⟨rfl, fun other => hu other⟩, by simp [hl]⟩

theorem readBitsMsb_lt : ∀ (n acc : Nat) (bs left : Bits) (v : Nat), readBitsMsb n acc bs = some (v, left) →
    v < (acc + 1) * 2 ^ n
  | 0, acc, bs, left, v, h => by
    simp only [readBitsMsb, Option.some.injEq, Prod.mk.injEq] at h
    omega
  | n + 1, acc, [], left, v, h => by simp [readBitsMsb] at h
  | n + 1, acc, b :: bs, left, v, h => by
    have ih := readBitsMsb_lt n (2 * acc + b.toNat) bs left v h
    have hb : 2 * acc + b.toNat + 1 ≤ 2 * (acc + 1) := by have := b.toNat_le; omega
    calc v < (2 * acc + b.toNat + 1) * 2 ^ n := ih
      _ ≤ 2 * (acc + 1) * 2 ^ n := Nat.mul_le_mul_right _ hb
      _ = (acc + 1) * 2 ^ (n + 1) := by rw [Nat.pow_succ]; ring

/-- A fixed-width field consumes its n bits, in either bit order. -/
theorem readFixed_consumes (order : BitOrder) (n : Nat) (bs left : Bits) (v : Nat)
    (h : readFixed order n bs = some (v, left)) :
    ∃ used, Consumes (readFixed order n) bs used left v ∧ used.length = n := by
  cases order with
  | lsbFirst => exact readBits_consumes n bs left v h
  | msbFirst => exact readBitsMsb_consumes n 0 bs left v h

/-- A fixed-width field of n bits is below 2^n, in either bit order. -/
theorem readFixed_lt (order : BitOrder) (n : Nat) (bs left : Bits) (v : Nat)
    (h : readFixed order n bs = some (v, left)) : v < 2 ^ n := by
  cases order with
  | lsbFirst => exact readBits_lt n bs left v h
  | msbFirst => simpa using readBitsMsb_lt n 0 bs left v h

/-- Whether every way through a layout reads a bit. -/
def Layout.readsSome : Layout → Bool
  | .give _ _ => false
  | .take n _ next => n != 0 || next.readsSome
  | .skip n next => n != 0 || next.readsSome
  | .branch _ _ => true

/-- A layout consumes an initial piece of the bits, which alone decides its value. -/
theorem readLayout_consumes (order : BitOrder) : ∀ (l : Layout) (acc : Nat) (bs left : Bits) (v : Int),
    readLayout order l acc bs = some (v, left) →
    ∃ used, Consumes (readLayout order l acc) bs used left v ∧ (l.readsSome = true → used ≠ [])
  | .give negated base, acc, bs, left, v, h => by
    simp only [readLayout, Option.some.injEq, Prod.mk.injEq] at h
    obtain ⟨rfl, rfl⟩ := h
    exact ⟨[], ⟨rfl, fun _ => rfl⟩, by simp [Layout.readsSome]⟩
  | .take n shift next, acc, bs, left, v, h => by
    simp only [readLayout] at h
    split at h
    · cases h
    · rename_i w mid hw
      obtain ⟨u1, h1, hl⟩ := readFixed_consumes _ _ _ _ _ hw
      obtain ⟨u2, h2, hn⟩ := readLayout_consumes order next _ _ _ _ h
      obtain ⟨e, hu⟩ := h1.append h2
      refine ⟨u1 ++ u2, ⟨e, fun other => by simp only [readLayout, (hu other).1, (hu other).2]⟩, fun hs hnil => ?_⟩
      simp only [List.append_eq_nil_iff] at hnil
      simp only [Layout.readsSome, Bool.or_eq_true, bne_iff_ne, ne_eq] at hs
      rcases hs with hs | hs
      · rw [hnil.1] at hl
        exact hs hl.symm
      · exact hn hs hnil.2
  | .skip n next, acc, bs, left, v, h => by
    simp only [readLayout] at h
    split at h
    · cases h
    · rename_i w mid hw
      obtain ⟨u1, h1, hl⟩ := readBits_consumes _ _ _ _ hw
      obtain ⟨u2, h2, hn⟩ := readLayout_consumes order next _ _ _ _ h
      obtain ⟨e, hu⟩ := h1.append h2
      refine ⟨u1 ++ u2, ⟨e, fun other => by simp only [readLayout, (hu other).1, (hu other).2]⟩, fun hs hnil => ?_⟩
      simp only [List.append_eq_nil_iff] at hnil
      simp only [Layout.readsSome, Bool.or_eq_true, bne_iff_ne, ne_eq] at hs
      rcases hs with hs | hs
      · rw [hnil.1] at hl
        exact hs hl.symm
      · exact hn hs hnil.2
  | .branch zero one, acc, [], left, v, h => by simp [readLayout] at h
  | .branch zero one, acc, b :: bs, left, v, h => by
    simp only [readLayout] at h
    split at h
    · rename_i hb
      obtain ⟨used, ⟨rfl, hu⟩, -⟩ := readLayout_consumes order one _ _ _ _ h
      exact ⟨b :: used, ⟨rfl, fun other => by simp [readLayout, hb, hu other]⟩, by simp⟩
    · rename_i hb
      obtain ⟨used, ⟨rfl, hu⟩, -⟩ := readLayout_consumes order zero _ _ _ _ h
      exact ⟨b :: used, ⟨rfl, fun other => by simp [readLayout, hb, hu other]⟩, by simp⟩

/-- So does a variable-length request. -/
theorem readVariable_consumes (order : BitOrder) (l : Layout) (q : Request) (bs left : Bits) (v : Int)
    (h : readVariable order l q bs = some (v, left)) :
    ∃ used, Consumes (readVariable order l q) bs used left v ∧ (l.readsSome = true → used ≠ []) := by
  simp only [readVariable, Option.map_eq_some_iff, Prod.mk.injEq, Prod.exists] at h
  obtain ⟨w, _, hw, rfl, rfl⟩ := h
  obtain ⟨used, hu, hn⟩ := readLayout_consumes order l 0 bs _ w hw
  exact ⟨used, ⟨hu.1, fun other => by simp [readVariable, hu.2 other]⟩, hn⟩

/-- Whether every answer to a request consumes a bit. -/
def BR.readsSome (br : BR) : Request → Bool
  | .bit => true
  | .bool => true
  | .bits n => n != 0
  | .ubv => br.ubv.readsSome
  | .ubvfp => br.ubvfp.readsSome
  | .varS32 => br.varS32.readsSome

/-- Every reference request but for a 0-bit field, which no operation has, consumes a bit. -/
theorem reference_readsSome (q : Request) (h : q ≠ .bits 0) : BR.reference.readsSome q = true := by
  cases q with
  | bits n =>
    cases n with
    | zero => exact absurd rfl h
    | succ n => rfl
  | bit => rfl
  | bool => rfl
  | ubv => rfl
  | ubvfp => rfl
  | varS32 => rfl

/-- Every request consumes an initial piece of the bits, which alone decides its value. -/
theorem readRequest_consumes (br : BR) (q : Request) (bs left : Bits) (v : Int)
    (h : readRequest br q bs = some (v, left)) :
    ∃ used, Consumes (readRequest br q) bs used left v ∧ (br.readsSome q = true → used ≠ []) := by
  cases q with
  | bit =>
    simp only [readRequest, Option.map_eq_some_iff, Prod.mk.injEq, Prod.exists] at h
    obtain ⟨w, _, hw, rfl, rfl⟩ := h
    obtain ⟨used, hu, hl⟩ := readBits_consumes 1 bs _ w hw
    exact ⟨used, ⟨hu.1, fun other => by simp [readRequest, hu.2 other]⟩, fun _ hn => by simp [hn] at hl⟩
  | bool =>
    simp only [readRequest, Option.map_eq_some_iff, Prod.mk.injEq, Prod.exists] at h
    obtain ⟨w, _, hw, rfl, rfl⟩ := h
    obtain ⟨used, hu, hl⟩ := readBits_consumes 1 bs _ w hw
    exact ⟨used, ⟨hu.1, fun other => by simp [readRequest, hu.2 other]⟩, fun _ hn => by simp [hn] at hl⟩
  | bits n =>
    simp only [readRequest, Option.map_eq_some_iff, Prod.mk.injEq, Prod.exists] at h
    obtain ⟨w, _, hw, rfl, rfl⟩ := h
    obtain ⟨used, hu, hl⟩ := readFixed_consumes br.order n bs _ w hw
    refine ⟨used, ⟨hu.1, fun other => by simp [readRequest, hu.2 other]⟩, fun hq hn => ?_⟩
    simp only [BR.readsSome, bne_iff_ne, ne_eq] at hq
    exact hq (by simpa [hn] using hl.symm)
  | ubv => exact readVariable_consumes _ _ _ _ _ _ h
  | ubvfp => exact readVariable_consumes _ _ _ _ _ _ h
  | varS32 => exact readVariable_consumes _ _ _ _ _ _ h

/-- Every value that the block receives is in the range that its request states (R40 to R43), whatever BR is. -/
theorem readRequest_admits (br : BR) (q : Request) (bs left : Bits) (v : Int)
    (h : readRequest br q bs = some (v, left)) : fieldAdmits q v = true := by
  cases q with
  | bit =>
    simp only [readRequest, Option.map_eq_some_iff, Prod.mk.injEq, Prod.exists] at h
    obtain ⟨w, _, hw, rfl, -⟩ := h
    have := readBits_lt 1 bs _ w hw
    simp only [fieldAdmits, decide_eq_true_eq]
    omega
  | bool =>
    simp only [readRequest, Option.map_eq_some_iff, Prod.mk.injEq, Prod.exists] at h
    obtain ⟨w, _, hw, rfl, -⟩ := h
    have := readBits_lt 1 bs _ w hw
    simp only [fieldAdmits, decide_eq_true_eq]
    omega
  | bits n =>
    simp only [readRequest, Option.map_eq_some_iff, Prod.mk.injEq, Prod.exists] at h
    obtain ⟨w, _, hw, rfl, -⟩ := h
    have := readFixed_lt br.order n bs _ w hw
    simp only [fieldAdmits, decide_eq_true_eq]
    exact ⟨by omega, by exact_mod_cast this⟩
  | ubv =>
    simp only [readRequest, readVariable, receivedValue, Option.map_eq_some_iff, Prod.mk.injEq, Prod.exists] at h
    obtain ⟨w, _, -, rfl, -⟩ := h
    simp only [fieldAdmits, decide_eq_true_eq]
    omega
  | ubvfp =>
    simp only [readRequest, readVariable, receivedValue, Option.map_eq_some_iff, Prod.mk.injEq, Prod.exists] at h
    obtain ⟨w, _, -, rfl, -⟩ := h
    simp only [fieldAdmits, decide_eq_true_eq]
    omega
  | varS32 =>
    simp only [readRequest, readVariable, receivedValue, Option.map_eq_some_iff, Prod.mk.injEq, Prod.exists] at h
    obtain ⟨w, _, -, rfl, -⟩ := h
    simp only [fieldAdmits, decide_eq_true_eq]
    omega

/-- What a reader's request gives: the value of the bits at POS, and POS moved past them. -/
theorem Reader.request_spec (q : Request) (r r' : Reader) (v : Int) (h : r.request q = some (v, r')) :
    ∃ used, r.rest = used ++ r'.rest ∧ r' = r.advance used.length ∧
      (∀ other, readRequest r.br q (used ++ other) = some (v, other)) ∧ (r.br.readsSome q = true → used ≠ []) := by
  simp only [Reader.request] at h
  split at h
  · cases h
  · rename_i w left hr
    simp only [Option.some.injEq, Prod.mk.injEq] at h
    obtain ⟨rfl, rfl⟩ := h
    obtain ⟨used, ⟨e, hu⟩, hn⟩ := readRequest_consumes r.br q r.rest left w hr
    have hlen : r.rest.length - left.length = used.length := by simp [e]
    rw [hlen]
    refine ⟨used, ?_, rfl, hu, hn⟩
    have : (r.advance used.length).rest = r.rest.drop used.length := by
      simp [Reader.rest, Reader.advance, List.drop_drop]
    rw [this, e]
    simp

/-- The value of a request is in the range that the request states, whatever BR is. -/
theorem Reader.request_admits (q : Request) (r r' : Reader) (v : Int) (h : r.request q = some (v, r')) :
    fieldAdmits q v = true := by
  simp only [Reader.request] at h
  split at h
  · cases h
  · rename_i w left hr
    simp only [Option.some.injEq, Prod.mk.injEq] at h
    exact h.1 ▸ readRequest_admits _ _ _ _ _ hr

/-- A request leaves STREAM alone. -/
theorem Reader.request_stream (q : Request) (r r' : Reader) (v : Int) (h : r.request q = some (v, r')) :
    r'.stream = r.stream := by
  obtain ⟨_, -, rfl, -⟩ := Reader.request_spec q r r' v h
  rfl

/-- A request leaves the reader's BR alone. -/
theorem Reader.request_br (q : Request) (r r' : Reader) (v : Int) (h : r.request q = some (v, r')) :
    r'.br = r.br := by
  obtain ⟨_, -, rfl, -⟩ := Reader.request_spec q r r' v h
  rfl

/-- A request never moves POS backwards. -/
theorem Reader.request_pos (q : Request) (r r' : Reader) (v : Int) (h : r.request q = some (v, r')) :
    r.pos ≤ r'.pos := by
  obtain ⟨_, -, rfl, -⟩ := Reader.request_spec q r r' v h
  simp [Reader.advance]

/-- Where the bits at POS begin with `used`, what reading `used` gives is what the request gives. -/
theorem Reader.request_of_rest (q : Request) (r : Reader) (used left : Bits) (v : Int) (e : r.rest = used ++ left)
    (h : readRequest r.br q (used ++ left) = some (v, left)) : r.request q = some (v, r.advance used.length) := by
  simp [Reader.request, e, h]

end Sys2Proof.Machine
end

