-- ==== Sys2Proof/Laws/State.lean ====
section
/-! SUPPORT. One lemma per field for each update of the state record, so that no later proof unfolds one. -/

namespace Sys2Proof.Machine

/-! ### popPins -/

@[simp] theorem popPins_ps (s : State) : s.popPins.ps = s.ps := rfl
@[simp] theorem popPins_node (s : State) : s.popPins.node = s.node := rfl
@[simp] theorem popPins_opidx (s : State) : s.popPins.opidx = s.opidx := rfl
@[simp] theorem popPins_mstep (s : State) : s.popPins.mstep = s.mstep := rfl
@[simp] theorem popPins_estate (s : State) : s.popPins.estate = s.estate := rfl
@[simp] theorem popPins_fkind (s : State) : s.popPins.fkind = s.fkind := rfl
@[simp] theorem popPins_out (s : State) : s.popPins.out = s.out := rfl
@[simp] theorem popPins_rom (s : State) : s.popPins.rom = s.rom := rfl
@[simp] theorem popPins_rd (s : State) : s.popPins.rd = s.rd := rfl
@[simp] theorem popPins_host (s : State) : s.popPins.host = s.host.tail := rfl
@[simp] theorem popPins_hostRest (s : State) : s.popPins.hostRest = s.hostRest := rfl
@[simp] theorem popPins_traceEn (s : State) : s.popPins.traceEn = s.traceEn := rfl
@[simp] theorem popPins_trace (s : State) : s.popPins.trace = s.trace := rfl
@[simp] theorem popPins_draws (s : State) : s.popPins.draws = s.draws := rfl

/-! ### traced -/

@[simp] theorem traced_ps (s : State) (e : TraceEvent) : (traced s e).ps = s.ps := rfl
@[simp] theorem traced_node (s : State) (e : TraceEvent) : (traced s e).node = s.node := rfl
@[simp] theorem traced_opidx (s : State) (e : TraceEvent) : (traced s e).opidx = s.opidx := rfl
@[simp] theorem traced_mstep (s : State) (e : TraceEvent) : (traced s e).mstep = s.mstep := rfl
@[simp] theorem traced_estate (s : State) (e : TraceEvent) : (traced s e).estate = s.estate := rfl
@[simp] theorem traced_fkind (s : State) (e : TraceEvent) : (traced s e).fkind = s.fkind := rfl
@[simp] theorem traced_out (s : State) (e : TraceEvent) : (traced s e).out = s.out := rfl
@[simp] theorem traced_rom (s : State) (e : TraceEvent) : (traced s e).rom = s.rom := rfl
@[simp] theorem traced_rd (s : State) (e : TraceEvent) : (traced s e).rd = s.rd := rfl
@[simp] theorem traced_host (s : State) (e : TraceEvent) : (traced s e).host = s.host := rfl
@[simp] theorem traced_hostRest (s : State) (e : TraceEvent) : (traced s e).hostRest = s.hostRest := rfl
@[simp] theorem traced_traceEn (s : State) (e : TraceEvent) : (traced s e).traceEn = s.traceEn := rfl
@[simp] theorem traced_trace (s : State) (e : TraceEvent) :
      (traced s e).trace = if s.traceEn then s.trace ++ [e] else s.trace := rfl
@[simp] theorem traced_draws (s : State) (e : TraceEvent) : (traced s e).draws = s.draws := rfl

/-! ### traceBefore -/

@[simp] theorem traceBefore_ps (s : State) : (traceBefore s).ps = s.ps := rfl
@[simp] theorem traceBefore_node (s : State) : (traceBefore s).node = s.node := rfl
@[simp] theorem traceBefore_opidx (s : State) : (traceBefore s).opidx = s.opidx := rfl
@[simp] theorem traceBefore_mstep (s : State) : (traceBefore s).mstep = s.mstep := rfl
@[simp] theorem traceBefore_estate (s : State) : (traceBefore s).estate = s.estate := rfl
@[simp] theorem traceBefore_fkind (s : State) : (traceBefore s).fkind = s.fkind := rfl
@[simp] theorem traceBefore_out (s : State) : (traceBefore s).out = s.out := rfl
@[simp] theorem traceBefore_rom (s : State) : (traceBefore s).rom = s.rom := rfl
@[simp] theorem traceBefore_rd (s : State) : (traceBefore s).rd = s.rd := rfl
@[simp] theorem traceBefore_host (s : State) : (traceBefore s).host = s.host := rfl
@[simp] theorem traceBefore_hostRest (s : State) : (traceBefore s).hostRest = s.hostRest := rfl
@[simp] theorem traceBefore_traceEn (s : State) : (traceBefore s).traceEn = s.traceEn := rfl
@[simp] theorem traceBefore_trace (s : State) :
      (traceBefore s).trace = if s.traceEn then s.trace ++ [.before s.opidx s.rd.pos s.ps.cur s.ps.seg]
      else s.trace := rfl
@[simp] theorem traceBefore_draws (s : State) : (traceBefore s).draws = s.draws := rfl

/-! ### traceAfter -/

@[simp] theorem traceAfter_ps (s : State) : (traceAfter s).ps = s.ps := rfl
@[simp] theorem traceAfter_node (s : State) : (traceAfter s).node = s.node := rfl
@[simp] theorem traceAfter_opidx (s : State) : (traceAfter s).opidx = s.opidx := rfl
@[simp] theorem traceAfter_mstep (s : State) : (traceAfter s).mstep = s.mstep := rfl
@[simp] theorem traceAfter_estate (s : State) : (traceAfter s).estate = s.estate := rfl
@[simp] theorem traceAfter_fkind (s : State) : (traceAfter s).fkind = s.fkind := rfl
@[simp] theorem traceAfter_out (s : State) : (traceAfter s).out = s.out := rfl
@[simp] theorem traceAfter_rom (s : State) : (traceAfter s).rom = s.rom := rfl
@[simp] theorem traceAfter_rd (s : State) : (traceAfter s).rd = s.rd := rfl
@[simp] theorem traceAfter_host (s : State) : (traceAfter s).host = s.host := rfl
@[simp] theorem traceAfter_hostRest (s : State) : (traceAfter s).hostRest = s.hostRest := rfl
@[simp] theorem traceAfter_traceEn (s : State) : (traceAfter s).traceEn = s.traceEn := rfl
@[simp] theorem traceAfter_trace (s : State) :
      (traceAfter s).trace = if s.traceEn then s.trace ++ [.after s.opidx s.rd.pos s.ps.cur s.ps.seg s.ps.fin]
      else s.trace := rfl
@[simp] theorem traceAfter_draws (s : State) : (traceAfter s).draws = s.draws := rfl

/-! ### raiseFault -/

@[simp] theorem raiseFault_ps (s : State) (f : FaultInfo) : (raiseFault f s).ps = faultPath s.ps.range s.draws := rfl
@[simp] theorem raiseFault_node (s : State) (f : FaultInfo) : (raiseFault f s).node = Config.faultNode s.draws := rfl
@[simp] theorem raiseFault_opidx (s : State) (f : FaultInfo) : (raiseFault f s).opidx = Config.faultOpidx s.draws := rfl
@[simp] theorem raiseFault_mstep (s : State) (f : FaultInfo) : (raiseFault f s).mstep = Config.faultMstep s.draws := rfl
@[simp] theorem raiseFault_estate (s : State) (f : FaultInfo) : (raiseFault f s).estate = .fault := rfl
@[simp] theorem raiseFault_fkind (s : State) (f : FaultInfo) : (raiseFault f s).fkind = f.kind := rfl
@[simp] theorem raiseFault_out (s : State) (f : FaultInfo) : (raiseFault f s).out = s.out := rfl
@[simp] theorem raiseFault_rom (s : State) (f : FaultInfo) : (raiseFault f s).rom = s.rom := rfl
@[simp] theorem raiseFault_rd (s : State) (f : FaultInfo) :
      (raiseFault f s).rd = { s.rd with pos := Config.faultPos s.draws } := rfl
@[simp] theorem raiseFault_host (s : State) (f : FaultInfo) : (raiseFault f s).host = s.host := rfl
@[simp] theorem raiseFault_hostRest (s : State) (f : FaultInfo) : (raiseFault f s).hostRest = s.hostRest := rfl
@[simp] theorem raiseFault_traceEn (s : State) (f : FaultInfo) : (raiseFault f s).traceEn = s.traceEn := rfl
@[simp] theorem raiseFault_trace (s : State) (f : FaultInfo) :
      (raiseFault f s).trace = if s.traceEn then s.trace ++ [.fault f s.opidx (Config.faultPos s.draws)]
      else s.trace := rfl
@[simp] theorem raiseFault_draws (s : State) (f : FaultInfo) : (raiseFault f s).draws = s.draws + 1 := rfl

/-! ### startDecode -/

@[simp] theorem startDecode_ps (s : State) : (startDecode s).ps = .initial s.ps.range := rfl
@[simp] theorem startDecode_node (s : State) : (startDecode s).node = s.rom.root := rfl
@[simp] theorem startDecode_opidx (s : State) : (startDecode s).opidx = s.opidx := rfl
@[simp] theorem startDecode_mstep (s : State) : (startDecode s).mstep = none := rfl
@[simp] theorem startDecode_estate (s : State) : (startDecode s).estate = .run .traverse := rfl
@[simp] theorem startDecode_fkind (s : State) : (startDecode s).fkind = .none := rfl
@[simp] theorem startDecode_out (s : State) : (startDecode s).out = [] := rfl
@[simp] theorem startDecode_rom (s : State) : (startDecode s).rom = s.rom := rfl
@[simp] theorem startDecode_rd (s : State) : (startDecode s).rd = s.rd := rfl
@[simp] theorem startDecode_host (s : State) : (startDecode s).host = s.host := rfl
@[simp] theorem startDecode_hostRest (s : State) : (startDecode s).hostRest = s.hostRest := rfl
@[simp] theorem startDecode_traceEn (s : State) : (startDecode s).traceEn = s.traceEn := rfl
@[simp] theorem startDecode_trace (s : State) : (startDecode s).trace = s.trace := rfl
@[simp] theorem startDecode_draws (s : State) : (startDecode s).draws = s.draws := rfl

/-! ### applyReset -/

@[simp] theorem applyReset_ps (s : State) : (applyReset s).ps = .initial s.ps.range := rfl
@[simp] theorem applyReset_node (s : State) : (applyReset s).node = s.rom.root := rfl
@[simp] theorem applyReset_opidx (s : State) : (applyReset s).opidx = Config.resetOpidx s.draws := rfl
@[simp] theorem applyReset_mstep (s : State) : (applyReset s).mstep = none := rfl
@[simp] theorem applyReset_estate (s : State) : (applyReset s).estate = .idle := rfl
@[simp] theorem applyReset_fkind (s : State) : (applyReset s).fkind = .none := rfl
@[simp] theorem applyReset_out (s : State) : (applyReset s).out = [] := rfl
@[simp] theorem applyReset_rom (s : State) : (applyReset s).rom = s.rom := rfl
@[simp] theorem applyReset_rd (s : State) : (applyReset s).rd = s.rd := rfl
@[simp] theorem applyReset_host (s : State) : (applyReset s).host = s.host := rfl
@[simp] theorem applyReset_hostRest (s : State) : (applyReset s).hostRest = s.hostRest := rfl
@[simp] theorem applyReset_traceEn (s : State) : (applyReset s).traceEn = s.traceEn := rfl
@[simp] theorem applyReset_trace (s : State) : (applyReset s).trace = s.trace := rfl
@[simp] theorem applyReset_draws (s : State) : (applyReset s).draws = s.draws + 1 := rfl

/-! ### finishOperation -/

@[simp] theorem finishOperation_ps (s : State) : (finishOperation s).ps = s.ps := rfl
@[simp] theorem finishOperation_node (s : State) : (finishOperation s).node = s.node := rfl
@[simp] theorem finishOperation_opidx (s : State) : (finishOperation s).opidx = s.opidx := rfl
@[simp] theorem finishOperation_mstep (s : State) : (finishOperation s).mstep = none := rfl
@[simp] theorem finishOperation_estate (s : State) : (finishOperation s).estate = if s.ps.fin then .done
      else .run .emit := rfl
@[simp] theorem finishOperation_fkind (s : State) : (finishOperation s).fkind = s.fkind := rfl
@[simp] theorem finishOperation_out (s : State) : (finishOperation s).out = s.out := rfl
@[simp] theorem finishOperation_rom (s : State) : (finishOperation s).rom = s.rom := rfl
@[simp] theorem finishOperation_rd (s : State) : (finishOperation s).rd = s.rd := rfl
@[simp] theorem finishOperation_host (s : State) : (finishOperation s).host = s.host := rfl
@[simp] theorem finishOperation_hostRest (s : State) : (finishOperation s).hostRest = s.hostRest := rfl
@[simp] theorem finishOperation_traceEn (s : State) : (finishOperation s).traceEn = s.traceEn := rfl
@[simp] theorem finishOperation_trace (s : State) :
      (finishOperation s).trace = if s.traceEn then s.trace ++ [.after s.opidx s.rd.pos s.ps.cur s.ps.seg s.ps.fin] else s.trace := rfl
@[simp] theorem finishOperation_draws (s : State) : (finishOperation s).draws = s.draws := rfl

/-! ### acceptSnapshot -/

@[simp] theorem acceptSnapshot_ps (s : State) : (acceptSnapshot s).ps = s.ps := rfl
@[simp] theorem acceptSnapshot_node (s : State) : (acceptSnapshot s).node = s.node := rfl
@[simp] theorem acceptSnapshot_opidx (s : State) : (acceptSnapshot s).opidx = s.opidx := rfl
@[simp] theorem acceptSnapshot_mstep (s : State) : (acceptSnapshot s).mstep = s.mstep := rfl
@[simp] theorem acceptSnapshot_estate (s : State) : (acceptSnapshot s).estate = .run .traverse := rfl
@[simp] theorem acceptSnapshot_fkind (s : State) : (acceptSnapshot s).fkind = s.fkind := rfl
@[simp] theorem acceptSnapshot_out (s : State) : (acceptSnapshot s).out = s.out ++ [s.ps.snapshot] := rfl
@[simp] theorem acceptSnapshot_rom (s : State) : (acceptSnapshot s).rom = s.rom := rfl
@[simp] theorem acceptSnapshot_rd (s : State) : (acceptSnapshot s).rd = s.rd := rfl
@[simp] theorem acceptSnapshot_host (s : State) : (acceptSnapshot s).host = s.host := rfl
@[simp] theorem acceptSnapshot_hostRest (s : State) : (acceptSnapshot s).hostRest = s.hostRest := rfl
@[simp] theorem acceptSnapshot_traceEn (s : State) : (acceptSnapshot s).traceEn = s.traceEn := rfl
@[simp] theorem acceptSnapshot_trace (s : State) : (acceptSnapshot s).trace = s.trace := rfl
@[simp] theorem acceptSnapshot_draws (s : State) : (acceptSnapshot s).draws = s.draws := rfl

/-! ### loadReader -/

@[simp] theorem loadReader_ps (s : State) (p : Pins) : (loadReader p s).ps = s.ps := rfl
@[simp] theorem loadReader_node (s : State) (p : Pins) : (loadReader p s).node = s.node := rfl
@[simp] theorem loadReader_opidx (s : State) (p : Pins) : (loadReader p s).opidx = s.opidx := rfl
@[simp] theorem loadReader_mstep (s : State) (p : Pins) : (loadReader p s).mstep = s.mstep := rfl
@[simp] theorem loadReader_estate (s : State) (p : Pins) : (loadReader p s).estate = s.estate := rfl
@[simp] theorem loadReader_fkind (s : State) (p : Pins) : (loadReader p s).fkind = s.fkind := rfl
@[simp] theorem loadReader_out (s : State) (p : Pins) : (loadReader p s).out = s.out := rfl
@[simp] theorem loadReader_rom (s : State) (p : Pins) : (loadReader p s).rom = s.rom := rfl
@[simp] theorem loadReader_rd (s : State) (p : Pins) : (loadReader p s).rd = s.rd.placed p.load := rfl
@[simp] theorem loadReader_host (s : State) (p : Pins) : (loadReader p s).host = s.host := rfl
@[simp] theorem loadReader_hostRest (s : State) (p : Pins) : (loadReader p s).hostRest = s.hostRest := rfl
@[simp] theorem loadReader_traceEn (s : State) (p : Pins) : (loadReader p s).traceEn = s.traceEn := rfl
@[simp] theorem loadReader_trace (s : State) (p : Pins) : (loadReader p s).trace = s.trace := rfl
@[simp] theorem loadReader_draws (s : State) (p : Pins) : (loadReader p s).draws = s.draws := rfl

/-! ### atLeaf -/

@[simp] theorem atLeaf_ps (s : State) (op n : Nat) : (atLeaf op n s).ps = s.ps := rfl
@[simp] theorem atLeaf_node (s : State) (op n : Nat) : (atLeaf op n s).node = s.rom.root := rfl
@[simp] theorem atLeaf_opidx (s : State) (op n : Nat) : (atLeaf op n s).opidx = op := rfl
@[simp] theorem atLeaf_mstep (s : State) (op n : Nat) : (atLeaf op n s).mstep = none := rfl
@[simp] theorem atLeaf_estate (s : State) (op n : Nat) : (atLeaf op n s).estate = .run .execute := rfl
@[simp] theorem atLeaf_fkind (s : State) (op n : Nat) : (atLeaf op n s).fkind = s.fkind := rfl
@[simp] theorem atLeaf_out (s : State) (op n : Nat) : (atLeaf op n s).out = s.out := rfl
@[simp] theorem atLeaf_rom (s : State) (op n : Nat) : (atLeaf op n s).rom = s.rom := rfl
@[simp] theorem atLeaf_rd (s : State) (op n : Nat) : (atLeaf op n s).rd = s.rd.advance n := rfl
@[simp] theorem atLeaf_host (s : State) (op n : Nat) : (atLeaf op n s).host = s.host := rfl
@[simp] theorem atLeaf_hostRest (s : State) (op n : Nat) : (atLeaf op n s).hostRest = s.hostRest := rfl
@[simp] theorem atLeaf_traceEn (s : State) (op n : Nat) : (atLeaf op n s).traceEn = s.traceEn := rfl
@[simp] theorem atLeaf_trace (s : State) (op n : Nat) : (atLeaf op n s).trace = s.trace := rfl
@[simp] theorem atLeaf_draws (s : State) (op n : Nat) : (atLeaf op n s).draws = s.draws := rfl

/-! ### placeBits -/

@[simp] theorem placeBits_ps (s : State) (bits : Bits) : (placeBits bits s).ps = ⟨s.ps.seg, s.ps.cur, false, s.ps.range⟩ := rfl
@[simp] theorem placeBits_node (s : State) (bits : Bits) : (placeBits bits s).node = s.rom.root := rfl
@[simp] theorem placeBits_opidx (s : State) (bits : Bits) : (placeBits bits s).opidx = s.opidx := rfl
@[simp] theorem placeBits_mstep (s : State) (bits : Bits) : (placeBits bits s).mstep = none := rfl
@[simp] theorem placeBits_estate (s : State) (bits : Bits) : (placeBits bits s).estate = .run .traverse := rfl
@[simp] theorem placeBits_fkind (s : State) (bits : Bits) : (placeBits bits s).fkind = .none := rfl
@[simp] theorem placeBits_out (s : State) (bits : Bits) : (placeBits bits s).out = s.out := rfl
@[simp] theorem placeBits_rom (s : State) (bits : Bits) : (placeBits bits s).rom = s.rom := rfl
@[simp] theorem placeBits_rd (s : State) (bits : Bits) : (placeBits bits s).rd = s.rd.onChunk ⟨bits, 0⟩ := rfl
@[simp] theorem placeBits_host (s : State) (bits : Bits) : (placeBits bits s).host = [] := rfl
@[simp] theorem placeBits_hostRest (s : State) (bits : Bits) : (placeBits bits s).hostRest = .quiet := rfl
@[simp] theorem placeBits_traceEn (s : State) (bits : Bits) : (placeBits bits s).traceEn = s.traceEn := rfl
@[simp] theorem placeBits_trace (s : State) (bits : Bits) : (placeBits bits s).trace = s.trace := rfl
@[simp] theorem placeBits_draws (s : State) (bits : Bits) : (placeBits bits s).draws = s.draws := rfl

/-! ### Segs and readers -/

@[simp] theorem Reader.advance_stream (r : Reader) (n : Nat) : (r.advance n).stream = r.stream := rfl
@[simp] theorem Reader.advance_pos (r : Reader) (n : Nat) : (r.advance n).pos = r.pos + n := rfl
@[simp] theorem Reader.advance_br (r : Reader) (n : Nat) : (r.advance n).br = r.br := rfl
@[simp] theorem Reader.onChunk_stream (r : Reader) (c : Chunk) : (r.onChunk c).stream = c.stream := rfl
@[simp] theorem Reader.onChunk_pos (r : Reader) (c : Chunk) : (r.onChunk c).pos = c.pos := rfl
@[simp] theorem Reader.onChunk_br (r : Reader) (c : Chunk) : (r.onChunk c).br = r.br := rfl
@[simp] theorem Reader.placed_none (r : Reader) : r.placed none = r := rfl
@[simp] theorem Reader.placed_some (r : Reader) (c : Chunk) : r.placed (some c) = r.onChunk c := rfl
@[simp] theorem PathState.setFin_seg (ps : PathState) : ps.setFin.seg = ps.seg := rfl
@[simp] theorem PathState.setFin_cur (ps : PathState) : ps.setFin.cur = ps.cur := rfl
@[simp] theorem PathState.setFin_fin (ps : PathState) : ps.setFin.fin = true := rfl
@[simp] theorem PathState.setFin_range (ps : PathState) : ps.setFin.range = ps.range := rfl
@[simp] theorem PathState.initial_cur (range : SegRange) : (PathState.initial range).cur = 0 := rfl
@[simp] theorem PathState.initial_fin (range : SegRange) : (PathState.initial range).fin = false := rfl
@[simp] theorem PathState.initial_range (range : SegRange) : (PathState.initial range).range = range := rfl
@[simp] theorem faultPath_range (range : SegRange) (draw : Nat) : (faultPath range draw).range = range := rfl

/-! ### SEG_MIN to SEG_MAX -/

/-- A range holds the values from SEG_MIN to SEG_MAX, as far as these are finite. -/
theorem SegRange.holds_iff {range : SegRange} {v : Int} :
    range.holds v = true ↔ (∀ n, range.below = some n → -1 - (n : Int) ≤ v) ∧ ∀ n, range.above = some n → v ≤ (n : Int) := by
  obtain ⟨below, above⟩ := range
  cases below <;> cases above <;> simp [SegRange.holds, SegRange.min, SegRange.max]

/-- Every range holds what START, a pop and a pushed 0 write. -/
theorem SegRange.holds_start (range : SegRange) : range.holds (-1) = true ∧ range.holds 0 = true := by
  simp only [SegRange.holds_iff]
  exact ⟨⟨fun n _ => by omega, fun n _ => by omega⟩, fun n _ => by omega, fun n _ => by omega⟩

@[simp] theorem SegRange.holds_zero (range : SegRange) : range.holds 0 = true := range.holds_start.2

/-- A range holds what lies between two values that it holds. -/
theorem SegRange.holds_between {range : SegRange} {a b v : Int} (ha : range.holds a = true) (hb : range.holds b = true)
    (h : a ≤ v) (k : v ≤ b) : range.holds v = true := by
  rw [SegRange.holds_iff] at *
  exact ⟨fun n hn => (ha.1 n hn).trans h, fun n hn => k.trans (hb.2 n hn)⟩

/-- The stated range. -/
theorem SegRange.holds_reference {v : Int} :
    SegRange.reference.holds v = true ↔ -2147483648 ≤ v ∧ v ≤ 2147483647 := by
  simp [SegRange.holds, SegRange.min, SegRange.max, SegRange.reference, Config.segMin, Config.segMax]

/-- Without bounds every value is in range. -/
theorem SegRange.holds_unbounded (v : Int) : SegRange.unbounded.holds v = true := rfl

/-- The nearest value of a range is in it. -/
theorem SegRange.holds_nearest (range : SegRange) (v : Int) : range.holds (range.nearest v) = true := by
  obtain ⟨below, above⟩ := range
  refine SegRange.holds_iff.mpr ⟨fun n hn => ?_, fun n hn => ?_⟩ <;> obtain rfl := hn
  · cases above <;> simp only [SegRange.nearest, SegRange.min, SegRange.max, Option.map_some, Option.map_none] <;>
      (repeat' split) <;> omega
  · cases below <;> simp only [SegRange.nearest, SegRange.min, SegRange.max, Option.map_some, Option.map_none] <;>
      (repeat' split) <;> omega

/-- A value of a range is its own nearest. -/
theorem SegRange.nearest_of_holds {range : SegRange} {v : Int} (h : range.holds v = true) : range.nearest v = v := by
  rw [SegRange.holds_iff] at h
  obtain ⟨below, above⟩ := range
  cases below <;> cases above <;> simp_all [SegRange.nearest, SegRange.min, SegRange.max] <;> omega

/-! ### Segment reads and writes -/

/-- A segment just written reads as what was written. -/
theorem Segs.get_set_self (g : Segs) (i : Nat) (v : Int) (h : i ≤ 5) : (g.set i v).get i = v := by
  interval_cases i <;> rfl

/-- A write leaves every other segment alone. -/
theorem Segs.get_set_ne (g : Segs) (i j : Nat) (v : Int) (h : j ≠ i) : (g.set i v).get j = g.get j := by
  unfold Segs.set
  split <;> unfold Segs.get <;> split <;> first | rfl | exact absurd rfl h

/-- There is no segment past 5. -/
theorem Segs.get_of_gt (g : Segs) (i : Nat) (h : 5 < i) : g.get i = 0 := by
  unfold Segs.get
  split <;> first | rfl | omega

/-- There is no segment past 5 to write. -/
theorem Segs.set_of_gt (g : Segs) (i : Nat) (v : Int) (h : 5 < i) : g.set i v = g := by
  unfold Segs.set
  split <;> first | rfl | omega

/-- Every read after a write. -/
theorem Segs.get_set (g : Segs) (i j : Nat) (v : Int) (h : i ≤ 5) :
    (g.set i v).get j = if j = i then v else g.get j := by
  split
  · subst_vars
    exact g.get_set_self _ v h
  · exact g.get_set_ne i j v ‹_›

/-- Two segment files that read the same are the same. -/
theorem Segs.ext_get (g h : Segs) (e : ∀ i, i ≤ 5 → g.get i = h.get i) : g = h := by
  cases g
  cases h
  have e0 := e 0 (by omega)
  have e1 := e 1 (by omega)
  have e2 := e 2 (by omega)
  have e3 := e 3 (by omega)
  have e4 := e 4 (by omega)
  have e5 := e 5 (by omega)
  simp only [Segs.get] at e0 e1 e2 e3 e4 e5
  subst_vars
  rfl

end Sys2Proof.Machine
end

