-- ==== Sys2Proof/Laws/Ops.lean ====
section
/-! SUPPORT. For each shared operation, everything it can do, said once: cite these instead of unfolding it. -/

namespace Sys2Proof.Machine

/-! ### Right-hand sides -/

@[simp] theorem evalExpr_constant (k : Int) (rd : Reader) : evalExpr (constant k) rd = some (k, rd) := rfl

theorem evalExpr_fieldPlus (q : Request) (bias : Int) (rd : Reader) :
    evalExpr (fieldPlus q bias) rd = (rd.request q).map fun (v, rd') => (v + bias, rd') := by
  simp only [evalExpr, fieldPlus]
  cases rd.request q <;> rfl

theorem evalExpr_of_read {q : Request} {bias v : Int} {rd rd' : Reader} (h : rd.request q = some (v, rd')) :
    evalExpr (fieldPlus q bias) rd = some (v + bias, rd') := by
  rw [evalExpr_fieldPlus, h]
  rfl

theorem evalExpr_of_exhausted {q : Request} {bias : Int} {rd : Reader} (h : rd.request q = none) :
    evalExpr (fieldPlus q bias) rd = none := by
  rw [evalExpr_fieldPlus, h]
  rfl

/-- A right-hand side leaves STREAM and BR alone and never moves POS backwards. -/
theorem evalExpr_reader {e : Expr} {rd rd' : Reader} {v : Int} (h : evalExpr e rd = some (v, rd')) :
    rd'.stream = rd.stream ∧ rd'.br = rd.br ∧ rd.pos ≤ rd'.pos := by
  unfold evalExpr at h
  split at h
  · simp only [Option.some.injEq, Prod.mk.injEq] at h
    obtain ⟨-, rfl⟩ := h
    exact ⟨rfl, rfl, le_refl _⟩
  · split at h
    · cases h
    · rename_i w r hr
      simp only [Option.some.injEq, Prod.mk.injEq] at h
      obtain ⟨-, rfl⟩ := h
      exact ⟨Reader.request_stream _ _ _ _ hr, Reader.request_br _ _ _ _ hr, Reader.request_pos _ _ _ _ hr⟩

/-! ### SEG writes -/

theorem writeSeg_ok_iff {i : Nat} {v : Int} {c c' : OpCtx} :
    writeSeg i v c = .ok c' ↔ c.ps.InRange v ∧ c' = ⟨{ c.ps with seg := c.ps.seg.set i v }, c.rd⟩ := by
  unfold writeSeg
  split
  · rename_i h
    exact ⟨fun e => ⟨h, (Except.ok.inj e).symm⟩, fun e => by rw [e.2]⟩
  · rename_i h
    exact ⟨fun e => (by cases e), fun e => absurd e.1 h⟩

theorem writeSeg_error_iff {i : Nat} {v : Int} {c : OpCtx} {f : FaultInfo} :
    writeSeg i v c = .error f ↔ ¬c.ps.InRange v ∧ f = .segmentRange i v := by
  unfold writeSeg
  split
  · rename_i h
    exact ⟨fun e => (by cases e), fun e => absurd h e.1⟩
  · rename_i h
    exact ⟨fun e => ⟨h, (Except.error.inj e).symm⟩, fun e => by rw [e.2]⟩

theorem addSeg_ok_iff {i : Nat} {e : Expr} {c c' : OpCtx} :
    addSeg i e c = .ok c' ↔
      ∃ v rd, evalExpr e c.rd = some (v, rd) ∧ c.ps.InRange (c.ps.seg.get i + v) ∧ c' = ⟨c.ps.added i v, rd⟩ := by
  unfold addSeg
  cases h : evalExpr e c.rd with
  | none => simp
  | some p =>
    obtain ⟨v, rd⟩ := p
    simp only [writeSeg_ok_iff, PathState.added, Option.some.injEq, Prod.mk.injEq]
    constructor
    · exact fun h => ⟨v, rd, ⟨rfl, rfl⟩, h⟩
    · rintro ⟨_, _, ⟨rfl, rfl⟩, h⟩
      exact h

theorem addSeg_error_iff {i : Nat} {e : Expr} {c : OpCtx} {f : FaultInfo} :
    addSeg i e c = .error f ↔
      (evalExpr e c.rd = none ∧ f = .malformedStream) ∨
      ∃ v rd, evalExpr e c.rd = some (v, rd) ∧ ¬c.ps.InRange (c.ps.seg.get i + v) ∧
        f = .segmentRange i (c.ps.seg.get i + v) := by
  unfold addSeg
  cases h : evalExpr e c.rd with
  | none => simp [eq_comm (a := f)]
  | some p =>
    obtain ⟨v, rd⟩ := p
    simp only [writeSeg_error_iff, Option.some.injEq, Prod.mk.injEq, reduceCtorEq, false_and, false_or]
    constructor
    · exact fun h => ⟨v, rd, ⟨rfl, rfl⟩, h⟩
    · rintro ⟨_, _, ⟨rfl, rfl⟩, h⟩
      exact h

theorem addSeg_of_eval {i : Nat} {e : Expr} {c : OpCtx} {v : Int} {rd : Reader}
    (h : evalExpr e c.rd = some (v, rd)) (hr : c.ps.InRange (c.ps.seg.get i + v)) :
    addSeg i e c = .ok ⟨c.ps.added i v, rd⟩ :=
  addSeg_ok_iff.mpr ⟨v, rd, h, hr, rfl⟩

theorem addSeg_of_overrange {i : Nat} {e : Expr} {c : OpCtx} {v : Int} {rd : Reader}
    (h : evalExpr e c.rd = some (v, rd)) (hr : ¬c.ps.InRange (c.ps.seg.get i + v)) :
    addSeg i e c = .error (.segmentRange i (c.ps.seg.get i + v)) :=
  addSeg_error_iff.mpr (.inr ⟨v, rd, h, hr, rfl⟩)

theorem addSeg_of_exhausted {i : Nat} {e : Expr} {c : OpCtx} (h : evalExpr e c.rd = none) :
    addSeg i e c = .error .malformedStream :=
  addSeg_error_iff.mpr (.inl ⟨h, rfl⟩)

/-! ### Push -/

theorem enter_ok_iff {c c' : OpCtx} :
    enter c = .ok c' ↔ c.ps.cur ≤ 4 ∧ c' = ⟨{ c.ps with cur := c.ps.cur + 1 }, c.rd⟩ := by
  unfold enter Config.maxDepth
  split <;> simp [eq_comm] <;> omega

theorem enter_error_iff {c : OpCtx} {f : FaultInfo} :
    enter c = .error f ↔ 5 ≤ c.ps.cur ∧ f = .pathOverflow c.ps.cur := by
  unfold enter Config.maxDepth
  split <;> simp [eq_comm] <;> omega

theorem setTop_ok_iff {e : Expr} {c c' : OpCtx} :
    setTop e c = .ok c' ↔
      ∃ v rd, evalExpr e c.rd = some (v, rd) ∧ c.ps.InRange v ∧
        c' = ⟨{ c.ps with seg := c.ps.seg.set c.ps.cur v }, rd⟩ := by
  unfold setTop
  cases h : evalExpr e c.rd with
  | none => simp
  | some p =>
    obtain ⟨v, rd⟩ := p
    simp only [writeSeg_ok_iff, Option.some.injEq, Prod.mk.injEq]
    constructor
    · exact fun h => ⟨v, rd, ⟨rfl, rfl⟩, h⟩
    · rintro ⟨_, _, ⟨rfl, rfl⟩, h⟩
      exact h

theorem setTop_error_iff {e : Expr} {c : OpCtx} {f : FaultInfo} :
    setTop e c = .error f ↔
      (evalExpr e c.rd = none ∧ f = .malformedStream) ∨
      ∃ v rd, evalExpr e c.rd = some (v, rd) ∧ ¬c.ps.InRange v ∧ f = .segmentRange c.ps.cur v := by
  unfold setTop
  cases h : evalExpr e c.rd with
  | none => simp [eq_comm (a := f)]
  | some p =>
    obtain ⟨v, rd⟩ := p
    simp only [writeSeg_error_iff, Option.some.injEq, Prod.mk.injEq, reduceCtorEq, false_and, false_or]
    constructor
    · exact fun h => ⟨v, rd, ⟨rfl, rfl⟩, h⟩
    · rintro ⟨_, _, ⟨rfl, rfl⟩, h⟩
      exact h

theorem push_ok_iff {e : Expr} {c c' : OpCtx} :
    push e c = .ok c' ↔
      c.ps.cur ≤ 4 ∧ ∃ v rd, evalExpr e c.rd = some (v, rd) ∧ c.ps.InRange v ∧ c' = ⟨c.ps.pushed v, rd⟩ := by
  unfold push
  cases h : enter c with
  | error f =>
    have := enter_error_iff.mp h
    constructor
    · intro h'
      cases h'
    · intro h'
      omega
  | ok d =>
    obtain ⟨hc, rfl⟩ := enter_ok_iff.mp h
    simp [setTop_ok_iff, PathState.pushed, hc]

theorem push_of_full {e : Expr} {c : OpCtx} (h : 5 ≤ c.ps.cur) : push e c = .error (.pathOverflow c.ps.cur) := by
  simp [push, enter_error_iff.mpr ⟨h, rfl⟩]

theorem pushTimes_succ_of_push {n : Nat} {e : Expr} {c c' : OpCtx} (h : push e c = .ok c') :
    pushTimes (n + 1) e c = pushTimes n e c' := by
  simp [pushTimes, h]

/-! ### Pop -/

theorem popLevels_spec (n : Nat) (ps : PathState) (h : n ≤ ps.cur) : popLevels n ps = ps.popped n := by
  induction n generalizing ps with
  | zero =>
    have : ∀ i, poppedSeg ps 0 i = ps.seg.get i := by
      intro i
      unfold poppedSeg
      split
      · omega
      · rfl
    simp only [popLevels, PathState.popped, this, Nat.sub_zero]
    rfl
  | succ n ih =>
    rw [popLevels, ih _ (by simp only; omega)]
    have key : ∀ i, i ≤ 5 → poppedSeg { ps with seg := ps.seg.set ps.cur 0, cur := ps.cur - 1 } n i =
        poppedSeg ps (n + 1) i := by
      intro i hi
      simp only [poppedSeg]
      by_cases h1 : i = ps.cur
      · subst h1
        rw [if_neg (by omega), if_pos (by omega), Segs.get_set_self _ _ _ hi]
      · rw [Segs.get_set_ne _ _ _ _ h1]
        by_cases h2 : ps.cur - 1 - n < i ∧ i ≤ ps.cur - 1
        · rw [if_pos h2, if_pos (by omega)]
        · rw [if_neg h2, if_neg (by omega)]
    simp only [PathState.popped, key 0 (by omega), key 1 (by omega), key 2 (by omega), key 3 (by omega),
      key 4 (by omega), key 5 (by omega)]
    congr 1
    omega

theorem pop_ok_iff {n : Nat} {c c' : OpCtx} : pop n c = .ok c' ↔ n ≤ c.ps.cur ∧ c' = ⟨c.ps.popped n, c.rd⟩ := by
  unfold pop
  split
  · simp
    omega
  · rename_i h
    rw [popLevels_spec n c.ps (by omega)]
    simp [eq_comm]
    omega

theorem pop_error_iff {n : Nat} {c : OpCtx} {f : FaultInfo} :
    pop n c = .error f ↔ c.ps.cur < n ∧ f = .pathUnderflow c.ps.cur n := by
  unfold pop
  split <;> simp [eq_comm] <;> omega

theorem popRead_ok_iff {q : Request} {c c' : OpCtx} :
    popRead q c = .ok c' ↔
      ∃ n rd, c.rd.request q = some (n, rd) ∧ n.toNat ≤ c.ps.cur ∧ c' = ⟨c.ps.popped n.toNat, rd⟩ := by
  unfold popRead
  cases h : c.rd.request q with
  | none => simp
  | some p =>
    obtain ⟨v, rd⟩ := p
    simp only [pop_ok_iff, Option.some.injEq, Prod.mk.injEq]
    constructor
    · exact fun h => ⟨v, rd, ⟨rfl, rfl⟩, h⟩
    · rintro ⟨_, _, ⟨rfl, rfl⟩, h⟩
      exact h

theorem popRead_error_iff {q : Request} {c : OpCtx} {f : FaultInfo} :
    popRead q c = .error f ↔
      (c.rd.request q = none ∧ f = .malformedStream) ∨
      ∃ n rd, c.rd.request q = some (n, rd) ∧ c.ps.cur < n.toNat ∧ f = .pathUnderflow c.ps.cur n.toNat := by
  unfold popRead
  cases h : c.rd.request q with
  | none => simp [eq_comm]
  | some p =>
    obtain ⟨v, rd⟩ := p
    simp only [pop_error_iff, Option.some.injEq, Prod.mk.injEq, reduceCtorEq, false_and, false_or]
    constructor
    · exact fun h => ⟨v, rd, ⟨rfl, rfl⟩, h⟩
    · rintro ⟨_, _, ⟨rfl, rfl⟩, h⟩
      exact h

/-- The levels below the cursor read as before after a pop. -/
theorem popped_get (ps : PathState) (n i : Nat) (h : i ≤ ps.cur - n) : (ps.popped n).seg.get i = ps.seg.get i := by
  by_cases hi : i ≤ 5
  · have : poppedSeg ps n i = ps.seg.get i := by
      unfold poppedSeg
      rw [if_neg (by omega)]
    interval_cases i <;> exact this
  · rw [Segs.get_of_gt _ _ (by omega), Segs.get_of_gt _ _ (by omega)]

/-! ### Penultimate adjust -/

theorem addPenultimate_ok_iff {c c' : OpCtx} :
    addPenultimate c = .ok c' ↔
      1 ≤ c.ps.cur ∧ c.ps.InRange (c.ps.seg.get (c.ps.cur - 1) + 1) ∧ c' = ⟨c.ps.added (c.ps.cur - 1) 1, c.rd⟩ := by
  unfold addPenultimate
  split
  · simp
    omega
  · simp [writeSeg_ok_iff, PathState.added]
    omega

theorem addPenultimate_error_iff {c : OpCtx} {f : FaultInfo} :
    addPenultimate c = .error f ↔
      (c.ps.cur = 0 ∧ f = .pathUnderflow 0 1) ∨
      (1 ≤ c.ps.cur ∧ ¬c.ps.InRange (c.ps.seg.get (c.ps.cur - 1) + 1) ∧
        f = .segmentRange (c.ps.cur - 1) (c.ps.seg.get (c.ps.cur - 1) + 1)) := by
  unfold addPenultimate
  split
  · rename_i h
    simp [h, eq_comm (a := f)]
  · rename_i h
    simp [writeSeg_error_iff, h]
    omega

/-! ### Micro-steps in order -/

@[simp] theorem runMicros_nil (c : OpCtx) : runMicros [] c = .ok c := rfl

theorem runMicros_cons_ok {m : Micro} {ms : List Micro} {c c' : OpCtx} (h : runMicro m c = .ok c') :
    runMicros (m :: ms) c = runMicros ms c' := by
  simp [runMicros, h]

theorem runMicros_cons_error {m : Micro} {ms : List Micro} {c : OpCtx} {f : FaultInfo} (h : runMicro m c = .error f) :
    runMicros (m :: ms) c = .error f := by
  simp [runMicros, h]

/-- The two halves of a push, one after the other, are a push. -/
theorem runMicros_push (e : Expr) (ms : List Micro) (c : OpCtx) :
    runMicros (.enter :: .setTop e :: ms) c =
      match push e c with
      | .error f => .error f
      | .ok c' => runMicros ms c' := by
  simp only [runMicros, runMicro, push]
  cases enter c <;> rfl

/-- A property that each micro-step of a list keeps, the list keeps. -/
theorem runMicros_keeps (P : OpCtx → Prop) (ms : List Micro)
    (step : ∀ m ∈ ms, ∀ c c', P c → runMicro m c = .ok c' → P c') (c c' : OpCtx) (hP : P c)
    (h : runMicros ms c = .ok c') : P c' := by
  induction ms generalizing c with
  | nil =>
    simp only [runMicros_nil, Except.ok.injEq] at h
    exact h ▸ hP
  | cons m ms ih =>
    simp only [runMicros] at h
    split at h
    · cases h
    · rename_i d hd
      exact ih (fun m' hm' => step m' (List.mem_cons_of_mem _ hm')) d
        (step m (List.mem_cons_self ..) c d hP hd) h

/-! ### Running operations -/

/-- Every meaning is its micro-steps, run as one operation. -/
theorem exec_eq_runOperation (i : Instr) (s : State) : exec i s = runOperation (program i) s := by
  cases i <;> rfl

/-- The end of an operation that completes: what it leaves of the path state and the reader, and the rest as
`State.completed` says. -/
theorem runOperation_completed {ms : List Micro} {s : State} {c : OpCtx}
    (h : runMicros ms ⟨s.ps, s.rd⟩ = .ok c) (hf : c.ps.fin = false) :
    runOperation ms s = .next (s.completed c.ps c.rd) := by
  simp only [runOperation, resume, traceBefore_ps, traceBefore_rd, h, finishOperation, hf]
  simp only [State.completed, State.opTrace, traceBefore, traceAfter, traced, Host.Outcome.next.injEq]
  by_cases hb : s.traceEn = true <;> simp [hb, hf]

/-- The end of an operation that raises a fault. -/
theorem runOperation_faulted {ms : List Micro} {s : State} {f : FaultInfo}
    (h : runMicros ms ⟨s.ps, s.rd⟩ = .error f) : runOperation ms s = .next (s.faultedBy f) := by
  simp only [runOperation, resume, traceBefore_ps, traceBefore_rd, h]
  simp only [State.faultedBy, State.unspecified, State.opTrace, traceBefore, traced, raiseFault, faultPath,
    Host.Outcome.next.injEq]
  by_cases hb : s.traceEn = true <;> simp [hb]

/-- Taking a fault outside an operation. -/
theorem raiseFault_eq_taking (f : FaultInfo) (s : State) : raiseFault f s = s.taking f := by
  simp only [raiseFault, State.taking, State.unspecified, traced, faultPath]
  by_cases hb : s.traceEn = true <;> simp [hb]

/-- An operation gives a next state from every state. -/
theorem resume_total (ms : List Micro) (s : State) : ∃ t, resume ms s = .next t := by
  unfold resume
  split <;> exact ⟨_, rfl⟩

/-- What the rest of an operation can do. -/
theorem resume_cases {ms : List Micro} {s t : State} (h : resume ms s = .next t) :
    (∃ c, runMicros ms ⟨s.ps, s.rd⟩ = .ok c ∧ t = finishOperation { s with ps := c.ps, rd := c.rd }) ∨
    (∃ f, runMicros ms ⟨s.ps, s.rd⟩ = .error f ∧ t = raiseFault f s) := by
  unfold resume at h
  split at h
  · rename_i c hc
    simp only [Host.Outcome.next.injEq] at h
    exact .inl ⟨c, hc, h.symm⟩
  · rename_i f hf
    simp only [Host.Outcome.next.injEq] at h
    exact .inr ⟨f, hf, h.symm⟩

end Sys2Proof.Machine
end

