-- ==== Sys2Proof/Laws/Micro.lean ====
section
/-! SUPPORT. What micro-steps do: to the reader, to the invariant of the path state, and, loop pass by loop pass, to the rest
of the operation (`microTick`). -/

namespace Sys2Proof.Machine

/-! ### The path states that the claims speak of -/

@[simp] theorem added_cur (ps : PathState) (i : Nat) (v : Int) : (ps.added i v).cur = ps.cur := rfl
@[simp] theorem added_fin (ps : PathState) (i : Nat) (v : Int) : (ps.added i v).fin = ps.fin := rfl
@[simp] theorem pushed_cur (ps : PathState) (v : Int) : (ps.pushed v).cur = ps.cur + 1 := rfl
@[simp] theorem pushed_fin (ps : PathState) (v : Int) : (ps.pushed v).fin = ps.fin := rfl
@[simp] theorem popped_cur (ps : PathState) (n : Nat) : (ps.popped n).cur = ps.cur - n := rfl
@[simp] theorem popped_fin (ps : PathState) (n : Nat) : (ps.popped n).fin = ps.fin := rfl
@[simp] theorem adjusted_cur (ps : PathState) (gs : List (Option Int)) (b : Int) :
      (ps.adjusted gs b).cur = ps.cur := rfl
@[simp] theorem adjusted_fin (ps : PathState) (gs : List (Option Int)) (b : Int) :
      (ps.adjusted gs b).fin = ps.fin := rfl

@[simp] theorem added_range (ps : PathState) (i : Nat) (v : Int) : (ps.added i v).range = ps.range := rfl
@[simp] theorem pushed_range (ps : PathState) (v : Int) : (ps.pushed v).range = ps.range := rfl
@[simp] theorem popped_range (ps : PathState) (n : Nat) : (ps.popped n).range = ps.range := rfl
@[simp] theorem adjusted_range (ps : PathState) (gs : List (Option Int)) (b : Int) :
      (ps.adjusted gs b).range = ps.range := rfl

@[simp] theorem pushedAll_range (ps : PathState) (vs : List Int) : (ps.pushedAll vs).range = ps.range := by
  induction vs generalizing ps with
  | nil => rfl
  | cons v vs ih => exact (ih _).trans rfl

@[simp] theorem pushedAll_cur (ps : PathState) (vs : List Int) : (ps.pushedAll vs).cur = ps.cur + vs.length := by
  induction vs generalizing ps with
  | nil => rfl
  | cons v vs ih => simpa [PathState.pushedAll, Nat.add_comm, Nat.add_left_comm] using ih (ps.pushed v)

@[simp] theorem pushedAll_fin (ps : PathState) (vs : List Int) : (ps.pushedAll vs).fin = ps.fin := by
  induction vs generalizing ps with
  | nil => rfl
  | cons v vs ih => exact (ih _).trans rfl

/-! ### Single micro-steps on a given path state and reader -/

theorem runMicros_single {m : Micro} {c c' : OpCtx} (h : runMicro m c = .ok c') : runMicros [m] c = .ok c' := by
  rw [runMicros_cons_ok h]
  rfl

theorem runMicro_addTop_of_eval {e : Expr} {ps : PathState} {r rd : Reader} {v : Int} (h : evalExpr e r = some (v, rd))
    (hr : ps.InRange (ps.seg.get ps.cur + v)) : runMicro (.addTop e) ⟨ps, r⟩ = .ok ⟨ps.added ps.cur v, rd⟩ :=
  addSeg_of_eval (c := ⟨ps, r⟩) h hr

theorem runMicro_addTop_of_overrange {e : Expr} {ps : PathState} {r rd : Reader} {v : Int}
    (h : evalExpr e r = some (v, rd)) (hr : ¬ps.InRange (ps.seg.get ps.cur + v)) :
    runMicro (.addTop e) ⟨ps, r⟩ = .error (.segmentRange ps.cur (ps.seg.get ps.cur + v)) :=
  addSeg_of_overrange (c := ⟨ps, r⟩) h hr

theorem runMicro_addTop_of_exhausted {e : Expr} {ps : PathState} {r : Reader} (h : evalExpr e r = none) :
    runMicro (.addTop e) ⟨ps, r⟩ = .error .malformedStream :=
  addSeg_of_exhausted (c := ⟨ps, r⟩) h

theorem push_of_eval {e : Expr} {c : OpCtx} {v : Int} {rd : Reader} (hc : c.ps.cur ≤ 4)
    (h : evalExpr e c.rd = some (v, rd)) (hr : c.ps.InRange v) : push e c = .ok ⟨c.ps.pushed v, rd⟩ :=
  push_ok_iff.mpr ⟨hc, v, rd, h, hr, rfl⟩

/-- A push written n times over is `pushTimes n`. -/
theorem runMicros_pushTimes (e : Expr) : ∀ (n : Nat) (c : OpCtx),
    runMicros (List.replicate n [Micro.enter, .setTop e]).flatten c = pushTimes n e c
  | 0, c => rfl
  | n + 1, c => by
    simp only [List.replicate_succ, List.flatten_cons, List.cons_append, List.nil_append, runMicros_push, pushTimes]
    cases push e c with
    | error f => rfl
    | ok c' => exact runMicros_pushTimes e n c'

/-- Several pushes of fields that can be read, whose values are in range, and for which there is depth to spare. -/
theorem pushTimes_of_requests {q : Request} : ∀ (n : Nat) (c : OpCtx) (vs : List Int) (r : Reader),
    c.ps.cur + n ≤ 5 → Reader.requests q n c.rd = some (vs, r) → (∀ v ∈ vs, c.ps.InRange v) →
    pushTimes n (fieldPlus q 0) c = .ok ⟨c.ps.pushedAll vs, r⟩
  | 0, c, vs, r, hc, h, hv => by
    simp only [Reader.requests, Option.some.injEq, Prod.mk.injEq] at h
    obtain ⟨rfl, rfl⟩ := h
    rfl
  | n + 1, c, vs, r, hc, h, hv => by
    simp only [Reader.requests] at h
    split at h
    · cases h
    rename_i v r1 h1
    split at h
    · cases h
    rename_i ws r2 h2
    simp only [Option.some.injEq, Prod.mk.injEq] at h
    obtain ⟨rfl, rfl⟩ := h
    have h0 : push (fieldPlus q 0) c = .ok ⟨c.ps.pushed (v + 0), r1⟩ :=
      push_of_eval (by omega) (evalExpr_of_read h1) (by simpa using hv v (by simp))
    rw [pushTimes_succ_of_push h0, Int.add_zero]
    exact pushTimes_of_requests n _ ws r2 (by simp; omega) h2 fun w hw => hv w (by simp [hw])

/-! ### The guard loop -/

/-- What the guards of a loop that starts at level i add to level j. -/
def deltaFrom (gs : List (Option Int)) (bias : Int) (i j : Nat) : Int := if i ≤ j then guardDelta gs bias (j - i) else 0

/-- The path state after such a loop. -/
def adjFrom (ps : PathState) (gs : List (Option Int)) (bias : Int) (i : Nat) : PathState :=
  { ps with
    seg := ⟨ps.seg.get 0 + deltaFrom gs bias i 0, ps.seg.get 1 + deltaFrom gs bias i 1,
      ps.seg.get 2 + deltaFrom gs bias i 2, ps.seg.get 3 + deltaFrom gs bias i 3,
      ps.seg.get 4 + deltaFrom gs bias i 4, ps.seg.get 5 + deltaFrom gs bias i 5⟩ }

theorem get_adjFrom (ps : PathState) (gs : List (Option Int)) (bias : Int) (i j : Nat) (hj : j ≤ 5) :
      (adjFrom ps gs bias i).seg.get j = ps.seg.get j + deltaFrom gs bias i j := by
  interval_cases j <;> rfl

/-- A guard loop whose guards and fields can be read, and whose sums are in range. -/
theorem guardLevels_of_guards {q : Request} {bias : Int} : ∀ (k i : Nat) (c : OpCtx) (gs : List (Option Int))
      (r : Reader),
    i + k ≤ 6 → Reader.guards q k c.rd = some (gs, r) →
    (∀ j x, gs[j]? = some (some x) → c.ps.InRange (c.ps.seg.get (i + j) + (x + bias))) →
    guardLevels k i (fieldPlus q bias) c = .ok ⟨adjFrom c.ps gs bias i, r⟩
  | 0, i, c, gs, r, hi, h, hr => by
    simp only [Reader.guards, Option.some.injEq, Prod.mk.injEq] at h
    obtain ⟨rfl, rfl⟩ := h
    have : adjFrom c.ps [] bias i = c.ps := by
      simp [adjFrom, deltaFrom, guardDelta, Segs.get]
    simp [guardLevels, this]
  | k + 1, i, c, gs, r, hi, h, hr => by
    simp only [Reader.guards] at h
    split at h
    · cases h
    rename_i g r1 h1
    split at h
    · rename_i hg
      split at h
      · cases h
      rename_i x r2 h2
      split at h
      · cases h
      rename_i gs' r3 h3
      simp only [Option.some.injEq, Prod.mk.injEq] at h
      obtain ⟨rfl, rfl⟩ := h
      have hx := hr 0 x (by simp)
      have ha := addSeg_of_eval (i := i) (c := ⟨c.ps, r1⟩) (evalExpr_of_read (bias := bias) h2) (by simpa using hx)
      simp only [guardLevels, h1, hg, if_true, ha]
      rw [guardLevels_of_guards k (i+1) _ gs' r3 (by omega) h3]
      · congr 2
        have : (adjFrom (c.ps.added i (x + bias)) gs' bias (i + 1)).seg = (adjFrom c.ps (some x :: gs') bias i).seg := by
          apply Segs.ext_get
          intro j hj
          rw [get_adjFrom _ _ _ _ _ hj, get_adjFrom _ _ _ _ _ hj]
          simp only [PathState.added]
          rw [Segs.get_set _ _ _ _ (by omega)]
          by_cases hji : j = i
          · subst hji; simp [deltaFrom, guardDelta]
          · by_cases hlt : i + 1 ≤ j
            · have e : j - i = (j - (i+1)) + 1 := by omega
              have h0 : i ≤ j := by omega
              simp [deltaFrom, hji, hlt, h0, e, guardDelta]
            · have h0 : ¬ i ≤ j := by omega
              simp [deltaFrom, hji, hlt, h0]
        show PathState.mk _ _ _ _ = PathState.mk _ _ _ _
        simp only [adjFrom] at this ⊢
        rw [this]; rfl
      · intro j y hy
        have := hr (j+1) y (by simpa using hy)
        simp only [PathState.added]
        rw [Segs.get_set_ne _ _ _ _ (by omega)]
        simpa [Nat.add_assoc, Nat.add_comm 1 j] using this
    · rename_i hg
      split at h
      · cases h
      rename_i gs' r3 h3
      simp only [Option.some.injEq, Prod.mk.injEq] at h
      obtain ⟨rfl, rfl⟩ := h
      simp only [guardLevels, h1, hg, if_false]
      rw [guardLevels_of_guards k (i+1) _ gs' r3 (by omega) h3]
      · congr 2
        have : ∀ j, deltaFrom gs' bias (i+1) j = deltaFrom (none :: gs') bias i j := by
          intro j
          by_cases hji : j = i
          · subst hji; simp [deltaFrom, guardDelta]
          · by_cases hlt : i + 1 ≤ j
            · have e : j - i = (j - (i+1)) + 1 := by omega
              have h0 : i ≤ j := by omega
              simp [deltaFrom, hlt, h0, e, guardDelta]
            · have h0 : ¬ i ≤ j := by omega
              simp [deltaFrom, hlt, h0]
        simp only [adjFrom, this]
      · intro j y hy
        have := hr (j+1) y (by simpa using hy)
        simpa [Nat.add_assoc, Nat.add_comm 1 j] using this

/-- From level 0 on it is the adjustment that the claims speak of. -/
theorem adjFrom_zero (ps : PathState) (gs : List (Option Int)) (bias : Int) :
      adjFrom ps gs bias 0 = ps.adjusted gs bias := by
  simp [adjFrom, deltaFrom, PathState.adjusted]

/-! ### The reader only moves on -/

/-- The reader of c' is the reader of c, moved on: STREAM and BR are the same and POS is not smaller (R30, R52);
and SEG_MIN and SEG_MAX are the same. -/
def Onward (c c' : OpCtx) : Prop :=
  c'.rd.stream = c.rd.stream ∧ c'.rd.br = c.rd.br ∧ c.rd.pos ≤ c'.rd.pos ∧ c'.ps.range = c.ps.range

theorem Onward.refl (c : OpCtx) : Onward c c := ⟨rfl, rfl, le_refl _, rfl⟩

theorem Onward.trans {a b c : OpCtx} (h : Onward a b) (k : Onward b c) : Onward a c :=
  ⟨k.1.trans h.1, k.2.1.trans h.2.1, h.2.2.1.trans k.2.2.1, k.2.2.2.trans h.2.2.2⟩

theorem Onward.of_eval {e : Expr} {c : OpCtx} {v : Int} {rd : Reader} {ps : PathState}
    (h : evalExpr e c.rd = some (v, rd)) (hr : ps.range = c.ps.range) : Onward c ⟨ps, rd⟩ :=
  have k := evalExpr_reader h
  ⟨k.1, k.2.1, k.2.2, hr⟩

theorem addSeg_onward {i e} {c c' : OpCtx} (h : addSeg i e c = .ok c') : Onward c c' := by
  obtain ⟨v, rd, h1, -, rfl⟩ := addSeg_ok_iff.mp h
  exact Onward.of_eval h1 rfl

theorem push_onward {e} {c c' : OpCtx} (h : push e c = .ok c') : Onward c c' := by
  obtain ⟨-, v, rd, h1, -, rfl⟩ := push_ok_iff.mp h
  exact Onward.of_eval h1 rfl

theorem request_onward {q v rd} {c : OpCtx} (h : c.rd.request q = some (v, rd)) {ps}
    (hr : ps.range = c.ps.range) : Onward c ⟨ps, rd⟩ :=
  ⟨Reader.request_stream _ _ _ _ h, Reader.request_br _ _ _ _ h, Reader.request_pos _ _ _ _ h, hr⟩

theorem pushTimes_onward : ∀ (n e) (c c' : OpCtx), pushTimes n e c = .ok c' → Onward c c'
  | 0, e, c, c', h => by simp only [pushTimes, Except.ok.injEq] at h; subst h; exact .refl _
  | n+1, e, c, c', h => by
    simp only [pushTimes] at h
    split at h
    · cases h
    · rename_i d hd; exact (push_onward hd).trans (pushTimes_onward _ _ _ _ h)

theorem guardLevels_onward : ∀ (k i e) (c c' : OpCtx), guardLevels k i e c = .ok c' → Onward c c'
  | 0, i, e, c, c', h => by simp only [guardLevels, Except.ok.injEq] at h; subst h; exact .refl _
  | k+1, i, e, c, c', h => by
    simp only [guardLevels] at h
    split at h
    · cases h
    rename_i g rd hr
    have h0 := request_onward hr (ps := c.ps) rfl
    split at h
    · split at h
      · cases h
      · rename_i d hd; exact (h0.trans (addSeg_onward hd)).trans (guardLevels_onward _ _ _ _ _ h)
    · exact h0.trans (guardLevels_onward _ _ _ _ _ h)

theorem runMicro_onward {m} {c c' : OpCtx} (h : runMicro m c = .ok c') : Onward c c' := by
  cases m with
  | addTop e => exact addSeg_onward h
  | addRoot e => exact addSeg_onward h
  | addPenultimate => obtain ⟨-, -, rfl⟩ := addPenultimate_ok_iff.mp h; exact ⟨rfl, rfl, le_refl _, rfl⟩
  | enter => obtain ⟨-, rfl⟩ := enter_ok_iff.mp h; exact ⟨rfl, rfl, le_refl _, rfl⟩
  | setTop e => obtain ⟨v, rd, h1, -, rfl⟩ := setTop_ok_iff.mp h; exact Onward.of_eval h1 rfl
  | pop n => obtain ⟨-, rfl⟩ := pop_ok_iff.mp h; exact ⟨rfl, rfl, le_refl _, rfl⟩
  | popAll => obtain ⟨-, rfl⟩ := pop_ok_iff.mp h; exact ⟨rfl, rfl, le_refl _, rfl⟩
  | popRead q => obtain ⟨n, rd, h1, -, rfl⟩ := popRead_ok_iff.mp h; exact request_onward h1 rfl
  | countPush inc e =>
    simp only [runMicro, countPush] at h
    split at h
    · cases h
    rename_i n rd hr
    have h0 := request_onward hr (ps := c.ps) rfl
    split at h
    · exact h0.trans (pushTimes_onward _ _ _ _ h)
    · split at h
      · cases h
      · rename_i d hd; exact (h0.trans (addSeg_onward hd)).trans (pushTimes_onward _ _ _ _ h)
  | pushes n e => exact pushTimes_onward _ _ _ _ h
  | guardLoop e => exact guardLevels_onward _ _ _ _ _ h
  | guardsLeft k i e => exact guardLevels_onward _ _ _ _ _ h
  | addLevel i e => exact addSeg_onward h
  | setFin => simp only [runMicro, Except.ok.injEq] at h; subst h; exact .refl _

theorem runMicros_onward : ∀ (ms) (c c' : OpCtx), runMicros ms c = .ok c' → Onward c c'
  | [], c, c', h => by simp only [runMicros_nil, Except.ok.injEq] at h; subst h; exact .refl _
  | m :: ms, c, c', h => by
    simp only [runMicros] at h
    split at h
    · cases h
    · rename_i d hd; exact (runMicro_onward hd).trans (runMicros_onward _ _ _ h)

theorem microTick_onward {m : Micro} {rest left : List Micro} {c c' : OpCtx} (h : microTick m rest c = .ok
      (c', left)) : Onward c c' := by
  have pl : ∀ m, plainMicro m rest c = .ok (c', left) → Onward c c' := by
    intro m h
    unfold plainMicro at h
    split at h
    · cases h
    · rename_i d hd
      simp only [Except.ok.injEq, Prod.mk.injEq] at h
      obtain ⟨rfl, rfl⟩ := h
      exact runMicro_onward hd
  cases m
  case countPush inc e =>
    simp only [microTick] at h
    split at h
    · cases h
    rename_i n rd hr
    split at h <;> (simp only [Except.ok.injEq, Prod.mk.injEq] at h; obtain ⟨rfl, rfl⟩ := h; exact request_onward hr rfl)
  case pushes n e =>
    cases n <;> (simp only [microTick, Except.ok.injEq, Prod.mk.injEq] at h; obtain ⟨rfl, rfl⟩ := h; exact .refl _)
  case guardLoop e =>
    simp only [microTick, Except.ok.injEq, Prod.mk.injEq] at h; obtain ⟨rfl, rfl⟩ := h; exact .refl _
  case guardsLeft k i e =>
    cases k with
    | zero => simp only [microTick, Except.ok.injEq, Prod.mk.injEq] at h; obtain ⟨rfl, rfl⟩ := h; exact .refl _
    | succ k =>
      simp only [microTick] at h
      split at h
      · cases h
      rename_i n rd hr
      split at h <;> (simp only [Except.ok.injEq, Prod.mk.injEq] at h; obtain ⟨rfl, rfl⟩ := h; exact request_onward hr rfl)
  case setFin => exact pl .setFin h
  all_goals exact pl _ h

/-! ### One tick inside an operation -/

/-- A micro-step that ticks on leaves the rest of the operation the same. -/
theorem microTick_ok {m : Micro} {rest left : List Micro} {c c' : OpCtx} (h : microTick m rest c = .ok (c', left)) :
    runMicros (m :: rest) c = runMicros left c' := by
  have pl : ∀ m, plainMicro m rest c = .ok (c', left) → runMicros (m :: rest) c = runMicros left c' := by
    intro m h
    unfold plainMicro at h
    split at h
    · cases h
    · rename_i d hd
      simp only [Except.ok.injEq, Prod.mk.injEq] at h
      obtain ⟨rfl, rfl⟩ := h
      exact runMicros_cons_ok hd
  unfold microTick at h
  split at h
  all_goals try exact pl _ h
  · split at h
    · cases h
    rename_i inc e n rd hr
    split at h
    · simp only [Except.ok.injEq, Prod.mk.injEq] at h
      obtain ⟨rfl, rfl⟩ := h
      simp [runMicros, runMicro, countPush, hr]
    · rename_i d
      simp only [Except.ok.injEq, Prod.mk.injEq] at h
      obtain ⟨rfl, rfl⟩ := h
      simp only [runMicros, runMicro, countPush, hr]
      cases addSeg c.ps.cur d { c with rd := rd } <;> rfl
  · simp only [Except.ok.injEq, Prod.mk.injEq] at h
    obtain ⟨rfl, rfl⟩ := h
    simp only [runMicros, runMicro, pushTimes, push]
    cases enter c with
    | error f => rfl
    | ok d => dsimp only; cases setTop _ d <;> rfl
  · simp only [Except.ok.injEq, Prod.mk.injEq] at h
    obtain ⟨rfl, rfl⟩ := h
    simp [runMicros, runMicro]
  · split at h
    · cases h
    rename_i k i e _ g rd hr
    split at h
    · rename_i hg
      simp only [Except.ok.injEq, Prod.mk.injEq] at h
      obtain ⟨rfl, rfl⟩ := h
      simp only [runMicros, runMicro, guardLevels, hr, hg, if_true]
      cases addSeg i e { c with rd := rd } <;> rfl
    · rename_i hg
      simp only [Except.ok.injEq, Prod.mk.injEq] at h
      obtain ⟨rfl, rfl⟩ := h
      simp only [runMicros, runMicro, guardLevels, hr, hg, if_false]

/-- A micro-step that faults faults the rest of the operation. -/
theorem microTick_error {m : Micro} {rest : List Micro} {c : OpCtx} {f : FaultInfo}
      (h : microTick m rest c = .error f) :
    runMicros (m :: rest) c = .error f := by
  have pl : ∀ m, plainMicro m rest c = .error f → runMicros (m :: rest) c = .error f := by
    intro m h
    unfold plainMicro at h
    split at h
    · rename_i d hd
      simp only [Except.error.injEq] at h
      subst h
      exact runMicros_cons_error hd
    · cases h
  unfold microTick at h
  split at h
  all_goals try exact pl _ h
  · split at h
    · rename_i hr
      simp only [Except.error.injEq] at h
      subst h
      simp [runMicros, runMicro, countPush, hr]
    · split at h <;> cases h
  all_goals try (cases h)
  · split at h
    · rename_i hr
      simp only [Except.error.injEq] at h
      subst h
      simp [runMicros, runMicro, guardLevels, hr]
    · split at h <;> cases h

end Sys2Proof.Machine
end

