-- ==== Sys2Proof/Laws/Faults.lean ====
section
/-! SUPPORT. Where an operation that faults stops: a row of pushes and a guard loop cut in two at the pass that faults, and a
run of micro-steps cut in two at the micro-step that does. -/

namespace Sys2Proof.Machine

/-! ### Loops in two parts -/

/-- A row of pushes is its first part and then the rest of it. -/
theorem pushTimes_add (e : Expr) (m : Nat) : ∀ (n : Nat) (c : OpCtx), pushTimes (n + m) e c =
    match pushTimes n e c with
    | .error f => .error f
    | .ok c' => pushTimes m e c'
  | 0, c => by rw [Nat.zero_add]; rfl
  | n + 1, c => by
    rw [Nat.succ_add]
    simp only [pushTimes]
    cases push e c with
    | error f => rfl
    | ok c' => exact pushTimes_add e m n c'

/-- A guard loop is its first levels and then the others. -/
theorem guardLevels_add (e : Expr) (m : Nat) : ∀ (n i : Nat) (c : OpCtx), guardLevels (n + m) i e c =
    match guardLevels n i e c with
    | .error f => .error f
    | .ok c' => guardLevels m (i + n) e c'
  | 0, i, c => by rw [Nat.zero_add]; rfl
  | n + 1, i, c => by
    rw [Nat.succ_add]
    simp only [guardLevels]
    cases c.rd.request .bool with
    | none => rfl
    | some p =>
      dsimp only
      split
      · cases addSeg i e { c with rd := p.2 } with
        | error f => rfl
        | ok c' => simpa only [Nat.add_comm, Nat.add_left_comm] using guardLevels_add e m n (i + 1) c'
      · simpa only [Nat.add_comm, Nat.add_left_comm] using guardLevels_add e m n (i + 1) _

/-! ### Pushes -/

/-- As many requests as were asked for give as many values. -/
theorem requests_length {q : Request} : ∀ (n : Nat) (r r' : Reader) (vs : List Int),
    Reader.requests q n r = some (vs, r') → vs.length = n
  | 0, r, r', vs, h => by
    simp only [Reader.requests, Option.some.injEq, Prod.mk.injEq] at h
    simp [← h.1]
  | n + 1, r, r', vs, h => by
    simp only [Reader.requests] at h
    split at h
    · cases h
    split at h
    · cases h
    rename_i ws r2 hw
    simp only [Option.some.injEq, Prod.mk.injEq] at h
    simp [← h.1, requests_length n _ _ _ hw]

/-- A row of pushes after its first `k`, whose fields can be read, are in range, and have depth to spare. -/
theorem pushTimes_after {q : Request} {n k : Nat} {c : OpCtx} {vs : List Int} {rk : Reader} (hk : k ≤ n)
    (hc : c.ps.cur + k ≤ 5) (h : Reader.requests q k c.rd = some (vs, rk)) (hv : ∀ v ∈ vs, c.ps.InRange v) :
    pushTimes n (fieldPlus q 0) c = pushTimes (n - k) (fieldPlus q 0) ⟨c.ps.pushedAll vs, rk⟩ ∧
      (c.ps.pushedAll vs).cur = c.ps.cur + k := by
  obtain ⟨m, rfl⟩ : ∃ m, n = k + m := ⟨n - k, by omega⟩
  rw [pushTimes_add, pushTimes_of_requests _ _ _ _ hc h hv, Nat.add_sub_cancel_left, pushedAll_cur,
    requests_length _ _ _ _ h]
  exact ⟨rfl, rfl⟩

/-- Pushes of fields that run out of bits before the depth does. -/
theorem pushTimes_of_exhausted {q : Request} {n k : Nat} {c : OpCtx} {vs : List Int} {rk : Reader} (hk : k < n)
    (hc : c.ps.cur + k ≤ 4) (h : Reader.requests q k c.rd = some (vs, rk)) (hv : ∀ v ∈ vs, c.ps.InRange v)
    (hn : rk.request q = none) : pushTimes n (fieldPlus q 0) c = .error .malformedStream := by
  obtain ⟨e, hcur⟩ := pushTimes_after (le_of_lt hk) (by omega) h hv
  obtain ⟨m, hm⟩ : ∃ m, n - k = m + 1 := ⟨n - k - 1, by omega⟩
  have : push (fieldPlus q 0) ⟨c.ps.pushedAll vs, rk⟩ = .error .malformedStream := by
    simp only [push, enter_ok_iff.mpr ⟨(by dsimp only; omega : (OpCtx.mk (c.ps.pushedAll vs) rk).ps.cur ≤ 4), rfl⟩]
    simp [setTop, evalExpr_of_exhausted hn]
  rw [e, hm]
  simp [pushTimes, this]

/-- A push of a field that is out of range as it is read. -/
theorem pushTimes_of_overrange {q : Request} {n k : Nat} {c : OpCtx} {vs : List Int} {v : Int} {rk rv : Reader}
    (hk : k < n) (hc : c.ps.cur + k ≤ 4) (h : Reader.requests q k c.rd = some (vs, rk))
    (hv : ∀ w ∈ vs, c.ps.InRange w) (hn : rk.request q = some (v, rv)) (hr : ¬c.ps.InRange v) :
    pushTimes n (fieldPlus q 0) c = .error (.segmentRange (c.ps.cur + k + 1) v) := by
  obtain ⟨e, hcur⟩ := pushTimes_after (le_of_lt hk) (by omega) h hv
  obtain ⟨m, hm⟩ : ∃ m, n - k = m + 1 := ⟨n - k - 1, by omega⟩
  have : push (fieldPlus q 0) ⟨c.ps.pushedAll vs, rk⟩ = .error (.segmentRange (c.ps.cur + k + 1) v) := by
    simp only [push, enter_ok_iff.mpr ⟨(by dsimp only; omega : (OpCtx.mk (c.ps.pushedAll vs) rk).ps.cur ≤ 4), rfl⟩]
    refine setTop_error_iff.mpr (.inr ⟨v, rv, by simpa using evalExpr_of_read (bias := 0) hn, ?_, by dsimp only; rw [hcur]⟩)
    simpa only [PathState.InRange, pushedAll_range] using hr
  rw [e, hm]
  simp [pushTimes, this]

/-- Pushes of fields that could be read, but for which the depth does not suffice. -/
theorem pushTimes_of_overflow {q : Request} {n : Nat} {c : OpCtx} {vs : List Int} {r : Reader} (hc : c.ps.cur ≤ 5)
    (hn : 5 < c.ps.cur + n) (h : Reader.requests q (5 - c.ps.cur) c.rd = some (vs, r))
    (hv : ∀ v ∈ vs, c.ps.InRange v) : pushTimes n (fieldPlus q 0) c = .error (.pathOverflow 5) := by
  obtain ⟨e, hcur⟩ := pushTimes_after (n := n) (by omega) (by omega) h hv
  obtain ⟨m, hm⟩ : ∃ m, n - (5 - c.ps.cur) = m + 1 := ⟨n - (5 - c.ps.cur) - 1, by omega⟩
  have h5 : (c.ps.pushedAll vs).cur = 5 := by omega
  rw [e, hm]
  simp only [pushTimes, push_of_full (c := ⟨c.ps.pushedAll vs, r⟩) (by omega : 5 ≤ (c.ps.pushedAll vs).cur), h5]

/-! ### Guard loops -/

/-- A guard loop that has come to level j goes on from there with the levels below it adjusted. -/
theorem guardLevels_of_reaches {q : Request} {bias : Int} {ps : PathState} {r rj : Reader} {j : Nat} (hc : ps.cur ≤ 5)
    (h : LoopReaches ps q bias r j rj) :
    ∃ ps' : PathState, ps'.cur = ps.cur ∧ ps'.range = ps.range ∧ ps'.seg.get j = ps.seg.get j ∧
      guardLevels (ps.cur + 1) 0 (fieldPlus q bias) ⟨ps, r⟩ =
        guardLevels (ps.cur - j + 1) j (fieldPlus q bias) ⟨ps', rj⟩ := by
  obtain ⟨hj, gs, hg, hr⟩ := h
  have e : ps.cur + 1 = j + (ps.cur - j + 1) := by omega
  have hlen : ∀ (n : Nat) (r0 : Reader) (gs : List (Option Int)) (r1 : Reader),
      Reader.guards q n r0 = some (gs, r1) → gs.length = n := by
    intro n
    induction n with
    | zero =>
      intro r0 gs r1 h
      simp only [Reader.guards, Option.some.injEq, Prod.mk.injEq] at h
      simp [← h.1]
    | succ n ih =>
      intro r0 gs r1 h
      simp only [Reader.guards] at h
      split at h
      · cases h
      · split at h <;> (repeat' (split at h)) <;> first | cases h; done | skip
        all_goals
          simp only [Option.some.injEq, Prod.mk.injEq] at h
          obtain ⟨rfl, rfl⟩ := h
          simp [ih _ _ _ ‹_›]
  refine ⟨adjFrom ps gs bias 0, rfl, rfl, ?_, ?_⟩
  · rw [get_adjFrom _ _ _ _ _ (by omega)]
    have : gs[j]? = none := by simp [hlen _ _ _ _ hg]
    simp [deltaFrom, guardDelta, this]
  · rw [e, guardLevels_add, guardLevels_of_guards j 0 ⟨ps, r⟩ gs rj (by omega) hg
      (fun k x hx => by simpa using hr k x hx)]
    simp

/-! ### Micro-steps in two parts -/

/-- The micro-steps that have run leave the rest of the operation as it is. -/
theorem microTicks_ok : ∀ (k : Nat) (ms left : List Micro) (c c' : OpCtx), microTicks k ms c = some (c', left) →
    runMicros ms c = runMicros left c'
  | 0, ms, left, c, c', h => by
    simp only [microTicks, Option.some.injEq, Prod.mk.injEq] at h
    rw [h.1, h.2]
  | k + 1, [], left, c, c', h => by simp [microTicks] at h
  | k + 1, m :: ms, left, c, c', h => by
    simp only [microTicks] at h
    split at h
    · cases h
    · rename_i d left' hd
      rw [microTick_ok hd]
      exact microTicks_ok k left' left d c' h

/-- One run of micro-steps after another. -/
theorem microTicks_add (n : Nat) : ∀ (k : Nat) (ms left : List Micro) (c c' : OpCtx),
    microTicks k ms c = some (c', left) → microTicks (k + n) ms c = microTicks n left c'
  | 0, ms, left, c, c', h => by
    simp only [microTicks, Option.some.injEq, Prod.mk.injEq] at h
    rw [h.1, h.2, Nat.zero_add]
  | k + 1, [], left, c, c', h => by simp [microTicks] at h
  | k + 1, m :: ms, left, c, c', h => by
    rw [Nat.succ_add]
    simp only [microTicks] at h ⊢
    split at h
    · cases h
    · exact microTicks_add n k _ _ _ _ h

end Sys2Proof.Machine
end

