-- ==== Sys2Proof/Laws/Invariant.lean ====
section
/-! SUPPORT. The path state's invariant under the shared operations, and the walk down consistent ROMs. -/

namespace Sys2Proof.Machine

/-- A path state in range with nothing above its cursor (R18, R20, R22). -/
def Good (ps : PathState) : Prop := ps.Bounded ∧ ps.ZeroAbove

theorem PathState.allInRange_iff (ps : PathState) : ps.AllInRange ↔
    ps.InRange ps.seg.seg0 ∧ ps.InRange ps.seg.seg1 ∧ ps.InRange ps.seg.seg2 ∧ ps.InRange ps.seg.seg3 ∧
      ps.InRange ps.seg.seg4 ∧ ps.InRange ps.seg.seg5 := by
  constructor
  · exact fun h => ⟨h 0, h 1, h 2, h 3, h 4, h 5⟩
  · rintro ⟨h0, h1, h2, h3, h4, h5⟩ i
    by_cases hi : i ≤ 5
    · interval_cases i <;> assumption
    · rw [Segs.get_of_gt _ _ (by omega)]
      exact ps.range.holds_zero

theorem PathState.zeroAbove_iff (ps : PathState) : ps.ZeroAbove ↔ ∀ i, i ≤ 5 → ps.cur < i → ps.seg.get i = 0 := by
  constructor
  · exact fun h i _ => h i
  · intro h i hi
    by_cases hj : i ≤ 5
    · exact h i hj hi
    · exact Segs.get_of_gt _ _ (by omega)

theorem get_set_cases (g : Segs) (i j : Nat) (v : Int) : (g.set i v).get j = if j = i ∧ i ≤ 5 then v else g.get j := by
  by_cases hi : i ≤ 5
  · rw [Segs.get_set _ _ _ _ hi]; simp [hi]
  · rw [Segs.set_of_gt _ _ _ (by omega)]; simp [hi]

theorem Good.set {ps : PathState} (h : Good ps) {i v} (hi : i ≤ ps.cur) (hv : ps.InRange v) :
    Good { ps with seg := ps.seg.set i v } := by
  refine ⟨⟨h.1.1, fun j => ?_⟩, fun j hj => ?_⟩
  · dsimp only; rw [get_set_cases]; split; exact hv; exact h.1.2 j
  · dsimp only at hj ⊢; rw [get_set_cases, if_neg (by omega)]; exact h.2 j hj

theorem Good.enter {ps : PathState} (h : Good ps) (hc : ps.cur ≤ 4) : Good { ps with cur := ps.cur + 1 } :=
  ⟨⟨by dsimp only; omega, h.1.2⟩, fun j hj => h.2 j (by dsimp only at hj; omega)⟩

theorem Good.setTop {ps : PathState} (h : Good ps) {v} (hv : ps.InRange v) :
    Good { ps with seg := ps.seg.set ps.cur v } := h.set (le_refl _) hv

theorem Good.pushed {ps : PathState} (h : Good ps) {v} (hc : ps.cur ≤ 4) (hv : ps.InRange v) : Good (ps.pushed v) :=
      (h.enter hc).setTop hv

theorem popped_get_any (ps : PathState) (n i : Nat) : (ps.popped n).seg.get i = if i ≤ 5 then poppedSeg ps n i
      else 0 := by
  by_cases hi : i ≤ 5
  · rw [if_pos hi]; interval_cases i <;> rfl
  · rw [if_neg hi, Segs.get_of_gt _ _ (by omega)]

theorem Good.popped {ps : PathState} (h : Good ps) (n : Nat) : Good (ps.popped n) := by
  refine ⟨⟨by have := h.1.1; simp only [PathState.popped]; omega, fun j => ?_⟩, fun j hj => ?_⟩
  · rw [popped_get_any]; split
    · unfold poppedSeg; split; exact ps.range.holds_zero; exact h.1.2 j
    · exact ps.range.holds_zero
  · rw [popped_get_any]; split
    · simp only [PathState.popped] at hj
      unfold poppedSeg; split; rfl; exact h.2 j (by omega)
    · rfl

theorem addSeg_good {i e} {c c' : OpCtx} (hg : Good c.ps) (hi : i ≤ c.ps.cur) (h : addSeg i e c = .ok c') :
      Good c'.ps ∧ c'.ps.cur = c.ps.cur := by
  obtain ⟨v, rd, h1, hv, rfl⟩ := addSeg_ok_iff.mp h
  exact ⟨hg.set hi hv, rfl⟩

theorem pushTimes_good : ∀ (n e) (c c' : OpCtx), Good c.ps → pushTimes n e c = .ok c' → Good c'.ps
  | 0, e, c, c', hg, h => by simp only [pushTimes, Except.ok.injEq] at h; subst h; exact hg
  | n+1, e, c, c', hg, h => by
    simp only [pushTimes] at h
    split at h
    · cases h
    · rename_i d hd
      obtain ⟨hc, v, rd, -, hv, rfl⟩ := push_ok_iff.mp hd
      exact pushTimes_good n e _ c' (hg.pushed hc hv) h

theorem guardLevels_good : ∀ (k i e) (c c' : OpCtx), Good c.ps → i + k ≤ c.ps.cur + 1 →
      guardLevels k i e c = .ok c' → Good c'.ps ∧ c'.ps.cur = c.ps.cur
  | 0, i, e, c, c', hg, _, h => by simp only [guardLevels, Except.ok.injEq] at h; subst h; exact ⟨hg, rfl⟩
  | k+1, i, e, c, c', hg, hk, h => by
    simp only [guardLevels] at h
    split at h
    · cases h
    rename_i g rd hr
    split at h
    · split at h
      · cases h
      · rename_i d hd
        have := addSeg_good (c := ⟨c.ps, rd⟩) hg (by dsimp only; omega) hd
        dsimp only at this
        have := guardLevels_good k (i+1) e d c' this.1 (by omega) h
        exact ⟨this.1, by omega⟩
    · exact guardLevels_good k (i+1) e ⟨c.ps, rd⟩ c' hg (by dsimp only; omega) h

theorem countPush_good {inc e} {c c' : OpCtx} (hg : Good c.ps) (h : countPush inc e c = .ok c') : Good c'.ps := by
  simp only [countPush] at h
  split at h
  · cases h
  rename_i n rd hr
  split at h
  · exact pushTimes_good _ _ ⟨c.ps, rd⟩ _ hg h
  · split at h
    · cases h
    · rename_i d hd; exact pushTimes_good _ _ _ _ (addSeg_good (c := ⟨c.ps, rd⟩) hg (le_refl _) hd).1 h

theorem levelsOk_of_free {cur ms} (h : ms.all levelFree = true) : levelsOk cur ms = true := by
  cases ms with
  | nil => rfl
  | cons m ms =>
    simp only [List.all_cons, Bool.and_eq_true] at h
    cases m <;> simp_all [levelsOk, levelFree]

theorem levels_free {cur cur' m ms} (hf : levelFree m = true) (h : levelsOk cur (m :: ms) = true) :
      levelsOk cur' ms = true ∧ ms.all levelFree = true := by
  have : ms.all levelFree = true := by
    cases m <;> simp only [levelFree, Bool.false_eq_true] at hf <;> simp only [levelsOk, levelFree, Bool.true_and] at h <;> exact h
  exact ⟨levelsOk_of_free this, this⟩

/-- A micro-step keeps the path state's invariant, and the levels that the rest of the operation names stay active. -/
theorem runMicro_good {m ms} {c c' : OpCtx} (hg : Good c.ps) (hl : levelsOk c.ps.cur (m :: ms) = true)
      (h : runMicro m c = .ok c') :
    Good c'.ps ∧ levelsOk c'.ps.cur ms = true := by
  cases m with
  | addTop e => exact ⟨(addSeg_good hg (le_refl _) h).1, (levels_free rfl hl).1⟩
  | addRoot e => exact ⟨(addSeg_good hg (by omega) h).1, (levels_free rfl hl).1⟩
  | addPenultimate =>
    obtain ⟨hc, hv, rfl⟩ := addPenultimate_ok_iff.mp h
    exact ⟨hg.set (by omega) hv, (levels_free rfl hl).1⟩
  | enter =>
    obtain ⟨hc, rfl⟩ := enter_ok_iff.mp h
    exact ⟨hg.enter hc, (levels_free rfl hl).1⟩
  | setTop e =>
    obtain ⟨v, rd, h1, hv, rfl⟩ := setTop_ok_iff.mp h
    exact ⟨hg.setTop hv, (levels_free rfl hl).1⟩
  | pop n =>
    obtain ⟨-, rfl⟩ := pop_ok_iff.mp h
    exact ⟨hg.popped _, (levels_free rfl hl).1⟩
  | popAll =>
    obtain ⟨-, rfl⟩ := pop_ok_iff.mp h
    exact ⟨hg.popped _, (levels_free rfl hl).1⟩
  | popRead q =>
    obtain ⟨n, rd, h1, -, rfl⟩ := popRead_ok_iff.mp h
    exact ⟨hg.popped _, (levels_free rfl hl).1⟩
  | countPush inc e => exact ⟨countPush_good hg h, (levels_free rfl hl).1⟩
  | pushes n e => exact ⟨pushTimes_good _ _ _ _ hg h, (levels_free rfl hl).1⟩
  | guardLoop e => exact ⟨(guardLevels_good _ _ _ _ _ hg (by omega) h).1, (levels_free rfl hl).1⟩
  | guardsLeft k i e =>
    simp only [levelsOk, Bool.and_eq_true, decide_eq_true_eq] at hl
    have := guardLevels_good _ _ _ _ _ hg hl.1 h
    exact ⟨this.1, this.2 ▸ hl.2⟩
  | addLevel i e =>
    simp only [levelsOk, Bool.and_eq_true, decide_eq_true_eq] at hl
    have := addSeg_good hg hl.1 h
    exact ⟨this.1, this.2 ▸ hl.2⟩
  | setFin => simp only [runMicro, Except.ok.injEq] at h; subst h; exact ⟨hg, (levels_free rfl hl).1⟩

/-- So does the rest of an operation. -/
theorem runMicros_good : ∀ (ms) (c c' : OpCtx), Good c.ps → levelsOk c.ps.cur ms = true → runMicros ms c = .ok c' →
      Good c'.ps
  | [], c, c', hg, _, h => by simp only [runMicros_nil, Except.ok.injEq] at h; subst h; exact hg
  | m :: ms, c, c', hg, hl, h => by
    simp only [runMicros] at h
    split at h
    · cases h
    · rename_i d hd
      have := runMicro_good hg hl hd
      exact runMicros_good ms d c' this.1 this.2 h

/-- So does a tick. -/
theorem microTick_good {m : Micro} {rest left : List Micro} {c c' : OpCtx} (hg : Good c.ps)
      (hl : levelsOk c.ps.cur (m :: rest) = true)
    (h : microTick m rest c = .ok (c', left)) : Good c'.ps ∧ levelsOk c'.ps.cur left = true := by
  have pl : ∀ m, levelsOk c.ps.cur (m :: rest) = true → plainMicro m rest c = .ok (c', left) → Good c'.ps ∧ levelsOk c'.ps.cur left = true := by
    intro m hl h
    unfold plainMicro at h
    split at h
    · cases h
    · rename_i d hd
      simp only [Except.ok.injEq, Prod.mk.injEq] at h
      obtain ⟨rfl, rfl⟩ := h
      exact runMicro_good hg hl hd
  cases m
  case countPush inc e =>
    replace hl := (levels_free (cur' := 0) rfl hl).2
    simp only [microTick] at h
    split at h
    · cases h
    rename_i n rd hr
    split at h <;> (simp only [Except.ok.injEq, Prod.mk.injEq] at h; obtain ⟨rfl, rfl⟩ := h; exact ⟨hg, levelsOk_of_free (by simpa [levelFree] using hl)⟩)
  case pushes n e =>
    replace hl := (levels_free (cur' := 0) rfl hl).2
    cases n <;> (simp only [microTick, Except.ok.injEq, Prod.mk.injEq] at h; obtain ⟨rfl, rfl⟩ := h; refine ⟨hg, ?_⟩)
    · exact levelsOk_of_free hl
    · exact levelsOk_of_free (by simpa [levelFree] using hl)
  case guardLoop e =>
    replace hl := (levels_free (cur' := 0) rfl hl).2
    simp only [microTick, Except.ok.injEq, Prod.mk.injEq] at h; obtain ⟨rfl, rfl⟩ := h
    refine ⟨hg, ?_⟩
    simp [levelsOk]; exact levelsOk_of_free hl
  case guardsLeft k i e =>
    simp only [levelsOk, Bool.and_eq_true, decide_eq_true_eq] at hl
    cases k with
    | zero => simp only [microTick, Except.ok.injEq, Prod.mk.injEq] at h; obtain ⟨rfl, rfl⟩ := h; exact ⟨hg, hl.2⟩
    | succ k =>
      simp only [microTick] at h
      split at h
      · cases h
      rename_i n rd hr
      split at h <;> (simp only [Except.ok.injEq, Prod.mk.injEq] at h; obtain ⟨rfl, rfl⟩ := h; refine ⟨hg, ?_⟩; simp [levelsOk, hl.2]; omega)
  case setFin => exact pl .setFin hl h
  all_goals exact pl _ hl h

/-! ### Checking a concrete state -/

/-- The invariant of a concrete state, by checks that `decide` can run. -/
theorem inv_of_checks (s : State)
    (h : s.rom.consistent = true ∧ s.ps.cur ≤ 5 ∧
      (s.ps.InRange s.ps.seg.seg0 ∧ s.ps.InRange s.ps.seg.seg1 ∧ s.ps.InRange s.ps.seg.seg2 ∧ s.ps.InRange s.ps.seg.seg3 ∧
        s.ps.InRange s.ps.seg.seg4 ∧ s.ps.InRange s.ps.seg.seg5) ∧
      (s.estate ≠ .fault → ∀ i, i < 6 → s.ps.cur < i → s.ps.seg.get i = 0) ∧
      (s.fkind = .none ↔ s.estate ≠ .fault) ∧
      (s.estate = .done → s.ps.fin = true) ∧
      (s.estate = .idle → s.ps.fin = false) ∧
      (s.estate = .run .traverse → s.ps.fin = false) ∧
      (s.estate = .run .emit → s.ps.fin = false) ∧
      (s.estate = .run .traverse → s.node < s.rom.tree.length) ∧
      (s.estate ≠ .run .traverse → s.estate ≠ .fault → s.node = s.rom.root) ∧
      (s.estate ≠ .run .execute → s.estate ≠ .fault → s.mstep = none) ∧
      (s.estate = .run .execute → s.mstep.all (levelsOk s.ps.cur) = true) ∧
      (s.estate = .run .execute → (s.rom.kindOf s.opidx).isSome = true) ∧
      ∀ snap ∈ s.out, 1 ≤ snap.length ∧ snap.length ≤ 6 ∧ ∀ v ∈ snap, s.ps.InRange v) : s.Inv := by
  obtain ⟨h1, h2, h3, h4, h5, h6, h7, h8, h9, h10, h11, h12, h13, h14, h15⟩ := h
  exact {
    rom := h1
    bounded := ⟨h2, s.ps.allInRange_iff.mpr h3⟩
    clear := fun hs => s.ps.zeroAbove_iff.mpr fun i hi => h4 hs i (by omega)
    kind := h5
    finDone := h6
    finIdle := h7
    finTraverse := h8
    finEmit := h9
    nodeTraverse := h10
    nodeRoot := h11
    mstepNone := h12
    mstepLevels := fun he ms hm => by simpa [hm] using h13 he
    opidxKind := h14
    out := h15 }

/-- That every adjusted level stays in range, by a check that `decide` can run. -/
theorem adjustInRange_of_all (ps : PathState) (gs : List (Option Int)) (bias : Int)
    (h : (gs.zipIdx.all fun (g, i) => g.all fun x => decide (ps.InRange (ps.seg.get i + (x + bias)))) = true) :
    ps.AdjustInRange gs bias := by
  intro i x hi
  have hm : (some x, i) ∈ gs.zipIdx := List.mk_mem_zipIdx_iff_getElem?.mpr hi
  simpa using List.all_eq_true.mp h _ hm

/-! ### The walk -/

theorem node_ok {rom : Rom} (h : rom.consistent = true) {id : Nat} {n} (hn : rom.tree[id]? = some n) :
      nodeConsistent rom n = true := by
  simp only [Rom.consistent, Bool.and_eq_true, List.all_eq_true] at h
  exact h.1.2 n (List.mem_of_getElem? hn)

/-- With consistent ROMs a walk from a node of the tree ends at an operation with a kind, or runs out of bits. -/
theorem walk_ok {rom : Rom} (h : rom.consistent = true) : ∀ (bs : Bits) (id n : Nat), id < rom.tree.length →
    (∃ op m, walk rom.tree id n bs = .leaf op m ∧ (rom.kindOf op).isSome = true) ∨ walk rom.tree id n bs = .exhausted := by
  intro bs
  induction bs with
  | nil =>
    intro id n hi
    unfold walk
    cases hn : rom.tree[id]? with
    | none => rw [List.getElem?_eq_none_iff] at hn; omega
    | some t =>
      have := node_ok h hn
      cases t with
      | leaf op => exact .inl ⟨op, n, rfl, this⟩
      | internal c0 c1 => exact .inr rfl
  | cons b bs ih =>
    intro id n hi
    unfold walk
    cases hn : rom.tree[id]? with
    | none => rw [List.getElem?_eq_none_iff] at hn; omega
    | some t =>
      have := node_ok h hn
      cases t with
      | leaf op => exact .inl ⟨op, n, rfl, this⟩
      | internal c0 c1 =>
        simp only [nodeConsistent, Bool.and_eq_true, decide_eq_true_eq] at this
        exact ih _ _ (by unfold childOn; split; exact this.2; exact this.1)

end Sys2Proof.Machine
end

