-- ==== Sys2Proof/Laws/PerInstr.lean ====
section
/-! SUPPORT. What holds of every operation, one lemma per constructor: its code decodes to it, whatever follows. -/

namespace Sys2Proof.Laws

/-- The operation's code, followed by any bits, decodes to the operation and leaves those bits (30_encoding.md R61). -/
def CodeDecodes.Statement (i : Instr) : Prop := ∀ rest : Bits, decode (encode i ++ rest) = .ok (i, rest)

theorem CodeDecodes.plusOne : CodeDecodes.Statement .plusOne := fun rest => by cases rest <;> rfl
theorem CodeDecodes.plusTwo : CodeDecodes.Statement .plusTwo := fun rest => by cases rest <;> rfl
theorem CodeDecodes.plusThree : CodeDecodes.Statement .plusThree := fun rest => by cases rest <;> rfl
theorem CodeDecodes.plusFour : CodeDecodes.Statement .plusFour := fun rest => by cases rest <;> rfl
theorem CodeDecodes.plusN : CodeDecodes.Statement .plusN := fun rest => by cases rest <;> rfl
theorem CodeDecodes.pushOneLeftDeltaZeroRightZero : CodeDecodes.Statement .pushOneLeftDeltaZeroRightZero := fun rest => by cases rest <;> rfl
theorem CodeDecodes.pushOneLeftDeltaZeroRightNonZero : CodeDecodes.Statement .pushOneLeftDeltaZeroRightNonZero := fun rest => by cases rest <;> rfl
theorem CodeDecodes.pushOneLeftDeltaOneRightZero : CodeDecodes.Statement .pushOneLeftDeltaOneRightZero := fun rest => by cases rest <;> rfl
theorem CodeDecodes.pushOneLeftDeltaOneRightNonZero : CodeDecodes.Statement .pushOneLeftDeltaOneRightNonZero := fun rest => by cases rest <;> rfl
theorem CodeDecodes.pushOneLeftDeltaNRightZero : CodeDecodes.Statement .pushOneLeftDeltaNRightZero := fun rest => by cases rest <;> rfl
theorem CodeDecodes.pushOneLeftDeltaNRightNonZero : CodeDecodes.Statement .pushOneLeftDeltaNRightNonZero := fun rest => by cases rest <;> rfl
theorem CodeDecodes.pushOneLeftDeltaNRightNonZeroPack6Bits : CodeDecodes.Statement .pushOneLeftDeltaNRightNonZeroPack6Bits := fun rest => by cases rest <;> rfl
theorem CodeDecodes.pushOneLeftDeltaNRightNonZeroPack8Bits : CodeDecodes.Statement .pushOneLeftDeltaNRightNonZeroPack8Bits := fun rest => by cases rest <;> rfl
theorem CodeDecodes.pushTwoLeftDeltaZero : CodeDecodes.Statement .pushTwoLeftDeltaZero := fun rest => by cases rest <;> rfl
theorem CodeDecodes.pushTwoPack5LeftDeltaZero : CodeDecodes.Statement .pushTwoPack5LeftDeltaZero := fun rest => by cases rest <;> rfl
theorem CodeDecodes.pushThreeLeftDeltaZero : CodeDecodes.Statement .pushThreeLeftDeltaZero := fun rest => by cases rest <;> rfl
theorem CodeDecodes.pushThreePack5LeftDeltaZero : CodeDecodes.Statement .pushThreePack5LeftDeltaZero := fun rest => by cases rest <;> rfl
theorem CodeDecodes.pushTwoLeftDeltaOne : CodeDecodes.Statement .pushTwoLeftDeltaOne := fun rest => by cases rest <;> rfl
theorem CodeDecodes.pushTwoPack5LeftDeltaOne : CodeDecodes.Statement .pushTwoPack5LeftDeltaOne := fun rest => by cases rest <;> rfl
theorem CodeDecodes.pushThreeLeftDeltaOne : CodeDecodes.Statement .pushThreeLeftDeltaOne := fun rest => by cases rest <;> rfl
theorem CodeDecodes.pushThreePack5LeftDeltaOne : CodeDecodes.Statement .pushThreePack5LeftDeltaOne := fun rest => by cases rest <;> rfl
theorem CodeDecodes.pushTwoLeftDeltaN : CodeDecodes.Statement .pushTwoLeftDeltaN := fun rest => by cases rest <;> rfl
theorem CodeDecodes.pushTwoPack5LeftDeltaN : CodeDecodes.Statement .pushTwoPack5LeftDeltaN := fun rest => by cases rest <;> rfl
theorem CodeDecodes.pushThreeLeftDeltaN : CodeDecodes.Statement .pushThreeLeftDeltaN := fun rest => by cases rest <;> rfl
theorem CodeDecodes.pushThreePack5LeftDeltaN : CodeDecodes.Statement .pushThreePack5LeftDeltaN := fun rest => by cases rest <;> rfl
theorem CodeDecodes.pushN : CodeDecodes.Statement .pushN := fun rest => by cases rest <;> rfl
theorem CodeDecodes.pushNAndNonTopological : CodeDecodes.Statement .pushNAndNonTopological := fun rest => by cases rest <;> rfl
theorem CodeDecodes.popOnePlusOne : CodeDecodes.Statement .popOnePlusOne := fun rest => by cases rest <;> rfl
theorem CodeDecodes.popOnePlusN : CodeDecodes.Statement .popOnePlusN := fun rest => by cases rest <;> rfl
theorem CodeDecodes.popAllButOnePlusOne : CodeDecodes.Statement .popAllButOnePlusOne := fun rest => by cases rest <;> rfl
theorem CodeDecodes.popAllButOnePlusN : CodeDecodes.Statement .popAllButOnePlusN := fun rest => by cases rest <;> rfl
theorem CodeDecodes.popAllButOnePlusNPack3Bits : CodeDecodes.Statement .popAllButOnePlusNPack3Bits := fun rest => by cases rest <;> rfl
theorem CodeDecodes.popAllButOnePlusNPack6Bits : CodeDecodes.Statement .popAllButOnePlusNPack6Bits := fun rest => by cases rest <;> rfl
theorem CodeDecodes.popNPlusOne : CodeDecodes.Statement .popNPlusOne := fun rest => by cases rest <;> rfl
theorem CodeDecodes.popNPlusN : CodeDecodes.Statement .popNPlusN := fun rest => by cases rest <;> rfl
theorem CodeDecodes.popNAndNonTopographical : CodeDecodes.Statement .popNAndNonTopographical := fun rest => by cases rest <;> rfl
theorem CodeDecodes.nonTopoComplex : CodeDecodes.Statement .nonTopoComplex := fun rest => by cases rest <;> rfl
theorem CodeDecodes.nonTopoPenultimatePlusOne : CodeDecodes.Statement .nonTopoPenultimatePlusOne := fun rest => by cases rest <;> rfl
theorem CodeDecodes.nonTopoComplexPack4Bits : CodeDecodes.Statement .nonTopoComplexPack4Bits := fun rest => by cases rest <;> rfl
theorem CodeDecodes.fieldPathEncodeFinish : CodeDecodes.Statement .fieldPathEncodeFinish := fun rest => by cases rest <;> rfl

end Sys2Proof.Laws
end

