-- ==== Sys2Proof/Laws/ReferenceReader.lean ====
section
/-! SUPPORT. The reference BR reads what R38 to R46 of 20_memory.md write: `readRequest` with `BR.reference` is
`referenceRequest`. -/

namespace Sys2Proof.Machine

/-- A fixed-width field read in two parts, the low one first. -/
theorem readBits_add (m : Nat) : ∀ (n : Nat) (bs : Bits), readBits (n + m) bs =
    match readBits n bs with
    | none => none
    | some (a, mid) => (readBits m mid).map fun (b, rest) => (a + b * 2 ^ n, rest)
  | 0, bs => by
    simp only [readBits, Nat.zero_add]
    cases readBits m bs <;> simp
  | n + 1, [] => by simp [readBits, Nat.succ_add]
  | n + 1, b :: bs => by
    rw [Nat.succ_add]
    simp only [readBits, readBits_add m n bs]
    cases readBits n bs with
    | none => rfl
    | some p =>
      cases h : readBits m p.2 with
      | none => simp [h]
      | some w =>
        simp only [h, Option.map_some, Option.some.injEq, Prod.mk.injEq, and_true, pow_succ]
        ring

/-- One bit. -/
theorem readBits_one (b : Bool) (bs : Bits) : readBits 1 (b :: bs) = some (b.toNat, bs) := by simp [readBits]

/-! ### UBV and UBVFP -/

theorem readVariable_referenceUBV (bs : Bits) :
    readVariable .lsbFirst referenceUBV .ubv bs = (readUBV bs).map fun (v, rest) => ((v : Int), rest) := by
  simp only [readVariable, readUBV, readBits_add 2 4 bs, referenceUBV, readLayout, readFixed]
  cases h4 : readBits 4 bs with
  | none => rfl
  | some p =>
    obtain ⟨a, mid⟩ := p
    have ha := readBits_lt 4 bs mid a h4
    rcases mid with _ | ⟨e, _ | ⟨f, t⟩⟩
    · rfl
    · cases e <;> rfl
    · have small : ∀ n, n ≤ 28 → ∀ w r, readBits n t = some (w, r) →
          ((0 + a * 2 ^ 0 + w * 2 ^ 4 : Nat) : Int) % 4294967296 = ((w * 16 + a : Nat) : Int) := fun n hn w r h => by
        have : w < 2 ^ 28 := Nat.lt_of_lt_of_le (readBits_lt n t r w h) (Nat.pow_le_pow_right (by omega) hn)
        omega
      have two : readBits 2 (e :: f :: t) = some (e.toNat + 2 * f.toNat, t) := by simp [readBits]
      have hi : (a + (e.toNat + 2 * f.toNat) * 2 ^ 4) / 16 = e.toNat + 2 * f.toNat := by omega
      have lo : (a + (e.toNat + 2 * f.toNat) * 2 ^ 4) % 16 = a := by omega
      simp only [two, Option.map_some, hi, lo]
      cases e <;> cases f <;>
        simp only [Bool.toNat_true, Bool.toNat_false, Bool.false_eq_true, ↓reduceIte, Layout.stop, readLayout, readFixed,
          Nat.mul_zero, Nat.mul_one, Nat.add_zero, Nat.zero_add]
      · simpa [receivedValue, readBits] using by omega
      · cases h : readBits 8 t with
        | none => simp
        | some w => simpa [h, receivedValue] using small 8 (by omega) w.1 w.2 h
      · cases h : readBits 4 t with
        | none => simp
        | some w => simpa [h, receivedValue] using small 4 (by omega) w.1 w.2 h
      · cases h : readBits 28 t with
        | none => simp
        | some w => simpa [h, receivedValue] using small 28 (by omega) w.1 w.2 h

/-- A group of at most 31 bits, the whole value. -/
theorem readVariable_group (n : Nat) (hn : n ≤ 31) (bs : Bits) :
    readVariable .lsbFirst (.take n 0 .stop) .ubvfp bs = (readBits n bs).map fun (v, rest) => ((v : Int), rest) := by
  simp only [readVariable, readLayout, readFixed, Layout.stop]
  cases h : readBits n bs with
  | none => rfl
  | some p =>
    have := Nat.lt_of_lt_of_le (readBits_lt n bs p.2 p.1 h) (Nat.pow_le_pow_right (n := 2) (by omega) hn)
    simp only [receivedValue, Option.map_some, Option.some.injEq, Prod.mk.injEq, and_true, Bool.false_eq_true,
      ↓reduceIte]
    omega

/-- One selector of the ladder. -/
theorem readVariable_selector (n last : Nat) (ns : List Nat) (l : Layout) (hn : n ≤ 31)
    (hl : ∀ bs, readVariable .lsbFirst l .ubvfp bs = (readLadder ns last bs).map fun (v, rest) => ((v : Int), rest)) :
    ∀ bs, readVariable .lsbFirst (.branch l (.take n 0 .stop)) .ubvfp bs =
      (readLadder (n :: ns) last bs).map fun (v, rest) => ((v : Int), rest)
  | [] => rfl
  | false :: bs => by simpa [readVariable, readLayout, readLadder] using hl bs
  | true :: bs => by simpa [readVariable, readLayout, readLadder] using readVariable_group n hn bs

theorem readVariable_referenceUBVFP (bs : Bits) :
    readVariable .lsbFirst referenceUBVFP .ubvfp bs = (readUBVFP bs).map fun (v, rest) => ((v : Int), rest) :=
  readVariable_selector 2 31 _ _ (by omega)
    (readVariable_selector 4 31 _ _ (by omega)
      (readVariable_selector 10 31 _ _ (by omega)
        (readVariable_selector 17 31 [] _ (by omega) (readVariable_group 31 (by omega))))) bs

/-! ### VarS32 -/

/-- How VarS32 ends: with the assembled bits as they are, or, with the zig-zag sign 1, as their complement. -/
def signedEnd (sign : Nat) : Layout := if sign = 1 then .give true (-1) else .stop

/-- Where `sign` and `acc` have been read, the layout `l` reads on as the loop of `ReadVarU32()` does, its value
un-zig-zagged. -/
def ReadsOn (sign : Nat) (l : Layout) (groups shift : Nat) : Prop :=
  ∀ (acc : Nat) (bs : Bits), sign + 2 * acc < 2 ^ shift →
    readLayout .lsbFirst l acc bs = (readGroups groups shift (sign + 2 * acc) bs).map fun (u, rest) => (unzigzag u, rest)

theorem readLayout_signedEnd (sign acc : Nat) (hs : sign < 2) (bs : Bits) :
    readLayout .lsbFirst (signedEnd sign) acc bs = some (unzigzag (sign + 2 * acc), bs) := by
  rcases (by omega : sign = 0 ∨ sign = 1) with rfl | rfl
  · have : (0 + 2 * acc) % 2 = 0 := by omega
    simp [signedEnd, Layout.stop, readLayout, unzigzag]
  · have h1 : (1 + 2 * acc) % 2 = 1 := by omega
    have h2 : (1 + 2 * acc) / 2 = acc := by omega
    simp only [signedEnd, readLayout, unzigzag, h1, h2, ↓reduceIte, Option.some.injEq, Prod.mk.injEq, and_true]
    omega

/-- Bits put in above all those that are there. -/
theorem or_shiftLeft (x p s : Nat) (h : x < 2 ^ s) : x ||| (p <<< s) = x + p * 2 ^ s := by
  rw [Nat.shiftLeft_eq, Nat.lor_comm, ← Nat.shiftLeft_eq, ← Nat.shiftLeft_add_eq_or_of_lt h, Nat.shiftLeft_eq]
  omega

/-- A group that may be followed by another. -/
theorem readsOn_group (sign groups shift : Nat) (l : Layout) (hs : sign < 2) (h1 : 1 ≤ shift) (h2 : shift + 7 ≤ 32)
    (hl : ReadsOn sign l groups (shift + 7)) :
    ReadsOn sign (.take 7 (shift - 1) (.branch (signedEnd sign) l)) (groups + 1) shift := fun acc bs hacc => by
  simp only [readLayout, readFixed, readGroups, readBits_add 1 7 bs]
  cases h7 : readBits 7 bs with
  | none => rfl
  | some p =>
    obtain ⟨p, mid⟩ := p
    have hp := readBits_lt 7 bs mid p h7
    have step : sign + 2 * (acc + p * 2 ^ (shift - 1)) = sign + 2 * acc + p * 2 ^ shift := by
      obtain ⟨k, rfl⟩ : ∃ k, shift = k + 1 := ⟨shift - 1, by omega⟩
      simp only [Nat.add_sub_cancel, pow_succ]
      ring
    have bound : sign + 2 * acc + p * 2 ^ shift < 2 ^ (shift + 7) := by
      have : (p + 1) * 2 ^ shift ≤ 2 ^ 7 * 2 ^ shift := Nat.mul_le_mul_right _ (by omega)
      rw [pow_add]
      nlinarith
    have word : sign + 2 * acc + p * 2 ^ shift < 4294967296 :=
      Nat.lt_of_lt_of_le bound (by simpa using Nat.pow_le_pow_right (n := 2) (by omega) h2)
    cases mid with
    | nil => rfl
    | cons b t =>
      have hb : (p + b.toNat * 2 ^ 7) % 128 = p := by omega
      have hq : (p + b.toNat * 2 ^ 7) / 128 = b.toNat := by omega
      have hx : (sign + 2 * acc ||| p <<< shift) % 2 ^ 32 = sign + 2 * acc + p * 2 ^ shift := by
        rw [or_shiftLeft _ _ _ hacc]
        exact Nat.mod_eq_of_lt word
      simp only [readBits_one, Option.map_some, hb, hq, hx]
      cases b with
      | false => simp [readLayout, readLayout_signedEnd _ _ hs, step]
      | true => simpa [readLayout, step] using hl (acc + p * 2 ^ (shift - 1)) t (step ▸ bound)

/-- The fifth group: its low four bits go in, and nothing follows it. -/
theorem readsOn_last (sign : Nat) (hs : sign < 2) : ReadsOn sign (.take 4 27 (.skip 4 (signedEnd sign))) 1 28 :=
  fun acc bs hacc => by
  simp only [readLayout, readFixed, readGroups, readBits_add 4 4 bs]
  cases h4 : readBits 4 bs with
  | none => rfl
  | some p =>
    obtain ⟨p, mid⟩ := p
    have hp := readBits_lt 4 bs mid p h4
    cases h8 : readBits 4 mid with
    | none => simp [h8]
    | some w =>
      obtain ⟨w, rest⟩ := w
      have hw := readBits_lt 4 mid rest w h8
      have hx : (sign + 2 * acc ||| ((p + w * 2 ^ 4) % 128) <<< 28) % 2 ^ 32 = sign + 2 * (acc + p * 2 ^ 27) := by
        rw [or_shiftLeft _ _ _ hacc]
        omega
      simp only [h8, readLayout_signedEnd _ _ hs, Option.map_some, hx, ite_self]

theorem readsOn_tail (sign : Nat) (hs : sign < 2) :
    ReadsOn sign (.take 7 6 (.branch (signedEnd sign) (.take 7 13 (.branch (signedEnd sign) (.take 7 20
      (.branch (signedEnd sign) (.take 4 27 (.skip 4 (signedEnd sign))))))))) 4 7 :=
  readsOn_group sign 3 7 _ hs (by omega) (by omega)
    (readsOn_group sign 2 14 _ hs (by omega) (by omega)
      (readsOn_group sign 1 21 _ hs (by omega) (by omega) (readsOn_last sign hs)))

/-- VarS32 after its first bit. -/
theorem readLayout_referenceVarTail (b : Bool) (bs : Bits) :
    readLayout .lsbFirst (referenceVarTail (signedEnd b.toNat)) 0 bs =
      (readGroups 5 0 0 (b :: bs)).map fun (u, rest) => (unzigzag u, rest) := by
  have hs : b.toNat < 2 := by have := b.toNat_le; omega
  have eight : readBits 8 (b :: bs) = match readBits 6 bs with
      | none => none
      | some (a, mid) => (readBits 1 mid).map fun (c, rest) => (b.toNat + 2 * (a + c * 2 ^ 6), rest) := by
    rw [readBits, readBits_add 1 6 bs]
    cases readBits 6 bs with
    | none => rfl
    | some p => cases h : readBits 1 p.2 <;> simp [h]
  rw [referenceVarTail, readGroups, eight]
  simp only [readLayout, readFixed]
  cases h6 : readBits 6 bs with
  | none => rfl
  | some p =>
    obtain ⟨a, mid⟩ := p
    have ha := readBits_lt 6 bs mid a h6
    cases mid with
    | nil => rfl
    | cons c t =>
      have hm : (b.toNat + 2 * (a + c.toNat * 2 ^ 6)) % 128 = b.toNat + 2 * a := by omega
      have hq : (b.toNat + 2 * (a + c.toNat * 2 ^ 6)) / 128 = c.toNat := by omega
      have hx : (0 ||| (b.toNat + 2 * a) <<< 0) % 2 ^ 32 = b.toNat + 2 * a := by
        simp only [Nat.shiftLeft_zero, Nat.zero_or]
        omega
      simp only [readBits_one, Option.map_some, hm, hq, hx]
      cases c with
      | false => simp [readLayout, readLayout_signedEnd _ _ hs]
      | true => simpa [readLayout] using readsOn_tail b.toNat hs a t (by omega)

/-- The loop of `ReadVarU32()` gives 32 bits. -/
theorem readGroups_lt : ∀ (groups shift x : Nat) (bs left : Bits) (u : Nat), x < 2 ^ 32 →
    readGroups groups shift x bs = some (u, left) → u < 2 ^ 32
  | 0, shift, x, bs, left, u, hx, h => by
    simp only [readGroups, Option.some.injEq, Prod.mk.injEq] at h
    omega
  | groups + 1, shift, x, bs, left, u, hx, h => by
    simp only [readGroups] at h
    split at h
    · cases h
    · split at h
      · simp only [Option.some.injEq, Prod.mk.injEq] at h
        rw [← h.1]
        exact Nat.mod_lt _ (by omega)
      · exact readGroups_lt groups _ _ _ _ _ (Nat.mod_lt _ (by omega)) h

theorem readVariable_referenceVarS32 (bs : Bits) :
    readVariable .lsbFirst referenceVarS32 .varS32 bs = readVarS32 bs := by
  have all : readLayout .lsbFirst referenceVarS32 0 bs =
      (readGroups 5 0 0 bs).map fun (u, rest) => (unzigzag u, rest) := by
    cases bs with
    | nil => rfl
    | cons b bs =>
      cases b with
      | false => exact readLayout_referenceVarTail false bs
      | true => exact readLayout_referenceVarTail true bs
  rw [readVariable, all, readVarS32, readVarU32]
  cases h : readGroups 5 0 0 bs with
  | none => rfl
  | some p =>
    have hu := readGroups_lt 5 0 0 bs p.2 p.1 (by omega) h
    have hz : receivedValue .varS32 (unzigzag p.1) = unzigzag p.1 := by
      simp only [receivedValue, unzigzag]
      split <;> omega
    simp [hz]

/-- The reference BR reads what its rules write (R38 to R46). -/
theorem readRequest_reference (q : Request) (bs : Bits) : readRequest .reference q bs = referenceRequest q bs := by
  cases q with
  | bit => rfl
  | bool => rfl
  | bits n => rfl
  | ubv => exact readVariable_referenceUBV bs
  | ubvfp => exact readVariable_referenceUBVFP bs
  | varS32 => exact readVariable_referenceVarS32 bs

end Sys2Proof.Machine
end

