-- ==== Sys2Proof/Laws/Unasked.lean ====
section
/-! SUPPORT. How far an operation goes while the reader answers nothing (`runUnasked`): it is a first part of the operation,
it ends at a request or at the operation's end, it leaves the reader, SEG_MIN and SEG_MAX alone, and it keeps the path
state's invariant. -/

namespace Sys2Proof.Machine

/-! ### Right-hand sides that ask nothing leave the reader alone -/

theorem evalExpr_of_constant {e : Expr} {rd rd' : Reader} {v : Int} (he : e.field = none)
    (h : evalExpr e rd = some (v, rd')) : rd' = rd := by
  simp only [evalExpr, he, Option.some.injEq, Prod.mk.injEq] at h
  exact h.2.symm

theorem addSeg_reader_of_constant {i : Nat} {e : Expr} {c c' : OpCtx} (he : e.field = none)
    (h : addSeg i e c = .ok c') : c'.rd = c.rd := by
  obtain ⟨v, rd, h1, -, rfl⟩ := addSeg_ok_iff.mp h
  exact evalExpr_of_constant he h1

theorem pushTimes_reader_of_constant {e : Expr} (he : e.field = none) :
    ∀ (n : Nat) (c c' : OpCtx), pushTimes n e c = .ok c' → c'.rd = c.rd
  | 0, c, c', h => by
    simp only [pushTimes, Except.ok.injEq] at h
    rw [h]
  | n + 1, c, c', h => by
    simp only [pushTimes] at h
    split at h
    · cases h
    · rename_i d hd
      obtain ⟨-, v, rd, h1, -, rfl⟩ := push_ok_iff.mp hd
      exact (pushTimes_reader_of_constant he n _ c' h).trans (evalExpr_of_constant he h1)

/-! ### Up to the next request -/

/-- Everything that `unaskedPart` can be: the micro-step not begun, one of the two loops up to its first request, or the
whole micro-step, which asks nothing. -/
theorem unaskedPart_cases (m : Micro) (c : OpCtx) :
    ((microRequest m).isSome = true ∧ unaskedPart m c = .ok (c, [m])) ∨
    (∃ e, m = .guardLoop e ∧ unaskedPart m c = .ok (c, [.guardsLeft (c.ps.cur + 1) 0 e])) ∨
    (∃ n q b, m = .pushes (n + 1) ⟨some q, b⟩ ∧
      unaskedPart m c = (enter c).map fun c' => (c', [.setTop ⟨some q, b⟩, .pushes n ⟨some q, b⟩])) ∨
    ((microRequest m).isSome = false ∧ (∀ c', runMicro m c = .ok c' → c'.rd = c.rd) ∧
      unaskedPart m c = (runMicro m c).map fun c' => (c', [])) := by
  by_cases h : (microRequest m).isSome = true
  · exact .inl ⟨h, by simp [unaskedPart, h]⟩
  have h' : (microRequest m).isSome = false := by simpa using h
  have whole : (∀ c', runMicro m c = .ok c' → c'.rd = c.rd) →
      (∀ e, m ≠ .guardLoop e) → (∀ n q b, m ≠ .pushes (n + 1) ⟨some q, b⟩) →
      (microRequest m).isSome = false ∧ (∀ c', runMicro m c = .ok c' → c'.rd = c.rd) ∧
        unaskedPart m c = (runMicro m c).map fun c' => (c', []) := by
    intro hr h1 h2
    refine ⟨h', hr, ?_⟩
    unfold unaskedPart
    rw [if_neg h]
    split
    · exact absurd rfl (h1 _)
    · exact absurd rfl (h2 _ _ _)
    · cases runMicro m c <;> rfl
  have free : ∀ e : Expr, e.field.isSome = false → e.field = none := by simp
  cases m with
  | addTop e => exact .inr (.inr (.inr (whole (fun _ k => addSeg_reader_of_constant (free e h') k) nofun nofun)))
  | addRoot e => exact .inr (.inr (.inr (whole (fun _ k => addSeg_reader_of_constant (free e h') k) nofun nofun)))
  | addLevel i e => exact .inr (.inr (.inr (whole (fun _ k => addSeg_reader_of_constant (free e h') k) nofun nofun)))
  | addPenultimate =>
    refine .inr (.inr (.inr (whole (fun _ k => ?_) nofun nofun)))
    obtain ⟨-, -, rfl⟩ := addPenultimate_ok_iff.mp k
    rfl
  | enter =>
    refine .inr (.inr (.inr (whole (fun _ k => ?_) nofun nofun)))
    obtain ⟨-, rfl⟩ := enter_ok_iff.mp k
    rfl
  | setTop e =>
    refine .inr (.inr (.inr (whole (fun _ k => ?_) nofun nofun)))
    obtain ⟨v, rd, k1, -, rfl⟩ := setTop_ok_iff.mp k
    exact evalExpr_of_constant (free e h') k1
  | pop n =>
    refine .inr (.inr (.inr (whole (fun _ k => ?_) nofun nofun)))
    obtain ⟨-, rfl⟩ := pop_ok_iff.mp k
    rfl
  | popAll =>
    refine .inr (.inr (.inr (whole (fun _ k => ?_) nofun nofun)))
    obtain ⟨-, rfl⟩ := pop_ok_iff.mp k
    rfl
  | popRead q => cases h'
  | countPush d e => cases h'
  | setFin =>
    refine .inr (.inr (.inr (whole (fun _ k => ?_) nofun nofun)))
    cases k
    rfl
  | guardLoop e => exact .inr (.inl ⟨e, rfl, by simp [unaskedPart, microRequest]⟩)
  | guardsLeft k i e =>
    cases k with
    | zero =>
      refine .inr (.inr (.inr (whole (fun _ k => ?_) nofun nofun)))
      cases k
      rfl
    | succ k => cases h'
  | pushes n e =>
    obtain ⟨field, bias⟩ := e
    cases field with
    | none => exact .inr (.inr (.inr (whole (fun _ k => pushTimes_reader_of_constant rfl n _ _ k) nofun nofun)))
    | some q =>
      cases n with
      | zero =>
        refine .inr (.inr (.inr (whole (fun _ k => ?_) nofun nofun)))
        cases k
        rfl
      | succ n =>
        refine .inr (.inr (.inl ⟨n, q, bias, rfl, ?_⟩))
        simp only [unaskedPart, h', Bool.false_eq_true, ↓reduceIte]
        cases enter c <;> rfl

/-- What a micro-step does before its first request is a first part of it. -/
theorem runMicros_unaskedPart (m : Micro) (ms : List Micro) (c : OpCtx) : runMicros (m :: ms) c =
    match unaskedPart m c with
    | .error f => .error f
    | .ok (c', left) => runMicros (left ++ ms) c' := by
  rcases unaskedPart_cases m c with ⟨-, h⟩ | ⟨e, rfl, h⟩ | ⟨n, q, b, rfl, h⟩ | ⟨-, -, h⟩
  · rw [h]
    rfl
  · rw [h]
    simp [runMicros, runMicro]
  · rw [h]
    simp only [runMicros, runMicro, pushTimes, push]
    cases enter c with
    | error f => rfl
    | ok c' =>
      simp only [Except.map, List.cons_append, List.nil_append, runMicros, runMicro]
      cases setTop ⟨some q, b⟩ c' <;> rfl
  · rw [h, runMicros]
    cases runMicro m c <;> rfl

/-- What an operation does without an answer is a first part of it. -/
theorem runMicros_runUnasked : ∀ (ms : List Micro) (c : OpCtx), runMicros ms c =
    match runUnasked ms c with
    | .error f => .error f
    | .ok (c', left) => runMicros left c'
  | [], c => rfl
  | m :: ms, c => by
    rw [runMicros_unaskedPart, runUnasked]
    cases unaskedPart m c with
    | error f => rfl
    | ok p =>
      obtain ⟨c', left⟩ := p
      cases left with
      | nil => exact runMicros_runUnasked ms c'
      | cons m' left => rfl

/-- What is left of it begins with a request. -/
theorem runUnasked_offers : ∀ (ms : List Micro) (c c' : OpCtx) (m : Micro) (left : List Micro),
    runUnasked ms c = .ok (c', m :: left) → (microRequest m).isSome = true
  | [], c, c', m, left, h => by simp [runUnasked] at h
  | m0 :: ms, c, c', m, left, h => by
    rw [runUnasked] at h
    rcases unaskedPart_cases m0 c with ⟨hm, hu⟩ | ⟨e, rfl, hu⟩ | ⟨n, q, b, rfl, hu⟩ | ⟨-, -, hu⟩ <;> rw [hu] at h
    · simp only [Except.ok.injEq, Prod.mk.injEq, List.cons_append, List.cons.injEq] at h
      rw [← h.2.1]
      exact hm
    · simp only [Except.ok.injEq, Prod.mk.injEq, List.cons_append, List.cons.injEq] at h
      rw [← h.2.1]
      rfl
    · cases he : enter c with
      | error f => simp [he, Except.map] at h
      | ok d =>
        simp only [he, Except.map, Except.ok.injEq, Prod.mk.injEq, List.cons_append, List.cons.injEq] at h
        rw [← h.2.1]
        rfl
    · cases he : runMicro m0 c with
      | error f => simp [he, Except.map] at h
      | ok d =>
        simp only [he, Except.map] at h
        exact runUnasked_offers ms d c' m left h

/-- An operation stays where it is at a micro-step that offers a request. -/
theorem runUnasked_of_request {m : Micro} {ms : List Micro} {c : OpCtx} (h : (microRequest m).isSome = true) :
    runUnasked (m :: ms) c = .ok (c, m :: ms) := by
  simp [runUnasked, unaskedPart, h]

/-- It keeps the path state's invariant, and the levels that the rest of the operation names stay active. -/
theorem runUnasked_good : ∀ (ms left : List Micro) (c c' : OpCtx), Good c.ps → levelsOk c.ps.cur ms = true →
    runUnasked ms c = .ok (c', left) → Good c'.ps ∧ levelsOk c'.ps.cur left = true
  | [], left, c, c', hg, hl, h => by
    simp only [runUnasked, Except.ok.injEq, Prod.mk.injEq] at h
    obtain ⟨rfl, rfl⟩ := h
    exact ⟨hg, hl⟩
  | m :: ms, left, c, c', hg, hl, h => by
    rw [runUnasked] at h
    rcases unaskedPart_cases m c with ⟨-, hu⟩ | ⟨e, rfl, hu⟩ | ⟨n, q, b, rfl, hu⟩ | ⟨-, -, hu⟩ <;> rw [hu] at h
    · simp only [Except.ok.injEq, Prod.mk.injEq, List.cons_append, List.nil_append] at h
      obtain ⟨rfl, rfl⟩ := h
      exact ⟨hg, hl⟩
    · simp only [Except.ok.injEq, Prod.mk.injEq, List.cons_append, List.nil_append] at h
      obtain ⟨rfl, rfl⟩ := h
      exact ⟨hg, by simpa [levelsOk] using (levels_free rfl hl).1⟩
    · cases he : enter c with
      | error f => simp [he, Except.map] at h
      | ok d =>
        simp only [he, Except.map, Except.ok.injEq, Prod.mk.injEq, List.cons_append, List.nil_append] at h
        obtain ⟨rfl, rfl⟩ := h
        obtain ⟨hc, rfl⟩ := enter_ok_iff.mp he
        exact ⟨hg.enter hc, levelsOk_of_free (by simpa [levelFree] using (levels_free (cur' := 0) rfl hl).2)⟩
    · cases he : runMicro m c with
      | error f => simp [he, Except.map] at h
      | ok d =>
        simp only [he, Except.map] at h
        have := runMicro_good hg hl he
        exact runUnasked_good ms left d c' this.1 this.2 h

/-- What an operation does without an answer leaves the reader as it is, and SEG_MIN and SEG_MAX. -/
theorem unaskedPart_reader {m : Micro} {c c' : OpCtx} {left : List Micro} (h : unaskedPart m c = .ok (c', left)) :
    c'.rd = c.rd ∧ c'.ps.range = c.ps.range := by
  rcases unaskedPart_cases m c with ⟨-, hu⟩ | ⟨e, rfl, hu⟩ | ⟨n, q, b, rfl, hu⟩ | ⟨-, hk, hu⟩ <;> rw [hu] at h
  · simp only [Except.ok.injEq, Prod.mk.injEq] at h
    simp [h.1]
  · simp only [Except.ok.injEq, Prod.mk.injEq] at h
    simp [h.1]
  · cases he : enter c with
    | error f => simp [he, Except.map] at h
    | ok d =>
      simp only [he, Except.map, Except.ok.injEq, Prod.mk.injEq] at h
      obtain ⟨-, rfl⟩ := enter_ok_iff.mp he
      simp [← h.1]
  · cases hr : runMicro m c with
    | error f => simp [hr, Except.map] at h
    | ok d =>
      simp only [hr, Except.map, Except.ok.injEq, Prod.mk.injEq] at h
      rw [← h.1]
      exact ⟨hk d hr, (runMicro_onward hr).2.2.2⟩

theorem runUnasked_reader : ∀ (ms left : List Micro) (c c' : OpCtx), runUnasked ms c = .ok (c', left) →
    c'.rd = c.rd ∧ c'.ps.range = c.ps.range
  | [], left, c, c', h => by
    simp only [runUnasked, Except.ok.injEq, Prod.mk.injEq] at h
    simp [h.1]
  | m :: ms, left, c, c', h => by
    rw [runUnasked] at h
    cases hu : unaskedPart m c with
    | error f => simp [hu] at h
    | ok p =>
      obtain ⟨d, l⟩ := p
      have hd := unaskedPart_reader hu
      cases l with
      | nil =>
        simp only [hu] at h
        have := runUnasked_reader ms left d c' h
        exact ⟨this.1.trans hd.1, this.2.trans hd.2⟩
      | cons m' l =>
        simp only [hu, Except.ok.injEq, Prod.mk.injEq] at h
        rw [← h.1]
        exact hd

/-! ### The rest of a running operation -/

/-- Everything that the rest of an operation does without an answer: it ends or faults just as it does with one, or it
stands at a request, from which the rest goes on with one as the whole does. -/
theorem resumeUnasked_cases (ms : List Micro) (s : State) :
    (∃ c : OpCtx, resumeUnasked ms s = .next (finishOperation { s with ps := c.ps, rd := c.rd }) ∧
      resume ms s = .next (finishOperation { s with ps := c.ps, rd := c.rd })) ∨
    (∃ f, resumeUnasked ms s = .next (raiseFault f s) ∧ resume ms s = .next (raiseFault f s)) ∨
    (∃ ps m left, (microRequest m).isSome = true ∧
      resumeUnasked ms s = .next { s with ps := ps, mstep := some (m :: left) } ∧
      resume ms s = resume (m :: left) { s with ps := ps, mstep := some (m :: left) }) := by
  have hr := runMicros_runUnasked ms ⟨s.ps, s.rd⟩
  cases hu : runUnasked ms ⟨s.ps, s.rd⟩ with
  | error f =>
    rw [hu] at hr
    exact .inr (.inl ⟨f, by simp [resumeUnasked, hu], by simp [resume, hr]⟩)
  | ok p =>
    obtain ⟨c, left⟩ := p
    rw [hu] at hr
    cases left with
    | nil => exact .inl ⟨c, by simp [resumeUnasked, hu], by simp [resume, hr]⟩
    | cons m left =>
      have hd := runUnasked_reader _ _ _ _ hu
      obtain ⟨ps, rd⟩ := c
      obtain ⟨rfl, hrange⟩ : rd = s.rd ∧ ps.range = s.ps.range := hd
      refine .inr (.inr ⟨ps, m, left, runUnasked_offers _ _ _ _ _ hu, by simp [resumeUnasked, hu], ?_⟩)
      simp only [resume, hr]
      cases runMicros (m :: left) ⟨ps, s.rd⟩ with
      | ok c => rfl
      | error f => simp only [raiseFault, traced, hrange]

end Sys2Proof.Machine
end

