-- ==== Sys2Proof/Tests/Slice0.lean ====
section
/-! SUPPORT. Our own tests. The expected results are the spec's: the code table (30_encoding.md R63), the vectors V<n> and
the layouts of 95_test_vectors.md, the rules' own examples. And for every obligation with hypotheses a state and operands
that meet them. -/

namespace Sys2Proof.Tests

open Sys2Proof Sys2Proof.Machine

/-! ### Helpers -/

/-- Bits written as digits, the first bit read first. -/
def bits (ds : List Nat) : Bits := ds.map (· == 1)

/-- A path state written as its levels, outermost first, with the stated SEG_MIN and SEG_MAX. -/
def path (levels : List Int) : PathState :=
  ⟨⟨levels.getD 0 0, levels.getD 1 0, levels.getD 2 0, levels.getD 3 0, levels.getD 4 0, levels.getD 5 0⟩,
    levels.length - 1, false, .reference⟩

/-- A reader on `bs` at a position, with the reference BR. -/
def reader (bs : Bits) (pos : Nat) : Reader := ⟨bs, pos, .reference⟩

/-- A BR that is not the reference one: most significant bit first, UBV as eight bits, and UBVFP and VarS32 as a selector bit
before four or eight bits, the latter minus 100. -/
def otherBR : BR :=
  ⟨.msbFirst, .take 8 0 .stop, .branch (.take 4 0 .stop) (.take 8 0 .stop),
    .branch (.take 4 0 (.give false (-100))) (.skip 2 (.take 8 0 (.give true (-100))))⟩

/-- A state about to fetch an operation from `ds`. -/
def before (levels : List Int) (ds : List Nat) : State := placeBits (bits ds) { State.reset with ps := path levels }

/-- A state in which an operation has been fetched and its operands are `ds`. -/
def running (levels : List Int) (ds : List Nat) : State :=
  { before levels ds with estate := .run .execute }

/-- A state of a machine built with other SEG_MIN and SEG_MAX. -/
def ranged (range : SegRange) (s : State) : State := { s with ps := { s.ps with range := range } }

/-- SEG_MIN = -3 and SEG_MAX = 2. -/
def narrow : SegRange := ⟨some 2, some 2⟩

/-- What one step leaves where it faults not: the levels and the bits read. -/
def result (levels : List Int) (ds : List Nat) : Option (List Int × Nat) :=
  match step (before levels ds) with
  | .next t => if t.fkind = .none then some (t.ps.snapshot, t.rd.pos) else none
  | .fault _ => none
  | .refused _ => none

/-- The fault kind that one step leaves. -/
def raised (levels : List Int) (ds : List Nat) : Option FKind :=
  match step (before levels ds) with
  | .next t => some t.fkind
  | .fault _ => none
  | .refused _ => none

/-! ### Each operation's code, bit by bit (R63) -/

theorem test_decode_plusOne :
    decode (bits [0]) = .ok (.plusOne, []) := by decide
theorem test_decode_plusTwo :
    decode (bits [1, 1, 1, 0]) = .ok (.plusTwo, []) := by decide
theorem test_decode_plusThree :
    decode (bits [1, 1, 0, 0, 1, 0]) = .ok (.plusThree, []) := by decide
theorem test_decode_plusFour :
    decode (bits [1, 1, 0, 1, 1, 1, 1, 1]) = .ok (.plusFour, []) := by decide
theorem test_decode_plusN :
    decode (bits [1, 1, 0, 1, 0]) = .ok (.plusN, []) := by decide
theorem test_decode_pushOneLeftDeltaZeroRightZero :
    decode (bits [1, 1, 0, 1, 1, 0, 0, 0, 1, 1, 0, 1]) = .ok (.pushOneLeftDeltaZeroRightZero, []) := by decide
theorem test_decode_pushOneLeftDeltaZeroRightNonZero :
    decode (bits [1, 1, 0, 1, 1, 0, 0, 0, 1, 1, 0, 0, 1, 0, 1]) = .ok (.pushOneLeftDeltaZeroRightNonZero,
        []) := by decide
theorem test_decode_pushOneLeftDeltaOneRightZero :
    decode (bits [1, 1, 0, 1, 1, 0, 1, 0]) = .ok (.pushOneLeftDeltaOneRightZero, []) := by decide
theorem test_decode_pushOneLeftDeltaOneRightNonZero :
    decode (bits [1, 1, 0, 0, 0]) = .ok (.pushOneLeftDeltaOneRightNonZero, []) := by decide
theorem test_decode_pushOneLeftDeltaNRightZero :
    decode (bits [1, 1, 0, 1, 1, 1, 0, 0]) = .ok (.pushOneLeftDeltaNRightZero, []) := by decide
theorem test_decode_pushOneLeftDeltaNRightNonZero :
    decode (bits [1, 1, 0, 1, 1, 0, 0, 1]) = .ok (.pushOneLeftDeltaNRightNonZero, []) := by decide
theorem test_decode_pushOneLeftDeltaNRightNonZeroPack6Bits :
    decode (bits [1, 1, 1, 1]) = .ok (.pushOneLeftDeltaNRightNonZeroPack6Bits, []) := by decide
theorem test_decode_pushOneLeftDeltaNRightNonZeroPack8Bits :
    decode (bits [1, 1, 0, 1, 1, 0, 1, 1, 0]) = .ok (.pushOneLeftDeltaNRightNonZeroPack8Bits, []) := by decide
theorem test_decode_pushTwoLeftDeltaZero :
    decode (bits [1, 1, 0, 1, 1, 0, 0, 0, 1, 1, 0, 0, 1, 0, 0, 0]) = .ok (.pushTwoLeftDeltaZero, []) := by decide
theorem test_decode_pushTwoPack5LeftDeltaZero :
    decode (bits [1, 1, 0, 1, 1, 0, 0, 0, 1, 1, 0, 0, 1, 0, 0, 1, 1]) = .ok (.pushTwoPack5LeftDeltaZero,
        []) := by decide
theorem test_decode_pushThreeLeftDeltaZero :
    decode (bits [1, 1, 0, 1, 1, 0, 0, 0, 1, 1, 0, 0, 1, 0, 0, 1, 0]) = .ok (.pushThreeLeftDeltaZero, []) := by decide
theorem test_decode_pushThreePack5LeftDeltaZero :
    decode (bits [1, 1, 0, 1, 1, 0, 0, 0, 1, 1, 0, 0, 1, 1, 1, 0, 1]) = .ok (.pushThreePack5LeftDeltaZero,
        []) := by decide
theorem test_decode_pushTwoLeftDeltaOne :
    decode (bits [1, 1, 0, 1, 1, 0, 0, 0, 1, 1, 0, 0, 1, 1, 1, 0, 0]) = .ok (.pushTwoLeftDeltaOne, []) := by decide
theorem test_decode_pushTwoPack5LeftDeltaOne :
    decode (bits [1, 1, 0, 1, 1, 0, 0, 0, 1, 1, 0, 0, 1, 1, 1, 1, 1]) = .ok (.pushTwoPack5LeftDeltaOne, []) := by decide
theorem test_decode_pushThreeLeftDeltaOne :
    decode (bits [1, 1, 0, 1, 1, 0, 0, 0, 1, 1, 0, 0, 1, 1, 1, 1, 0]) = .ok (.pushThreeLeftDeltaOne, []) := by decide
theorem test_decode_pushThreePack5LeftDeltaOne :
    decode (bits [1, 1, 0, 1, 1, 0, 0, 0, 1, 1, 0, 0, 1, 1, 0, 0, 1]) = .ok (.pushThreePack5LeftDeltaOne,
        []) := by decide
theorem test_decode_pushTwoLeftDeltaN :
    decode (bits [1, 1, 0, 1, 1, 0, 0, 0, 1, 1, 0, 0, 1, 1, 0, 0, 0]) = .ok (.pushTwoLeftDeltaN, []) := by decide
theorem test_decode_pushTwoPack5LeftDeltaN :
    decode (bits [1, 1, 0, 1, 1, 0, 0, 0, 1, 1, 0, 0, 1, 1, 0, 1, 1]) = .ok (.pushTwoPack5LeftDeltaN, []) := by decide
theorem test_decode_pushThreeLeftDeltaN :
    decode (bits [1, 1, 0, 1, 1, 0, 0, 0, 1, 1, 0, 0, 1, 1, 0, 1, 0]) = .ok (.pushThreeLeftDeltaN, []) := by decide
theorem test_decode_pushThreePack5LeftDeltaN :
    decode (bits [1, 1, 0, 1, 1, 0, 0, 0, 1, 1, 0, 0, 0, 1, 0, 1]) = .ok (.pushThreePack5LeftDeltaN, []) := by decide
theorem test_decode_pushN :
    decode (bits [1, 1, 0, 1, 1, 0, 0, 0, 1, 1, 0, 0, 0, 1, 0, 0]) = .ok (.pushN, []) := by decide
theorem test_decode_pushNAndNonTopological :
    decode (bits [1, 1, 0, 1, 1, 1, 0, 1, 1]) = .ok (.pushNAndNonTopological, []) := by decide
theorem test_decode_popOnePlusOne :
    decode (bits [1, 1, 0, 1, 1, 0, 0, 0, 1, 1, 0, 0, 0, 0, 1]) = .ok (.popOnePlusOne, []) := by decide
theorem test_decode_popOnePlusN :
    decode (bits [1, 1, 0, 1, 1, 0, 0, 0, 1, 1, 0, 0, 0, 1, 1, 1]) = .ok (.popOnePlusN, []) := by decide
theorem test_decode_popAllButOnePlusOne :
    decode (bits [1, 1, 0, 0, 1, 1]) = .ok (.popAllButOnePlusOne, []) := by decide
theorem test_decode_popAllButOnePlusN :
    decode (bits [1, 1, 0, 1, 1, 0, 0, 0, 0]) = .ok (.popAllButOnePlusN, []) := by decide
theorem test_decode_popAllButOnePlusNPack3Bits :
    decode (bits [1, 1, 0, 1, 1, 1, 0, 1, 0]) = .ok (.popAllButOnePlusNPack3Bits, []) := by decide
theorem test_decode_popAllButOnePlusNPack6Bits :
    decode (bits [1, 1, 0, 1, 1, 1, 1, 0]) = .ok (.popAllButOnePlusNPack6Bits, []) := by decide
theorem test_decode_popNPlusOne :
    decode (bits [1, 1, 0, 1, 1, 0, 0, 0, 1, 1, 0, 0, 0, 1, 1, 0]) = .ok (.popNPlusOne, []) := by decide
theorem test_decode_popNPlusN :
    decode (bits [1, 1, 0, 1, 1, 0, 0, 0, 1, 1, 0, 0, 0, 0, 0, 1]) = .ok (.popNPlusN, []) := by decide
theorem test_decode_popNAndNonTopographical :
    decode (bits [1, 1, 0, 1, 1, 0, 0, 0, 1, 1, 0, 0, 0, 0, 0, 0]) = .ok (.popNAndNonTopographical, []) := by decide
theorem test_decode_nonTopoComplex :
    decode (bits [1, 1, 0, 1, 1, 0, 0, 0, 1, 1, 1]) = .ok (.nonTopoComplex, []) := by decide
theorem test_decode_nonTopoPenultimatePlusOne :
    decode (bits [1, 1, 0, 1, 1, 0, 1, 1, 1]) = .ok (.nonTopoPenultimatePlusOne, []) := by decide
theorem test_decode_nonTopoComplexPack4Bits :
    decode (bits [1, 1, 0, 1, 1, 0, 0, 0, 1, 0]) = .ok (.nonTopoComplexPack4Bits, []) := by decide
theorem test_decode_fieldPathEncodeFinish :
    decode (bits [1, 0]) = .ok (.fieldPathEncodeFinish, []) := by decide

/-! ### One step of each operation (95_test_vectors.md) -/

theorem test_plusOne_V1 :
    result [-1] [0] = some ([0], 1) := by decide
theorem test_plusOne_V9 :
    raised [2147483647] [0] = some .segmentRange := by decide
theorem test_plusTwo_V3 :
    result [3, 4] [1, 1, 1, 0] = some ([3, 6], 4) := by decide
theorem test_plusThree_V4 :
    result [0] [1, 1, 0, 0, 1, 0] = some ([3], 6) := by decide
theorem test_plusFour_V5 :
    result [0, 0, 9] [1, 1, 0, 1, 1, 1, 1, 1] = some ([0, 0, 13], 8) := by decide
theorem test_plusN_V8 :
    result [2] [1, 1, 0, 1, 0, 0, 0, 1, 0, 0, 0, 1, 0, 1, 1, 1, 1, 1] = some ([1007], 18) := by decide
theorem test_plusN_V11 :
    raised [2147483643] [1, 1, 0, 1, 0, 1, 0, 0] = some .segmentRange := by decide
theorem test_pushOneLeftDeltaZeroRightZero_V13 :
    result [-1] [1, 1, 0, 1, 1, 0, 0, 0, 1, 1, 0, 1] = some ([-1, 0], 12) := by decide
theorem test_pushOneLeftDeltaZeroRightZero_V15 :
    raised [1, 2, 3, 4, 5, 6] [1, 1, 0, 1, 1, 0, 0, 0, 1, 1, 0, 1] = some .pathOverflow := by decide
theorem test_pushOneLeftDeltaZeroRightNonZero_V16 :
    result [4] [1, 1, 0, 1, 1, 0, 0, 0, 1, 1, 0, 0, 1, 0, 1, 0, 1, 1, 0, 0, 1] = some ([4, 9], 21) := by decide
theorem test_pushOneLeftDeltaZeroRightNonZero_V17 :
    raised [1, 2, 3, 4, 5, 6] [1, 1, 0, 1, 1, 0, 0, 0, 1, 1, 0, 0, 1, 0, 1, 0, 1, 1, 0, 0, 1] =
        some .pathOverflow := by decide
theorem test_pushOneLeftDeltaOneRightZero_V18 :
    result [4] [1, 1, 0, 1, 1, 0, 1, 0] = some ([5, 0], 8) := by decide
theorem test_pushOneLeftDeltaOneRightZero_V19 :
    raised [1, 2, 3, 4, 5, 6] [1, 1, 0, 1, 1, 0, 1, 0] = some .pathOverflow := by decide
theorem test_pushOneLeftDeltaOneRightNonZero_V20 :
    result [4] [1, 1, 0, 0, 0, 1, 1, 1] = some ([5, 3], 8) := by decide
theorem test_pushOneLeftDeltaNRightZero_V22 :
    result [4] [1, 1, 0, 1, 1, 1, 0, 0, 0, 1, 0, 0, 1, 1] = some ([16, 0], 14) := by decide
theorem test_pushOneLeftDeltaNRightZero_V21 :
    result [4] [1, 1, 0, 1, 1, 1, 0, 0, 1, 0, 0] = some ([4, 0], 11) := by decide
theorem test_pushOneLeftDeltaNRightNonZero_V24 :
    result [4] [1, 1, 0, 1, 1, 0, 0, 1, 0, 1, 1, 0, 1, 0, 0, 0, 1, 0, 0, 1, 0, 1, 0, 0, 0, 0, 0] = some ([11, 21],
        27) := by decide
theorem test_pushOneLeftDeltaNRightNonZero_V23 :
    result [4] [1, 1, 0, 1, 1, 0, 0, 1, 1, 0, 0, 1, 0, 0] = some ([6, 1], 14) := by decide
theorem test_pushOneLeftDeltaNRightNonZeroPack6Bits_V25 :
    result [4] [1, 1, 1, 1, 0, 0, 0, 0, 0, 0] = some ([6, 1], 10) := by decide
theorem test_pushOneLeftDeltaNRightNonZeroPack6Bits_V28 :
    raised [4] [1, 1, 1, 1, 1, 1, 0, 1] = some .malformedStream := by decide
theorem test_pushOneLeftDeltaNRightNonZeroPack8Bits_V27 :
    result [4] [1, 1, 0, 1, 1, 0, 1, 1, 0, 1, 1, 1, 1, 1, 0, 0, 0] = some ([21, 2], 17) := by decide
theorem test_pushTwoLeftDeltaZero_V29 :
    result [4] [1, 1, 0, 1, 1, 0, 0, 0, 1, 1, 0, 0, 1, 0, 0, 0, 1, 1, 0, 1, 0, 1] = some ([4, 1, 2], 22) := by decide
theorem test_pushTwoLeftDeltaZero_V42 :
    raised [1, 2, 3, 4, 5] [1, 1, 0, 1, 1, 0, 0, 0, 1, 1, 0, 0, 1, 0, 0, 0, 1, 1, 0, 1, 0, 1] =
        some .pathOverflow := by decide
theorem test_pushTwoPack5LeftDeltaZero_V30 :
    result [4] [1, 1, 0, 1, 1, 0, 0, 0, 1, 1, 0, 0, 1, 0, 0, 1, 1, 1, 1, 1, 1, 1, 0, 0, 0, 0, 0] = some ([4, 31, 0],
        27) := by decide
theorem test_pushThreeLeftDeltaZero_V31 :
    result [4] [1, 1, 0, 1, 1, 0, 0, 0, 1, 1, 0, 0, 1, 0, 0, 1, 0, 1, 0, 0, 0, 1, 1, 0, 1, 0, 0, 0, 1, 0, 0, 1, 1, 0,
        1, 0, 0, 1, 0] = some ([4, 0, 5, 300], 39) := by decide
theorem test_pushThreePack5LeftDeltaZero_V32 :
    result [4] [1, 1, 0, 1, 1, 0, 0, 0, 1, 1, 0, 0, 1, 1, 1, 0, 1, 1, 0, 0, 0, 0, 0, 1, 0, 0, 0, 1, 1, 0, 0, 0] =
        some ([4, 1, 2, 3], 32) := by decide
theorem test_pushTwoLeftDeltaOne_V33 :
    result [4] [1, 1, 0, 1, 1, 0, 0, 0, 1, 1, 0, 0, 1, 1, 1, 0, 0, 1, 0, 0, 1, 0, 0] = some ([5, 0, 0], 23) := by decide
theorem test_pushTwoPack5LeftDeltaOne_V34 :
    result [4] [1, 1, 0, 1, 1, 0, 0, 0, 1, 1, 0, 0, 1, 1, 1, 1, 1, 0, 0, 1, 0, 0, 1, 0, 1, 0, 0] = some ([5, 4, 5],
        27) := by decide
theorem test_pushThreeLeftDeltaOne_V35 :
    result [4] [1, 1, 0, 1, 1, 0, 0, 0, 1, 1, 0, 0, 1, 1, 1, 1, 0, 1, 1, 0, 1, 1, 0, 1, 1, 0] = some ([5, 1, 1, 1],
        26) := by decide
theorem test_pushThreeLeftDeltaOne_V44 :
    raised [1, 2, 3, 4] [1, 1, 0, 1, 1, 0, 0, 0, 1, 1, 0, 0, 1, 1, 1, 1, 0, 1, 1, 0, 1, 1, 0, 1, 1, 0] =
        some .pathOverflow := by decide
theorem test_pushThreePack5LeftDeltaOne_V36 :
    result [4] [1, 1, 0, 1, 1, 0, 0, 0, 1, 1, 0, 0, 1, 1, 0, 0, 1, 0, 0, 0, 0, 0, 0, 0, 0, 0, 0, 0, 0, 0, 0, 0] =
        some ([5, 0, 0, 0], 32) := by decide
theorem test_pushTwoLeftDeltaN_V37 :
    result [4] [1, 1, 0, 1, 1, 0, 0, 0, 1, 1, 0, 0, 1, 1, 0, 0, 0, 0, 0, 0, 0, 0, 0, 1, 1, 0, 1, 0, 1] = some ([6, 1,
        2], 29) := by decide
theorem test_pushTwoPack5LeftDeltaN_V38 :
    result [4] [1, 1, 0, 1, 1, 0, 0, 0, 1, 1, 0, 0, 1, 1, 0, 1, 1, 0, 0, 1, 0, 1, 0, 1, 0, 0, 0, 0, 1, 1, 0, 0, 1, 1,
        1, 0, 0] = some ([26, 6, 7], 37) := by decide
theorem test_pushThreeLeftDeltaN_V39 :
    result [4] [1, 1, 0, 1, 1, 0, 0, 0, 1, 1, 0, 0, 1, 1, 0, 1, 0, 1, 0, 0, 0, 0, 0, 1, 0, 0, 1, 0, 0, 1, 0, 0] =
        some ([7, 0, 0, 0], 32) := by decide
theorem test_pushThreePack5LeftDeltaN_V40 :
    result [4] [1, 1, 0, 1, 1, 0, 0, 0, 1, 1, 0, 0, 0, 1, 0, 1, 0, 0, 0, 0, 0, 0, 1, 0, 0, 1, 0, 1, 0, 0, 1, 0, 1, 0,
        0, 1, 0] = some ([6, 9, 9, 9], 37) := by decide
theorem test_pushN_V46 :
    result [4] [1, 1, 0, 1, 1, 0, 0, 0, 1, 1, 0, 0, 0, 1, 0, 0, 0, 1, 0, 0, 0, 0, 1, 1, 0, 0, 0, 0, 1, 1, 0, 0, 1, 1,
        0, 1, 0] = some ([7, 1, 5], 37) := by decide
theorem test_pushN_V47 :
    raised [4] [1, 1, 0, 1, 1, 0, 0, 0, 1, 1, 0, 0, 0, 1, 0, 0, 0, 1, 1, 0, 0, 0, 0, 0, 0, 0, 0, 0, 1, 0, 0, 1, 0, 0,
        1, 0, 0, 1, 0, 0, 1, 0, 0, 1, 0, 0] = some .pathOverflow := by decide
theorem test_pushNAndNonTopological_V49 :
    result [4, 2] [1, 1, 0, 1, 1, 1, 0, 1, 1, 1, 1, 0, 0, 0, 0, 0, 0, 0, 1, 0, 1, 0, 1, 0, 0, 0, 0, 1, 0, 0, 0, 0, 0,
        1, 0, 0] = some ([4, 8, 0], 36) := by decide
theorem test_pushNAndNonTopological_V50 :
    raised [4, 2] [1, 1, 0, 1, 1, 1, 0, 1, 1, 0, 0, 1, 0, 1, 0, 0, 0, 1, 0, 0, 1, 0, 0, 1, 0, 0, 1, 0, 0, 1, 0, 0] =
        some .pathOverflow := by decide
theorem test_popOnePlusOne_V51 :
    result [4, 2] [1, 1, 0, 1, 1, 0, 0, 0, 1, 1, 0, 0, 0, 0, 1] = some ([5], 15) := by decide
theorem test_popOnePlusOne_V52 :
    raised [4] [1, 1, 0, 1, 1, 0, 0, 0, 1, 1, 0, 0, 0, 0, 1] = some .pathUnderflow := by decide
theorem test_popOnePlusN_V53 :
    result [4, 2, 7] [1, 1, 0, 1, 1, 0, 0, 0, 1, 1, 0, 0, 0, 1, 1, 1, 1, 0, 0] = some ([4, 3], 19) := by decide
theorem test_popOnePlusN_V54 :
    raised [4] [1, 1, 0, 1, 1, 0, 0, 0, 1, 1, 0, 0, 0, 1, 1, 1, 1, 0, 0] = some .pathUnderflow := by decide
theorem test_popAllButOnePlusOne_V55 :
    result [4, 2, 7] [1, 1, 0, 0, 1, 1] = some ([5], 6) := by decide
theorem test_popAllButOnePlusOne_V56 :
    result [4] [1, 1, 0, 0, 1, 1] = some ([5], 6) := by decide
theorem test_popAllButOnePlusN_V58 :
    result [4, 2, 7] [1, 1, 0, 1, 1, 0, 0, 0, 0, 1, 1, 1] = some ([8], 12) := by decide
theorem test_popAllButOnePlusNPack3Bits_V59 :
    result [4, 2] [1, 1, 0, 1, 1, 1, 0, 1, 0, 0, 0, 0] = some ([5], 12) := by decide
theorem test_popAllButOnePlusNPack6Bits_V60 :
    result [4, 2] [1, 1, 0, 1, 1, 1, 1, 0, 0, 1, 0, 1, 0, 0] = some ([15], 14) := by decide
theorem test_popNPlusOne_V61 :
    result [4, 2, 7] [1, 1, 0, 1, 1, 0, 0, 0, 1, 1, 0, 0, 0, 1, 1, 0, 1, 0, 0] = some ([4, 2, 8], 19) := by decide
theorem test_popNPlusOne_V63 :
    raised [4, 2, 7] [1, 1, 0, 1, 1, 0, 0, 0, 1, 1, 0, 0, 0, 1, 1, 0, 1, 1, 1] = some .pathUnderflow := by decide
theorem test_popNPlusN_V64 :
    result [4, 2, 7] [1, 1, 0, 1, 1, 0, 0, 0, 1, 1, 0, 0, 0, 0, 0, 1, 1, 1, 0, 0, 0, 0, 0, 0, 0, 0, 0] = some ([4,
        2], 27) := by decide
theorem test_popNPlusN_V66 :
    raised [4, 2, 7] [1, 1, 0, 1, 1, 0, 0, 0, 1, 1, 0, 0, 0, 0, 0, 1, 1, 1, 1, 0, 1, 0, 0, 0, 0, 0, 0] =
        some .pathUnderflow := by decide
theorem test_popNAndNonTopographical_V69 :
    result [4, 2, 7] [1, 1, 0, 1, 1, 0, 0, 0, 1, 1, 0, 0, 0, 0, 0, 0, 1, 0, 1, 1, 0, 0, 1, 0, 1, 0, 0, 0] =
        some ([14], 28) := by decide
theorem test_popNAndNonTopographical_V70 :
    result [4, 2, 7] [1, 1, 0, 1, 1, 0, 0, 0, 1, 1, 0, 0, 0, 0, 0, 0, 1, 0, 0, 0, 0, 0] = some ([4, 2, 7],
        22) := by decide
theorem test_nonTopoComplex_V72 :
    result [4, 2] [1, 1, 0, 1, 1, 0, 0, 0, 1, 1, 1, 1, 0, 1, 0, 0, 0, 0, 0, 0, 1, 1, 0, 1, 0, 0, 0, 0, 0] = some ([5,
        -1], 29) := by decide
theorem test_nonTopoComplex_V75 :
    raised [4, 2] [1, 1, 0, 1, 1, 0, 0, 0, 1, 1, 1, 1, 0, 1, 0, 0, 0, 0, 0, 0, 1, 0, 0] =
        some .malformedStream := by decide
theorem test_nonTopoPenultimatePlusOne_V76 :
    result [4, 2] [1, 1, 0, 1, 1, 0, 1, 1, 1] = some ([5, 2], 9) := by decide
theorem test_nonTopoPenultimatePlusOne_V77 :
    raised [4] [1, 1, 0, 1, 1, 0, 1, 1, 1] = some .pathUnderflow := by decide
theorem test_nonTopoComplexPack4Bits_V79 :
    result [4, 2] [1, 1, 0, 1, 1, 0, 0, 0, 1, 0, 1, 0, 0, 0, 0, 1, 1, 1, 1, 1] = some ([-3, 10], 20) := by decide
theorem test_nonTopoComplexPack4Bits_V80 :
    result [4, 2] [1, 1, 0, 1, 1, 0, 0, 0, 1, 0, 1, 1, 1, 1, 0, 0] = some ([4, 2], 16) := by decide
theorem test_fieldPathEncodeFinish_V81 :
    (result [4, 2] [1, 0], (match step (before [4, 2] [1, 0]) with | .next t => t.estate | _ => .idle)) =
      (some ([4, 2], 2), .done) := by decide

/-! ### Field layouts (95_test_vectors.md section 2) -/

theorem test_ubv_16 : readRequest .reference .ubv (bits [0, 0, 0, 0, 1, 0, 1, 0, 0, 0]) = some (16, []) := by decide
theorem test_encode_ubv_16 : encodeRequest .ubv (16) = bits [0, 0, 0, 0, 1, 0, 1, 0, 0, 0] := by decide
theorem test_ubv_4096 : readRequest .reference .ubv (bits [0, 0, 0, 0, 1, 1, 0, 0, 0, 0, 0, 0, 0, 0, 1, 0, 0, 0, 0, 0, 0, 0, 0,
        0, 0, 0, 0, 0, 0, 0, 0, 0, 0, 0]) = some (4096, []) := by decide
theorem test_encode_ubv_4096 : encodeRequest .ubv (4096) = bits [0, 0, 0, 0, 1, 1, 0, 0, 0, 0, 0, 0, 0, 0, 1, 0, 0,
        0, 0, 0, 0, 0, 0, 0, 0, 0, 0, 0, 0, 0, 0, 0, 0, 0] := by decide
theorem test_ubvfp_15 : readRequest .reference .ubvfp (bits [0, 1, 1, 1, 1, 1]) = some (15, []) := by decide
theorem test_encode_ubvfp_15 : encodeRequest .ubvfp (15) = bits [0, 1, 1, 1, 1, 1] := by decide
theorem test_ubvfp_1024 : readRequest .reference .ubvfp (bits [0, 0, 0, 1, 0, 0, 0, 0, 0, 0, 0, 0, 0, 0, 1, 0, 0, 0, 0, 0,
        0]) = some (1024, []) := by decide
theorem test_encode_ubvfp_1024 : encodeRequest .ubvfp (1024) = bits [0, 0, 0, 1, 0, 0, 0, 0, 0, 0, 0, 0, 0, 0, 1, 0,
        0, 0, 0, 0, 0] := by decide
theorem test_varS32_minus_65 : readRequest .reference .varS32 (bits [1, 0, 0, 0, 0, 0, 0, 1, 1, 0, 0, 0, 0, 0, 0,
        0]) = some (-65, []) := by decide
theorem test_encode_varS32_minus_65 : encodeRequest .varS32 (-65) = bits [1, 0, 0, 0, 0, 0, 0, 1, 1, 0, 0, 0, 0, 0,
        0, 0] := by decide
theorem test_varS32_minus_2147483648 : readRequest .reference .varS32 (bits [1, 1, 1, 1, 1, 1, 1, 1, 1, 1, 1, 1, 1, 1, 1, 1, 1,
        1, 1, 1, 1, 1, 1, 1, 1, 1, 1, 1, 1, 1, 1, 1, 1, 1, 1, 1, 0, 0, 0, 0]) = some (-2147483648, []) := by decide
theorem test_encode_varS32_minus_2147483648 : encodeRequest .varS32 (-2147483648) = bits [1, 1, 1, 1, 1, 1, 1, 1, 1,
        1, 1, 1, 1, 1, 1, 1, 1, 1, 1, 1, 1, 1, 1, 1, 1, 1, 1, 1, 1, 1, 1, 1, 1, 1, 1, 1, 0, 0, 0, 0] := by decide

/-- Five groups of ones stop after the fifth. -/
theorem test_varS32_stops_after_five_groups :
    readRequest .reference .varS32 (List.replicate 41 true) = some (-2147483648, [true]) := by decide

/-- A UBV whose high part is cut off. -/
theorem test_ubv_exhausted :
    readRequest .reference .ubv (bits [0, 0, 0, 0, 1, 1, 1, 1, 1, 1, 1, 1, 1, 1, 1, 1]) = none := by decide

/-- 20_memory.md R50: stream bit i is bit i mod 8 of byte i / 8 (0xFC, 0x74: the bytes of a program of section 4). -/
theorem test_bits_of_bytes : bitsOfBytes [0xFC, 0x74] =
    bits [0, 0, 1, 1, 1, 1, 1, 1, 0, 0, 1, 0, 1, 1, 1, 0] := by decide

/-! ### WellFormed: an ill-formed line for each check is refused, a well-formed one is not -/

theorem test_wf_no_operands : (Line.mk .plusOne []).wf 0 = true := by decide
theorem test_wf_operand_too_many : (Line.mk .plusOne [.field 1]).wf 0 = false := by decide
theorem test_wf_operand_missing : (Line.mk .plusN []).wf 0 = false := by decide
theorem test_wf_field : (Line.mk .plusN [.field 2147483647]).wf 0 = true := by decide
theorem test_wf_field_too_large : (Line.mk .plusN [.field 2147483648]).wf 0 = false := by decide
theorem test_wf_field_negative : (Line.mk .plusN [.field (-1)]).wf 0 = false := by decide
theorem test_wf_shape : (Line.mk .plusN [.values [1]]).wf 0 = false := by decide
theorem test_wf_pack : (Line.mk .popAllButOnePlusNPack3Bits [.field 7]).wf 0 = true := by decide
theorem test_wf_pack_too_large : (Line.mk .popAllButOnePlusNPack3Bits [.field 8]).wf 0 = false := by decide
theorem test_wf_pop_count : (Line.mk .popNPlusOne [.field 5]).wf 5 = true := by decide
theorem test_wf_pop_count_above_cursor : (Line.mk .popNPlusOne [.field 6]).wf 5 = true := by decide
theorem test_wf_pop_count_too_large : (Line.mk .popNPlusOne [.field 2147483648]).wf 5 = false := by decide
theorem test_wf_pop_count_field : (Line.mk .popNPlusOne [.field (-1)]).wf 5 = false := by decide
theorem test_wf_signed : (Line.mk .popNPlusN [.field 0, .field (-2147483648)]).wf 0 = true := by decide
theorem test_wf_signed_too_small : (Line.mk .popNPlusN [.field 0, .field (-2147483649)]).wf 0 = false := by decide
theorem test_wf_values : (Line.mk .pushN [.field 2, .field 4294967295, .values [1, 5]]).wf 0 = true := by decide
theorem test_wf_values_count : (Line.mk .pushN [.field 2, .field 3, .values [1]]).wf 0 = false := by decide
theorem test_wf_values_field : (Line.mk .pushN [.field 1, .field 3, .values [-1]]).wf 0 = false := by decide
theorem test_wf_push_count_field : (Line.mk .pushN [.field 4294967296, .field 3, .values []]).wf 0 = false := by decide
theorem test_wf_guards : (Line.mk .nonTopoComplex [.guards [some (-3), none]]).wf 1 = true := by decide
theorem test_wf_guards_count : (Line.mk .nonTopoComplex [.guards [some 1]]).wf 1 = false := by decide
theorem test_wf_guards_after_too_large_pop :
    (Line.mk .popNAndNonTopographical [.field 6, .guards []]).wf 5 = true := by decide
theorem test_wf_no_guard_is_left :
    (Line.mk .popNAndNonTopographical [.field 6, .guards [none]]).wf 5 = false := by decide
theorem test_wf_guards_field : (Line.mk .nonTopoComplexPack4Bits [.guards [some 16]]).wf 0 = false := by decide

/-- 30_encoding.md R68, V69: the guards of a line after a pop of 2 from cursor 2 are one. -/
theorem test_line_after_pop :
    decodeLine .reference 2 (bits [1, 1, 0, 1, 1, 0, 0, 0, 1, 1, 0, 0, 0, 0, 0, 0, 1, 0, 1, 1, 0, 0, 1, 0, 1, 0, 0, 0]) =
      .ok (⟨.popNAndNonTopographical, [.field 2, .guards [some 10]]⟩, []) := by decide

/-- V63 and V66: a line whose pop count is more than the cursor is a line, though the machine's pop of it underflows. -/
theorem test_line_V63 :
    decodeLine .reference 2 (bits [1, 1, 0, 1, 1, 0, 0, 0, 1, 1, 0, 0, 0, 1, 1, 0, 1, 1, 1]) =
      .ok (⟨.popNPlusOne, [.field 3]⟩, []) := by decide
theorem test_line_V66 :
    decodeLine .reference 2
        (bits [1, 1, 0, 1, 1, 0, 0, 0, 1, 1, 0, 0, 0, 0, 0, 1, 1, 1, 1, 0, 1, 0, 0, 0, 0, 0, 0]) =
      .ok (⟨.popNPlusN, [.field 3, .field 1]⟩, []) := by decide

/-! ### BR is a parameter (00_scope.md R10, 70_reset_and_hazards.md R175) -/

/-- The same bits are different values, of different lengths, to two readers: each reads them by its own layouts. -/
theorem test_other_BR_reads_otherwise :
    readRequest otherBR .ubvfp (bits [1, 0, 0, 0, 0, 1, 1, 1, 0]) = some (14, []) ∧
      readRequest .reference .ubvfp (bits [1, 0, 0, 0, 0, 1, 1, 1, 0]) = some (0, bits [0, 0, 1, 1, 1, 0]) ∧
      readRequest otherBR (.bits 3) (bits [1, 1, 0]) = some (6, []) ∧
      readRequest .reference (.bits 3) (bits [1, 1, 0]) = some (3, []) ∧
      readRequest otherBR .varS32 (bits [1, 0, 0, 0, 0, 0, 0, 0, 1, 0, 1]) = some (-105, []) := by decide

/-- One step of PlusN with another BR: no fault, but another value and another POS (R175). -/
theorem test_step_with_other_BR :
    (match step { before [2] [1, 1, 0, 1, 0, 1, 0, 0, 0, 0, 1, 1, 1, 0] with
        rd := ⟨bits [1, 1, 0, 1, 0, 1, 0, 0, 0, 0, 1, 1, 1, 0], 0, otherBR⟩ } with
      | .next t => some (t.ps.snapshot, t.rd.pos)
      | .fault _ => none
      | .refused _ => none) = some ([21], 14) := by decide

/-! ### The finer granularity, reset and the host (40_decode_loop.md R77 to R96, 70_reset_and_hazards.md R170) -/

/-- The first tick of a traversal reads one code bit and moves NODE to the child it leads to (R78). -/
theorem test_tick_reads_one_bit :
    (match tick (before [-1] [1, 0]) with
      | .next t => some (t.node, t.rd.pos, t.estate)
      | .fault _ => none
      | .refused _ => none) = some (77, 1, .run .traverse) := by decide

/-- RST in the middle of a traversal puts the block back in IDLE and leaves POS where it is (R170). -/
theorem test_rst_in_traverse :
    (match tick { before [4] [1, 0] with node := 77, rd := reader (bits [1, 0]) 1, host := [⟨true, true, false, false,
        none⟩] } with
      | .next t => some (t.node, t.rd.pos, t.estate, t.ps)
      | .fault _ => none
      | .refused _ => none) = some (78, 1, .idle, path [-1]) := by decide

/-- R9: the stated SEG_MIN and SEG_MAX. -/
theorem test_stated_range : SegRange.reference.min = some (-2 ^ 31) ∧ SegRange.reference.max = some (2 ^ 31 - 1) := by decide

/-- R154: with SEG_MIN and SEG_MAX unbounded, 2^31 - 1 and 1 make 2^31. -/
theorem test_unbounded_range :
    (match step (ranged .unbounded (before [2147483647] [0])) with
      | .next t => some (t.fkind, t.ps.snapshot)
      | .fault _ => none
      | .refused _ => none) = some (.none, [2147483648]) := by decide

/-- R9: a smaller SEG_MAX raises SegmentRange on a pushed field (R110, whose field is 3 here). -/
theorem test_narrow_range :
    (match exec .pushOneLeftDeltaZeroRightNonZero (ranged narrow (running [1] [1, 1, 1])) with
      | .next t => some t.fkind
      | .fault _ => none
      | .refused _ => none) = some .segmentRange := by decide

/-- Program P4: exactly the terminal code is a decode with no snapshot. -/
theorem test_whole_decode_P4 : decodeFieldPaths referenceRom .reference (reader (bits [1, 0]) 0) = .ok [] 2 := by decide

/-- V0c: one snapshot, then the stream ends inside the next code. -/
theorem test_whole_decode_V0c : decodeFieldPaths referenceRom .reference (reader (bits [0]) 0) = .err .malformedStream [[0]] := by decide

/-- STATUS after a PathOverflow: FAULTED and FKIND 2 (10_state.md R31). -/
theorem test_status_in_fault :
    State.status { State.reset with estate := .fault, fkind := .pathOverflow } = 0b010100 := by decide

/-! ### Witnesses: states and operands that meet the hypotheses of the obligations -/

/-- A waiting state whose next sample is `p`. -/
def waiting (e : EState) (p : Pins) : State :=
  { State.reset with estate := e, host := [p], fkind := if e = .fault then .pathOverflow else .none }

/-- A state that offers its snapshot. -/
def emitting (levels : List Int) (p : Pins) : State :=
  { State.reset with ps := path levels, estate := .run .emit, host := [p] }

/-- The sample of a host whose reader does not answer and whose consumer does not accept. -/
def deaf : Pins := ⟨false, false, false, false, none⟩

/-- A state whose snapshot no consumer will ever accept. -/
def neverAccepting (levels : List Int) : State := { emitting levels deaf with hostRest := deaf }

/-- ROMs whose second operation has no kind: code 1 leads to it. -/
def partRom : Rom := ⟨[.leaf 0, .leaf 1, .internal 0 1], [⟨"PlusOne", 36271, some .plusOne⟩, ⟨"Unknown", 1, none⟩]⟩

/-- An operation in the middle of its guard loop, at the last level. -/
def inGuardLoop : State :=
  { running [1, 2, 3, 4, 5, 6] [1, 0, 1, 0, 0, 0, 0, 0, 0] with
    opidx := 36, mstep := some [.guardsLeft 1 5 (fieldPlus .varS32 0)] }

theorem witness_TreeAndCodesComeFromTheWeights :
    referenceRom.kindOf 39 = some .fieldPathEncodeFinish ∧ referenceRom.kindOf 0 = some .plusOne := by decide

theorem witness_OtherTieBreakChangesFifteenCodes :
    referenceRom.kindOf 6 = some .pushOneLeftDeltaZeroRightNonZero ∧
        referenceRom.kindOf 39 = some .fieldPathEncodeFinish := by
  decide

theorem witness_CodesArePrefixFreeAndComplete :
    encode .pushN <+: encode .pushN ∧ 17 ≤ (List.replicate 17 true).length := by decide

theorem witness_WindowSelectsByMaskAndMatch :
    131071 < 2 ^ 17 ∧ decodeTableWord 24 131071 = some .pushOneLeftDeltaNRightNonZeroPack6Bits ∧
      decodeTableWord 24 65536 = some .fieldPathEncodeFinish ∧ decodeTableWord 24 0 = some .plusOne := by decide

theorem witness_FieldsRoundTrip :
    fieldAdmits .bit 1 = true ∧ fieldAdmits .bool 0 = true ∧ fieldAdmits (.bits 5) 31 = true ∧
      fieldAdmits .ubv 4294967295 = true ∧ fieldAdmits .ubvfp 2147483647 = true ∧
      fieldAdmits .varS32 (-2147483648) = true ∧ fieldAdmits .varS32 2147483647 = true := by decide

theorem witness_LinesRoundTrip :
    (Line.mk .plusOne []).wf 0 = true ∧
      (Line.mk .popNAndNonTopographical [.field 5, .guards [some 2147483647]]).wf 5 = true ∧
      (Line.mk .pushNAndNonTopological [.guards [none, some (-1)], .field 1, .values [2147483647]]).wf 1 = true := by
  decide

/-- Two readers with the same bits ahead and the same BR, in other places; a BR that is not the reference one. -/
theorem witness_RequestsConsumeExactlyTheirBits :
    (reader (bits [1]) 0).request .bit = some (1, reader (bits [1]) 1) ∧
      (reader (bits [0, 1]) 1).request .bool = some (1, reader (bits [0, 1]) 2) ∧
      (reader (bits [1, 1, 1]) 0).request (.bits 3) = some (7, reader (bits [1, 1, 1]) 3) ∧
      (reader (bits [1]) 1).request (.bits 0) = some (0, reader (bits [1]) 1) ∧
      (reader (bits [1, 1, 1, 1, 0, 0]) 0).request .ubv = some (15, reader (bits [1, 1, 1, 1, 0, 0]) 6) ∧
      (reader (bits [1, 1, 1, 0]) 0).request .ubvfp = some (3, reader (bits [1, 1, 1, 0]) 3) ∧
      (reader (bits [1, 0, 0, 0, 0, 0, 0, 0]) 0).request .varS32 =
        some (-1, reader (bits [1, 0, 0, 0, 0, 0, 0, 0]) 8) ∧
      (Reader.mk (bits [0, 1, 0, 0, 1]) 0 otherBR).request .ubvfp = some (9, ⟨bits [0, 1, 0, 0, 1], 5, otherBR⟩) ∧
      (reader (bits [0, 1, 1, 1]) 1).br = (reader (bits [1, 1, 1, 0]) 0).br ∧
      (reader (bits [0, 1, 1, 1]) 1).rest.take 3 = (reader (bits [1, 1, 1, 0]) 0).rest.take 3 := by
  decide

/-- The greatest values, and the least of VarS32; and values that another BR's layouts take out of range. -/
theorem witness_RequestValuesAreInRange :
    (reader (bits [1]) 0).request .bit = some (1, reader (bits [1]) 1) ∧
      (reader (bits [1]) 0).request .bool = some (1, reader (bits [1]) 1) ∧
      (reader (List.replicate 4 true) 0).request (.bits 4) = some (15, reader (List.replicate 4 true) 4) ∧
      (reader (List.replicate 34 true) 0).request .ubv = some (4294967295, reader (List.replicate 34 true) 34) ∧
      (reader (bits [0, 0, 0, 0] ++ List.replicate 31 true) 0).request .ubvfp =
        some (2147483647, reader (bits [0, 0, 0, 0] ++ List.replicate 31 true) 35) ∧
      (reader (List.replicate 40 true) 0).request .varS32 = some (-2147483648, reader (List.replicate 40 true) 40) ∧
      readRequest { otherBR with ubvfp := .give false (-1) } .ubvfp [] = some (2147483647, []) ∧
      readRequest { otherBR with varS32 := .give false 2147483648 } .varS32 [] = some (-2147483648, []) := by
  decide

theorem witness_RstGivesTheResetState :
    (emitting [4, 2] ⟨true, true, true, true, none⟩).pins.rst = true ∧
      (waiting .fault ⟨true, false, true, true, some ⟨[true], 0⟩⟩).pins.rst = true := by decide

theorem witness_StartBeginsADecode :
    (∀ e ∈ [EState.idle, .done, .fault], (waiting e ⟨false, true, true, true, none⟩).estate = e) ∧
      (∀ e ∈ [EState.idle, .done, .fault], (waiting e ⟨false, true, true, true, none⟩).pins.rst = false) ∧
      ∀ e ∈ [EState.idle, .done, .fault], (waiting e ⟨false, true, true, true, none⟩).pins.start = true := by decide

theorem witness_RunIgnoresStartAndHostMoves :
    (before [-1] [0]).busy = true ∧ (running [-1] []).busy = true ∧ (emitting [0] .quiet).busy = true ∧
      Pins.quiet.rst = false := by decide

/-- With and without a move of the host on the reader, from the queue of samples and from the one that stays. -/
theorem witness_WaitingStatesKeepTheirState :
    ∀ e ∈ [EState.idle, .done, .fault],
      ((waiting e .quiet).estate = e ∧ (waiting e .quiet).pins.rst = false ∧ (waiting e .quiet).pins.start = false) ∧
      ((waiting e ⟨false, false, true, true, some ⟨[true], 1⟩⟩).pins.rst = false ∧
        (waiting e ⟨false, false, true, true, some ⟨[true], 1⟩⟩).pins.start = false ∧
        (waiting e ⟨false, false, true, true, some ⟨[true], 1⟩⟩).pins.load = some ⟨[true], 1⟩) ∧
      State.pins { waiting e .quiet with host := [] } = .quiet := by decide

/-- A consumer that accepts at once, one that does not yet, and one that never does. -/
theorem witness_EmitAppendsWhenAccepted :
    (emitting [0] .quiet).estate = .run .emit ∧ (emitting [0] .quiet).pins.rst = false ∧
      (emitting [0] .quiet).pins.snapReady = true ∧
      (emitting [1, 2, 3, 4, 5, 6] deaf).pins.rst = false ∧
      (emitting [1, 2, 3, 4, 5, 6] deaf).pins.snapReady = false ∧
      (∀ p ∈ (neverAccepting [4, 2]).hostRest :: (neverAccepting [4, 2]).host, p.rst = false ∧ p.snapReady = false) ∧
      (neverAccepting [4, 2]).estate = .run .emit := by decide

/-- R89: a consumer that never accepts: after 40 steps the same snapshot is still offered. -/
theorem test_never_accepted :
    (State.after 40 (neverAccepting [4, 2])).map (fun t => (t.estate, t.out, t.ps.snapshot, t.rd.pos)) =
      some (.run .emit, [], [4, 2], 0) := by decide

/-- Operation `op` at its leaf: its code has been read, and it has not been selected. -/
def selected (op : Nat) (levels : List Int) (ds : List Nat) : State := { running levels ds with opidx := op }

/-- FieldPathEncodeFinish in the middle, its one micro-step still to run: it asks nothing (R147). -/
def inFinish : State := { running [3] [] with opidx := 39, mstep := some [.setFin] }

/-- R163: PlusOne asks nothing, so it ends though the reader does not answer. -/
theorem test_unanswered_plusOne_ends :
    (match stepWith deaf (selected 0 [4] []) with
      | .next t => some (t.estate, t.ps.snapshot, t.rdReq)
      | .fault _ => none
      | .refused _ => none) = some (.run .emit, [5], none) := by decide

/-- R110, R163: a push that the reader does not answer has entered its level and requests its field. -/
theorem test_unanswered_push_stays_at_its_field :
    (match stepWith deaf (selected 6 [4] [1, 0, 0]) with
      | .next t => some (t.estate, t.ps.snapshot, t.rdReq, t.rd.pos)
      | .fault _ => none
      | .refused _ => none) = some (.run .execute, [4, 0], some .ubvfp, 0) := by decide

/-- Requests of a traversal and of a guard loop, unanswered once and for ever; and states without a request: in IDLE and
EMIT, in a last micro-step, and before operations that end, come to a request, or fault without an answer. -/
theorem witness_RequestsStayOffered :
    ((before [-1] [0]).rdReqValid = true ∧ (before [-1] [0]).estate = .run .traverse ∧
        (before [-1] [0]).rom.tree[(before [-1] [0]).node]? = some (.internal 0 77) ∧
        inGuardLoop.rdReqValid = true ∧ inGuardLoop.ps.fin = false ∧
        State.rdReqValid { before [-1] [0] with host := [deaf] } = true ∧
        State.pins { inGuardLoop with host := [deaf] } = deaf ∧ deaf.rst = false ∧ deaf.rdValid = false ∧
        State.rdReqValid { inGuardLoop with host := [deaf], hostRest := deaf } = true ∧
        ∀ p ∈ [deaf, deaf], p.rst = false ∧ p.rdValid = false) ∧
      (State.rdReq (waiting .idle .quiet) = none ∧ (waiting .idle .quiet).estate ≠ .run .traverse ∧
        (waiting .idle .quiet).estate ≠ .run .execute ∧ State.rdReq (emitting [4, 2] .quiet) = none ∧
        inFinish.estate = .run .execute ∧ inFinish.rdReq = none ∧
        State.rdReq { before [3] [] with node := 39 } = none ∧ (selected 4 [4] [0]).rdReq = none) ∧
      (∃ t, stepWith deaf inFinish = .next t ∧ t.rdReq = none ∧ t.estate = .done) ∧
      (∃ t, stepWith deaf { before [3] [] with node := 39 } = .next t ∧ t.rdReq = none ∧ t.estate = .done) ∧
      (∃ t, stepWith deaf (selected 4 [4] [0]) = .next t ∧ t.rdReq ≠ none) ∧
      (∃ t, stepWith deaf (selected 6 [1, 2, 3, 4, 5, 6] [0]) = .next t ∧ t.rdReq = none ∧ t.fkind = .pathOverflow) :=
  ⟨by decide, by decide, ⟨_, rfl, by decide⟩, ⟨_, rfl, by decide⟩, ⟨_, rfl, by decide⟩, ⟨_, rfl, by decide⟩⟩

/-- Each of BUSY, DONE and FAULTED; the least and the greatest depth, and a segment on either side of CUR. -/
theorem witness_PortsShowTheControlState :
    (before [-1] [0]).busy = true ∧ (waiting .done .quiet).doneBit = true ∧ (waiting .fault .quiet).faulted = true ∧
      State.reset.out.length < 2 ^ 32 ∧ (emitting [0] .quiet).snapValid = true ∧ (emitting [0] .quiet).ps.cur ≤ 5 ∧
      (emitting [1, 2, 3, 4, 5, 6] .quiet).ps.cur ≤ 5 ∧ 1 ≤ (emitting [4, 2] .quiet).ps.cur ∧
      (emitting [4, 2] .quiet).ps.cur < 2 := by decide

theorem witness_StepRunsTheDecodedOperation :
    let s := before [4] [1, 1, 0, 0, 1, 1]
    s.estate = .run .traverse ∧ s.node = s.rom.root ∧ s.ps.fin = false ∧ s.pins.rst = false ∧ s.pins.rdValid = true ∧
      decodeIn s.rom s.rd.rest = .ok (.popAllButOnePlusOne, []) := by decide

theorem witness_PlacedWordIsTheNextOperation :
    State.reset.rom = referenceRom ∧ decodeTableWord 24 0b11011000110010011 = some .pushTwoPack5LeftDeltaZero ∧
      decodeTableWord 8 0 = some .plusOne := by decide

theorem witness_TraversalFaultsAreTaken :
    let s := before [4] [1]
    let u : State := { before [4] [1] with rom := partRom, node := 2 }
    s.estate = .run .traverse ∧ s.node = s.rom.root ∧ s.ps.fin = false ∧ s.pins.rst = false ∧ s.pins.rdValid = true ∧
      decodeIn s.rom s.rd.rest = .error .malformedStream ∧
      u.estate = .run .traverse ∧ u.node = u.rom.root ∧ u.ps.fin = false ∧ u.pins.rst = false ∧ u.pins.rdValid = true ∧
      decodeIn u.rom u.rd.rest = .error (.unknownSymbol 1) := by decide

theorem witness_TerminalCodeAloneDecodesToNothing :
    (before [4] [1, 0]).QuietHost ∧ (before [4] [1, 0]).rom = referenceRom ∧
      (before [4] [1, 0]).rd.rest = [true, false] := by decide

/-- A tick within a traversal, a tick that ends an operation, and a tick that faults. -/
theorem witness_TicksMakeUpTheStep :
    (before [4] [1, 0]).QuietHost ∧ (before [4] [1, 0]).estate = .run .traverse ∧
      (∃ t, tick (before [4] [1, 0]) = .next t ∧ t.estate = .run .traverse) ∧
      inGuardLoop.QuietHost ∧ inGuardLoop.estate = .run .execute ∧
      (∃ t, tick inGuardLoop = .next t ∧ t.estate = .run .execute) ∧
      (∃ t, tick (before [4] []) = .next t ∧ t.estate = .fault) :=
  ⟨by decide, by decide, ⟨_, rfl, by decide⟩, by decide, by decide, ⟨_, rfl, by decide⟩, ⟨_, rfl, by decide⟩⟩

/-- An operation runs from a state with the invariant. -/
theorem witness_StepKeepsTheInvariant :
    State.Inv (before [4, 2] [0]) ∧ (∃ t, step (before [4, 2] [0]) = .next t ∧ t.estate = .run .emit) ∧
      State.Inv (emitting [-2147483648, 0, 0, 0, 0, 2147483647] .quiet) ∧
      (∃ t, step (emitting [-2147483648, 0, 0, 0, 0, 2147483647] .quiet) = .next t) ∧
      State.Inv (waiting .fault ⟨false, true, true, true, none⟩) ∧
      (∃ t, step (waiting .fault ⟨false, true, true, true, none⟩) = .next t ∧ t.estate = .run .traverse) :=
  ⟨inv_of_checks _ (by decide), ⟨_, rfl, by decide⟩, inv_of_checks _ (by decide), ⟨_, rfl⟩,
    inv_of_checks _ (by decide), ⟨_, rfl, by decide⟩⟩

/-- A guard loop ticks on from a state with the invariant. -/
theorem witness_TickKeepsTheInvariant :
    inGuardLoop.Inv ∧ (∃ t, tick inGuardLoop = .next t ∧ t.mstep.isSome = true) ∧
      State.Inv (before [4, 2] [0]) ∧ (∃ t, tick (before [4, 2] [0]) = .next t ∧ t.rd.pos = 1) :=
  ⟨inv_of_checks _ (by decide), ⟨_, rfl, by decide⟩, inv_of_checks _ (by decide), ⟨_, rfl, by decide⟩⟩

theorem witness_InvariantStatesStepWithoutUnknownSymbol :
    inGuardLoop.Inv ∧ State.Inv (waiting .idle .quiet) ∧ State.Inv (before [1, 2, 3, 4, 5, 6] []) :=
  ⟨inv_of_checks _ (by decide), inv_of_checks _ (by decide), inv_of_checks _ (by decide)⟩

theorem witness_RomsAndStreamAreNeverWritten :
    (∃ t, step (before [4] [0]) = .next t) ∧
      (∃ t, step (waiting .done ⟨false, false, true, true, some ⟨[true], 1⟩⟩) = .next t ∧ t.rd = reader [true] 1) ∧
      (∃ t, step (emitting [4] ⟨true, false, true, true, some ⟨[true], 1⟩⟩) = .next t ∧ t.rd = reader [true] 1) :=
  ⟨⟨_, rfl⟩, ⟨_, rfl, by decide⟩, ⟨_, rfl, by decide⟩⟩

theorem witness_OutGrowsBySnapshotsInOrder :
    (∃ t, step (emitting [4, 2] .quiet) = .next t ∧ t.out = [[4, 2]]) ∧
      (∃ t, step (before [4] [0]) = .next t ∧ t.out = []) ∧
      (∃ t, step { waiting .done ⟨false, true, true, true, none⟩ with out := [[0]] } = .next t ∧ t.out = []) :=
  ⟨⟨_, rfl, by decide⟩, ⟨_, rfl, by decide⟩, ⟨_, rfl, by decide⟩⟩

theorem witness_StepsComputeTheWholeDecode :
    State.reset.QuietHost ∧ decodeFieldPaths referenceRom .reference (reader (bits [0, 1, 0]) 0) = .ok [[0]] 3 ∧
      decodeFieldPaths referenceRom .reference (reader (bits [0, 0]) 0) = .err .malformedStream [[0], [1]] := by decide

/-- A decode in each phase of RUN; the last has no bit left. -/
theorem witness_EveryDecodeEnds :
    (inGuardLoop.Inv ∧ inGuardLoop.QuietHost ∧ inGuardLoop.busy = true) ∧
      (State.Inv (before [4] []) ∧ (before [4] []).QuietHost ∧ (before [4] []).busy = true) ∧
      State.Inv { emitting [0] .quiet with host := [] } :=
  ⟨⟨inv_of_checks _ (by decide), by decide, by decide⟩, ⟨inv_of_checks _ (by decide), by decide, by decide⟩,
    inv_of_checks _ (by decide)⟩

/-- Two states in the same place that differ in the trace, the fault count and a stale OPIDX; the step reaches no fault. -/
theorem witness_TraceAndHistoryDoNotInfluenceADecode :
    SameDecode (before [4] [0]) { before [4] [0] with opidx := 17, draws := 3, traceEn := false } ∧
      ∃ t, step (before [4] [0]) = .next t ∧ t.estate = .run .emit :=
  ⟨⟨rfl, rfl, rfl, rfl, rfl, rfl, rfl, rfl, rfl, rfl, by decide⟩, ⟨_, rfl, by decide⟩⟩

theorem witness_StartForgetsEarlierDecodes :
    let p : Pins := ⟨false, true, true, true, none⟩
    let s := waiting .done p
    let t := waiting .fault p
    s.rom = t.rom ∧ s.ps.range = t.ps.range ∧ s.rd = t.rd ∧ s.host = t.host ∧ s.hostRest = t.hostRest ∧
      s.busy = false ∧ t.busy = false ∧ s.pins.rst = false ∧ s.pins.start = true ∧ ∃ s', step s = .next s' :=
  ⟨rfl, rfl, rfl, rfl, rfl, by decide, by decide, by decide, by decide, ⟨_, rfl⟩⟩

/-- One completed operation of each kind of cursor move. -/
theorem witness_OnlyPushesAndPopsMoveTheCursor :
    (∃ t, exec .plusOne (running [4] []) = .next t ∧ t.estate ≠ .fault) ∧
      (∃ t, exec .pushOneLeftDeltaZeroRightZero (running [1, 2, 3, 4, 5] []) = .next t ∧ t.estate ≠ .fault) ∧
      (∃ t, exec .pushTwoLeftDeltaZero (running [4] [1, 0, 0, 1, 0, 0]) = .next t ∧ t.estate ≠ .fault) ∧
      (∃ t, exec .pushThreeLeftDeltaOne (running [4] [1, 0, 0, 1, 0, 0, 1, 0, 0]) = .next t ∧ t.estate ≠ .fault) ∧
      (∃ t, exec .pushN (running [4] [0, 0, 0, 0, 0, 0, 0, 0, 0, 0, 0, 0]) = .next t ∧ t.estate ≠ .fault) ∧
      (∃ t, exec .popOnePlusOne (running [4, 2] []) = .next t ∧ t.estate ≠ .fault) ∧
      (∃ t, exec .popAllButOnePlusOne (running [4] []) = .next t ∧ t.estate ≠ .fault) ∧
      (∃ t, exec .popNPlusOne (running [4] [1, 0, 0]) = .next t ∧ t.estate ≠ .fault) ∧
      (∃ t, exec .fieldPathEncodeFinish (running [4] []) = .next t ∧ t.estate ≠ .fault) :=
  ⟨⟨_, rfl, by decide⟩, ⟨_, rfl, by decide⟩, ⟨_, rfl, by decide⟩, ⟨_, rfl, by decide⟩, ⟨_, rfl, by decide⟩,
    ⟨_, rfl, by decide⟩, ⟨_, rfl, by decide⟩, ⟨_, rfl, by decide⟩, ⟨_, rfl, by decide⟩⟩

theorem witness_OperationsRaiseOnlyTheirFaults :
    ((running [4] []).ps.InRange 2147483647 ∧ (ranged .unbounded (running [4] [])).ps.InRange 2147483647) ∧
      (∃ t, exec .plusOne (running [2147483647] []) = .next t ∧ t.estate = .fault) ∧
      (∃ t, exec .pushN (running [4] []) = .next t ∧ t.estate = .fault) ∧
      (∃ t, exec .popOnePlusOne (running [4] []) = .next t ∧ t.estate = .fault) :=
  ⟨by decide, ⟨_, rfl, by decide⟩, ⟨_, rfl, by decide⟩, ⟨_, rfl, by decide⟩⟩

theorem witness_FixedIncrementsAddTheirConstant :
    (running [4] []).ps.fin = false ∧ (running [2147483643] []).ps.fin = false ∧
      (path []).InRange ((path [2147483643]).seg.get 0 + 4) ∧ ¬(path []).InRange ((path [2147483644]).seg.get 0 + 4) ∧
      (path []).InRange ((path [2147483644]).seg.get 0 + 3) ∧ ¬(path []).InRange ((path [2147483645]).seg.get 0 + 3) ∧
      (path []).InRange ((path [2147483645]).seg.get 0 + 2) ∧ ¬(path []).InRange ((path [2147483646]).seg.get 0 + 2) ∧
      (path []).InRange ((path [2147483646]).seg.get 0 + 1) ∧ ¬(path []).InRange ((path [2147483647]).seg.get 0 + 1) := by decide

theorem witness_PlusNAddsItsFieldPlusFive :
    let s := running [2147483642] [1, 0, 0]
    let u := running [2147483642] [1, 1, 0]
    s.ps.fin = false ∧ s.rd.request .ubvfp = some (0, s.rd.advance 3) ∧ s.ps.InRange (s.ps.seg.get s.ps.cur + (0 + 5)) ∧
      u.ps.fin = false ∧ u.rd.request .ubvfp = some (1, u.rd.advance 3) ∧ ¬u.ps.InRange (u.ps.seg.get u.ps.cur + (1 + 5)) ∧
      (running [4] [1, 0]).rd.request .ubvfp = none := by decide

theorem witness_PushOneLeftDeltaZeroPushesOneLevel :
    let s := running [1, 2, 3, 4, 5] [1, 1, 1]
    let u := running [1, 2, 3, 4, 5] [1, 1]
    s.ps.fin = false ∧ s.ps.cur ≤ 4 ∧ s.rd.request .ubvfp = some (3, s.rd.advance 3) ∧
      s.ps.range = .reference ∧ s.ps.InRange 3 ∧ ¬(ranged narrow s).ps.InRange 3 ∧
      u.ps.fin = false ∧ u.ps.cur ≤ 4 ∧ u.rd.request .ubvfp = none ∧
      (running [1, 2, 3, 4, 5, 6] []).ps.fin = false ∧ (running [1, 2, 3, 4, 5, 6] []).ps.cur = 5 := by decide

theorem witness_PushOneLeftDeltaOneAddsThenPushes :
    let s := running [1, 2, 3, 4, 2147483646] [1, 0, 0]
    let u := running [1, 2, 3, 4, 5, 2147483646] []
    let w := running [1, 2, 3, 4, 5, 2147483647] []
    s.ps.fin = false ∧ s.ps.cur ≤ 4 ∧ s.ps.InRange (s.ps.seg.get s.ps.cur + 1) ∧
      s.rd.request .ubvfp = some (0, s.rd.advance 3) ∧ s.ps.range = .reference ∧ s.ps.InRange 0 ∧
      (ranged narrow (running [1] [1, 1, 1])).ps.InRange (1 + 1) ∧
      (running [1] [1, 1, 1]).rd.request .ubvfp = some (3, (running [1] [1, 1, 1]).rd.advance 3) ∧
      ¬(ranged narrow (running [1] [1, 1, 1])).ps.InRange 3 ∧ (running [4] [1]).rd.request .ubvfp = none ∧
      u.ps.cur = 5 ∧ u.ps.InRange (u.ps.seg.get u.ps.cur + 1) ∧ w.ps.fin = false ∧
      ¬w.ps.InRange (w.ps.seg.get w.ps.cur + 1) := by decide

theorem witness_PushOneLeftDeltaNAddsThenPushes :
    let s := running [1, 2, 3, 4, 2147483645] ([1, 0, 0, 0, 0, 0, 0, 0] ++ List.replicate 30 1)
    let r := s.rd.advance 3
    s.ps.fin = false ∧ s.ps.cur ≤ 4 ∧ s.rd.request .ubvfp = some (0, r) ∧ s.ps.InRange (s.ps.seg.get s.ps.cur + 0) ∧
      r.request .ubvfp = some (2147483646, r.advance 35) ∧ s.ps.InRange (s.ps.seg.get s.ps.cur + (0 + 2)) ∧
      (path []).InRange (2147483646 + 1) := by decide

theorem witness_PackedPushesAddThenPush :
    let s := running [1, 2, 3, 4, 2147483638] [1, 1, 1, 1, 1, 1, 1, 1]
    s.ps.fin = false ∧ s.ps.cur ≤ 4 ∧ s.rd.request (.bits 3) = some (7, s.rd.advance 3) ∧
      (s.rd.advance 3).request (.bits 3) = some (7, s.rd.advance 6) ∧ s.ps.InRange (s.ps.seg.get s.ps.cur + (7 + 2)) ∧
      s.rd.request (.bits 4) = some (15, s.rd.advance 4) ∧
      (s.rd.advance 4).request (.bits 4) = some (15, s.rd.advance 8) ∧
      (path []).InRange ((path [1, 2, 3, 4, 2147483630]).seg.get 4 + (15 + 2)) ∧
      (path []).InRange (7 + 1) ∧ (path []).InRange (15 + 1) := by decide

theorem witness_SinglePushesAtFullDepthOverflow :
    let s := running [1, 2, 3, 4, 5, 2147483645] [1, 0, 0, 0]
    s.ps.cur = 5 ∧ s.ps.InRange (s.ps.seg.get 5 + 1) ∧ s.rd.request .ubvfp = some (0, s.rd.advance 3) ∧
      s.rd.request (.bits 3) = some (1, s.rd.advance 3) ∧ s.rd.request (.bits 4) = some (1, s.rd.advance 4) ∧
      s.ps.InRange (s.ps.seg.get 5 + (0 + 0)) ∧ s.ps.InRange (s.ps.seg.get 5 + (0 + 2)) ∧ (path []).InRange ((path [1, 2, 3, 4, 5,
        6]).seg.get 5 + (1 + 2)) := by
  decide

/-- Two values to the full depth, and three. -/
theorem witness_MultiPushLeftDeltaZeroPushesItsValues :
    let s := running [1, 2, 3, 4] [1, 0, 1, 1, 1, 1]
    let u := running [1, 2, 3] [1, 1, 1, 1, 1, 0, 0, 1, 0, 0, 1, 0, 0, 0, 0]
    s.ps.fin = false ∧ s.ps.cur + 2 ≤ 5 ∧ Reader.requests .ubvfp 2 s.rd = some ([2, 3], s.rd.advance 6) ∧
      u.ps.fin = false ∧ u.ps.cur + 3 ≤ 5 ∧ Reader.requests (.bits 5) 3 u.rd = some ([31, 4, 1], u.rd.advance 15) ∧
      Reader.requests (.bits 5) 2 u.rd = some ([31, 4], u.rd.advance 10) ∧
      Reader.requests .ubvfp 3 u.rd = some ([3, 1, 4], u.rd.advance 12) ∧
      (∀ v ∈ [2, 3, 31, 4, 1], s.ps.InRange v) := by decide

theorem witness_MultiPushLeftDeltaOneAddsThenPushes :
    let s := running [1, 2, 3, 2147483646] [1, 0, 1, 1, 1, 1, 0, 0, 0, 0]
    let u := running [1, 2, 2147483646] [1, 1, 1, 1, 1, 0, 0, 1, 0, 0, 1, 0, 0, 0, 0]
    s.ps.fin = false ∧ s.ps.cur + 2 ≤ 5 ∧ s.ps.InRange (s.ps.seg.get s.ps.cur + 1) ∧
      Reader.requests .ubvfp 2 s.rd = some ([2, 3], s.rd.advance 6) ∧
      Reader.requests (.bits 5) 2 s.rd = some ([29, 1], s.rd.advance 10) ∧
      u.ps.fin = false ∧ u.ps.cur + 3 ≤ 5 ∧ u.ps.InRange (u.ps.seg.get u.ps.cur + 1) ∧
      Reader.requests (.bits 5) 3 u.rd = some ([31, 4, 1], u.rd.advance 15) ∧
      Reader.requests .ubvfp 3 u.rd = some ([3, 1, 4], u.rd.advance 12) ∧
      (∀ v ∈ [2, 3, 29, 1, 31, 4], s.ps.InRange v) := by decide

theorem witness_MultiPushLeftDeltaNAddsThenPushes :
    let s := running [1, 2, 3, 2147483645] [0, 0, 0, 0, 0, 0, 1, 0, 1, 1, 1, 1, 0, 0, 0, 0]
    let u := running [1, 2, 2147483645] [0, 0, 0, 0, 0, 0, 1, 1, 1, 1, 1, 1, 1, 0, 0, 1, 0, 0, 1, 0, 0]
    s.ps.fin = false ∧ s.ps.cur + 2 ≤ 5 ∧ s.rd.request .ubv = some (0, s.rd.advance 6) ∧
      s.ps.InRange (s.ps.seg.get s.ps.cur + (0 + 2)) ∧
      Reader.requests .ubvfp 2 (s.rd.advance 6) = some ([2, 3], s.rd.advance 12) ∧
      Reader.requests (.bits 5) 2 (s.rd.advance 6) = some ([29, 1], s.rd.advance 16) ∧
      u.ps.fin = false ∧ u.ps.cur + 3 ≤ 5 ∧ u.rd.request .ubv = some (0, u.rd.advance 6) ∧
      u.ps.InRange (u.ps.seg.get u.ps.cur + (0 + 2)) ∧
      Reader.requests .ubvfp 3 (u.rd.advance 6) = some ([3, 3, 0], u.rd.advance 15) ∧
      Reader.requests (.bits 5) 3 (u.rd.advance 6) = some ([31, 19, 4], u.rd.advance 21) ∧
      (∀ v ∈ [2, 3, 29, 1, 0, 31, 19, 4], s.ps.InRange v) := by decide

/-- A count of 2 that fills the path, and a count of 0. -/
theorem witness_PushNAddsThenPushesItsCount :
    let s := running [1, 2, 3, 2147483647] [0, 1, 0, 0, 0, 0, 0, 0, 0, 0, 0, 0, 1, 0, 0, 1, 1, 0]
    let u := running [1, 2, 3, 4, 5, 6] [0, 0, 0, 0, 0, 0, 1, 1, 0, 0, 0, 0]
    s.ps.fin = false ∧ s.rd.request .ubv = some (2, s.rd.advance 6) ∧
      (s.rd.advance 6).request .ubv = some (0, s.rd.advance 12) ∧ s.ps.InRange (s.ps.seg.get s.ps.cur + 0) ∧
      s.ps.cur + Int.toNat 2 ≤ 5 ∧
      Reader.requests .ubvfp (Int.toNat 2) (s.rd.advance 12) = some ([0, 1], s.rd.advance 18) ∧
      u.rd.request .ubv = some (0, u.rd.advance 6) ∧ (u.rd.advance 6).request .ubv = some (3, u.rd.advance 12) ∧
      u.ps.InRange (u.ps.seg.get u.ps.cur + 3) ∧ u.ps.cur + Int.toNat 0 ≤ 5 ∧
      Reader.requests .ubvfp (Int.toNat 0) (u.rd.advance 12) = some ([], u.rd.advance 12) ∧
      (∀ v ∈ [0, 1], s.ps.InRange v) := by decide

theorem witness_PushNAndNonTopologicalAdjustsThenPushes :
    let s := running [4, 2147483647] [0, 1, 1, 0, 0, 0, 0, 0, 0, 0, 1, 0, 0, 0, 0, 0, 1, 0, 1]
    s.ps.fin = false ∧ Reader.guards .varS32 (s.ps.cur + 1) s.rd = some ([none, some (-1)], s.rd.advance 10) ∧
      s.ps.AdjustInRange [none, some (-1)] 1 ∧ (s.rd.advance 10).request .ubv = some (1, s.rd.advance 16) ∧
      s.ps.cur + Int.toNat 1 ≤ 5 ∧
      Reader.requests .ubvfp (Int.toNat 1) (s.rd.advance 16) = some ([2], s.rd.advance 19) ∧
      ∀ v ∈ [2], s.ps.InRange v :=
  ⟨by decide, by decide, adjustInRange_of_all _ _ _ (by decide), by decide⟩

/-- Each way to a row of pushes, at the depth where it overflows: three values at CUR = 3, two of which can still be read;
two at CUR = 4; one at CUR = 5. -/
theorem witness_PushesOverflowAtTheFirstPushTooMany :
    (let s := running [1, 2, 3, 4] [1, 0, 0, 1, 0, 0];
      ReachesPushes s .pushThreeLeftDeltaZero .ubvfp 3 s.rd ∧ s.ps.cur ≤ 5 ∧ 5 < s.ps.cur + 3 ∧
        Reader.requests .ubvfp (5 - s.ps.cur) s.rd = some ([0, 0], s.rd.advance 6) ∧
        ∀ v ∈ [0, 0], s.ps.InRange v) ∧
      (let s := running [1, 2, 3, 4, 2147483646] [1, 1, 1, 1, 1];
        ReachesPushes s .pushTwoPack5LeftDeltaOne (.bits 5) 2 s.rd ∧ 5 < s.ps.cur + 2 ∧
          Reader.requests (.bits 5) (5 - s.ps.cur) s.rd = some ([31], s.rd.advance 5) ∧
          ∀ v ∈ [31], s.ps.InRange v) ∧
      (let s := running [1, 2, 3, 4, 2147483645] [0, 0, 0, 0, 0, 0, 1, 1, 1];
        ReachesPushes s .pushTwoLeftDeltaN .ubvfp 2 (s.rd.advance 6) ∧ 5 < s.ps.cur + 2 ∧
          Reader.requests .ubvfp (5 - s.ps.cur) (s.rd.advance 6) = some ([3], s.rd.advance 9) ∧
            ∀ v ∈ [3], s.ps.InRange v) ∧
      (let s := running [1, 2, 3, 4, 5, 2147483638] [1, 1, 1];
        ReachesPushes s .pushOneLeftDeltaNRightNonZeroPack6Bits (.bits 3) 1 (s.rd.advance 3) ∧ 5 < s.ps.cur + 1 ∧
          Reader.requests (.bits 3) (5 - s.ps.cur) (s.rd.advance 3) = some ([], s.rd.advance 3)) ∧
      (let s := running [1, 2, 3, 4, 5, 6] [1, 0, 0, 0, 0, 0, 0, 0, 0, 0, 0, 0];
        ReachesPushes s .pushN .ubvfp (Int.toNat 1) (s.rd.advance 12) ∧ 5 < s.ps.cur + Int.toNat 1 ∧
          Reader.requests .ubvfp (5 - s.ps.cur) (s.rd.advance 12) = some ([], s.rd.advance 12)) ∧
      (let s := running [1, 2, 3, 4, 5, 6] [0, 0, 0, 0, 0, 0, 1, 0, 0, 0, 0, 0];
        ReachesPushes s .pushNAndNonTopological .ubvfp (Int.toNat 1) (s.rd.advance 12) ∧ 5 < s.ps.cur + Int.toNat 1) :=
  ⟨⟨.atOnce _ _ _ (by decide), by decide, by decide, by decide⟩,
    ⟨.afterOne _ _ _ (by decide) (by decide), by decide, by decide⟩,
    ⟨.afterField _ .ubv _ _ 0 _ (by decide) (by decide) (by decide), by decide, by decide⟩,
    ⟨.afterField _ (.bits 3) _ _ 7 _ (by decide) (by decide) (by decide), by decide, by decide⟩,
    ⟨.pushN _ 0 _ _ rfl rfl (by decide), by decide, by decide⟩,
    ⟨.pushNAndNonTopological (List.replicate 6 none) _ _ _ rfl (adjustInRange_of_all _ _ _ (by decide)) rfl, by decide⟩⟩

theorem witness_PopOnePopsThenAdds :
    let s := running [2147483646, 2] [1, 0, 0]
    let u := running [2147483647, 2] [1, 0, 0]
    s.ps.fin = false ∧ 1 ≤ s.ps.cur ∧ s.ps.InRange (s.ps.seg.get (s.ps.cur - 1) + 1) ∧
      s.rd.request .ubvfp = some (0, s.rd.advance 3) ∧ s.ps.InRange (s.ps.seg.get (s.ps.cur - 1) + (0 + 1)) ∧
      1 ≤ u.ps.cur ∧ ¬u.ps.InRange (u.ps.seg.get (u.ps.cur - 1) + 1) ∧ u.rd.request .ubvfp = some (0, u.rd.advance 3) ∧
      ¬u.ps.InRange (u.ps.seg.get (u.ps.cur - 1) + (0 + 1)) ∧ (running [4, 2] []).rd.request .ubvfp = none ∧
      (running [4] []).ps.cur = 0 := by decide

/-- At CUR = 0 and at CUR = 5; and sums just outside the range. -/
theorem witness_PopAllButOnePopsThenAdds :
    let s := running [2147483646] [1, 0, 0]
    let u := running [4, 2, 3, 4, 5, 6] [1, 1, 1, 1, 1, 1]
    let w := running [2147483647, 2] [1, 0, 0]
    s.ps.fin = false ∧ s.ps.InRange (s.ps.seg.get 0 + 1) ∧ s.rd.request .ubvfp = some (0, s.rd.advance 3) ∧
      s.ps.InRange (s.ps.seg.get 0 + (0 + 1)) ∧ u.ps.fin = false ∧ u.rd.request (.bits 3) = some (7, u.rd.advance 3) ∧
      u.ps.InRange (u.ps.seg.get 0 + (7 + 1)) ∧ u.rd.request (.bits 6) = some (63, u.rd.advance 6) ∧
      u.ps.InRange (u.ps.seg.get 0 + (63 + 1)) ∧ w.ps.fin = false ∧ ¬w.ps.InRange (w.ps.seg.get 0 + 1) ∧
      w.rd.request .ubvfp = some (0, w.rd.advance 3) ∧ ¬w.ps.InRange (w.ps.seg.get 0 + (0 + 1)) ∧
      w.rd.request (.bits 6) = none := by decide

/-- A count of 0, one that pops to the outermost level, one too many, and sums just outside the range. -/
theorem witness_PopNPopsItsCountThenAdds :
    let s := running [4, 2147483646] [1, 0, 0, 0, 1, 0, 0, 0, 0, 0, 0]
    let u := running [-2147483647, 2] [1, 1, 0, 1, 0, 0, 0, 0, 0, 0, 0]
    let w := running [-2147483648, 2147483647] [1, 1, 0, 1, 0, 0, 0, 0, 0, 0, 0]
    let x := running [4, 2147483647] [1, 0, 0]
    (s.ps.fin = false ∧ s.rd.request .ubvfp = some (0, s.rd.advance 3) ∧ Int.toNat 0 ≤ s.ps.cur ∧
        s.ps.InRange (s.ps.seg.get (s.ps.cur - Int.toNat 0) + 1) ∧
        (s.rd.advance 3).request .varS32 = some (1, s.rd.advance 11)) ∧
      (u.ps.fin = false ∧ u.rd.request .ubvfp = some (1, u.rd.advance 3) ∧ Int.toNat 1 ≤ u.ps.cur ∧
        (u.rd.advance 3).request .varS32 = some (-1, u.rd.advance 11) ∧
        u.ps.InRange (u.ps.seg.get (u.ps.cur - Int.toNat 1) + -1)) ∧
      (w.rd.request .ubvfp = some (1, w.rd.advance 3) ∧ (w.rd.advance 3).request .varS32 = some (-1, w.rd.advance 11) ∧
        ¬w.ps.InRange (w.ps.seg.get (w.ps.cur - Int.toNat 1) + -1)) ∧
      (x.rd.request .ubvfp = some (0, x.rd.advance 3) ∧ ¬x.ps.InRange (x.ps.seg.get (x.ps.cur - Int.toNat 0) + 1) ∧
        (x.rd.advance 3).request .varS32 = none) ∧
      (running [4] []).rd.request .ubvfp = none ∧
      (running [4] [1, 1, 0]).rd.request .ubvfp = some (1, (running [4] [1, 1, 0]).rd.advance 3) ∧
      (running [4] [1, 1, 0]).ps.cur < Int.toNat 1 := by decide

theorem witness_PopNAndNonTopographicalPopsThenAdjusts :
    let s := running [-2147483647, 2] [1, 1, 0, 1, 1, 0, 0, 0, 0, 0, 0, 0]
    s.ps.fin = false ∧ s.ps.cur ≤ 5 ∧ s.rd.request .ubvfp = some (1, s.rd.advance 3) ∧ Int.toNat 1 ≤ s.ps.cur ∧
      Reader.guards .varS32 (s.ps.cur - Int.toNat 1 + 1) (s.rd.advance 3) = some ([some (-1)], s.rd.advance 12) ∧
      (s.ps.popped (Int.toNat 1)).AdjustInRange [some (-1)] 0 :=
  ⟨by decide, by decide, by decide, by decide, by decide, adjustInRange_of_all _ _ _ (by decide)⟩

theorem witness_PoppingTooManyUnderflows :
    (running [4] []).ps.cur = 0 ∧ (running [4, 2] [1, 0, 1]).rd.request .ubvfp = some (2, (running [4, 2] [1, 0,
        1]).rd.advance 3) ∧
      (running [4, 2] [1, 0, 1]).ps.cur < Int.toNat 2 := by decide

/-- All guards false at CUR = 5, and a true one at a segment that goes to its greatest value. -/
theorem witness_ScansAdjustTheActiveLevels :
    let s := running [1, 2, 3, 4, 5, 6] [0, 0, 0, 0, 0, 0]
    let u := running [2147483646] [1, 0, 1, 0, 0, 0, 0, 0, 0]
    let w := running [2147483639] [1, 1, 1, 1, 1]
    (s.ps.fin = false ∧ s.ps.cur ≤ 5 ∧
        Reader.guards .varS32 (s.ps.cur + 1) s.rd = some (List.replicate 6 none, s.rd.advance 6) ∧
        s.ps.AdjustInRange (List.replicate 6 none) 0) ∧
      (u.ps.fin = false ∧ Reader.guards .varS32 (u.ps.cur + 1) u.rd = some ([some 1], u.rd.advance 9) ∧
        u.ps.AdjustInRange [some 1] 0) ∧
      (Reader.guards (.bits 4) (w.ps.cur + 1) w.rd = some ([some 15], w.rd.advance 5) ∧
        w.ps.AdjustInRange [some 15] (-7)) :=
  ⟨⟨by decide, by decide, by decide, adjustInRange_of_all _ _ _ (by decide)⟩,
    ⟨by decide, by decide, adjustInRange_of_all _ _ _ (by decide)⟩,
    ⟨by decide, adjustInRange_of_all _ _ _ (by decide)⟩⟩

theorem witness_PenultimateAdjustAddsBelowTheTop :
    (running [4] []).ps.fin = false ∧ (running [4] []).ps.cur = 0 ∧ 1 ≤ (running [2147483646, 2] []).ps.cur ∧
      (path []).InRange ((path [2147483646, 2]).seg.get (1 - 1) + 1) ∧ ¬(path []).InRange ((path [2147483647, 2]).seg.get (1 - 1) + 1) := by
  decide

/-- Each kind of request with no bit left; the second of two pushed values; the increment and the count that follow a
count or a loop; the field after a pop; and the guard and the delta of a loop's second level. -/
theorem witness_ExhaustedFieldsAreMalformed :
    (∀ q ∈ [Request.bits 3, .bits 4, .bits 6, .ubv, .ubvfp], (running [4] []).rd.request q = none) ∧
      (let s := running [1, 2, 3, 4] [1, 0, 0, 1];
        ReachesPushes s .pushThreeLeftDeltaZero .ubvfp 3 s.rd ∧ s.ps.cur + 1 ≤ 4 ∧
          Reader.requests .ubvfp 1 s.rd = some ([0], s.rd.advance 3) ∧ (∀ v ∈ [0], s.ps.InRange v) ∧
          (s.rd.advance 3).request .ubvfp = none) ∧
      (let s := running [1, 2, 3, 4, 5] [1, 0, 0, 1];
        ReachesPushes s .pushOneLeftDeltaNRightNonZero .ubvfp 1 (s.rd.advance 3) ∧ s.ps.cur + 0 ≤ 4 ∧
          Reader.requests .ubvfp 0 (s.rd.advance 3) = some ([], s.rd.advance 3) ∧
          (s.rd.advance 3).request .ubvfp = none) ∧
      (let s := running [4] [1, 0, 0, 0, 0, 0, 1];
        s.rd.request .ubv = some (1, s.rd.advance 6) ∧ (s.rd.advance 6).request .ubv = none) ∧
      (let s := running [4] [0, 1];
        Reader.guards .varS32 (s.ps.cur + 1) s.rd = some ([none], s.rd.advance 1) ∧ s.ps.AdjustInRange [none] 1 ∧
          (s.rd.advance 1).request .ubv = none) ∧
      (1 ≤ (running [4, 2] [1]).ps.cur ∧ (running [4, 2] [1]).rd.request .ubvfp = none) ∧
      (let s := running [4, 2] [1, 1, 0, 1];
        s.rd.request .ubvfp = some (1, s.rd.advance 3) ∧ Int.toNat 1 ≤ s.ps.cur ∧
          (s.rd.advance 3).request .varS32 = none) ∧
      (let s := running [4, 2] [0, 1, 1, 1, 1];
        ReachesGuards s .nonTopoComplexPack4Bits (.bits 4) (-7) s.ps s.rd ∧
          LoopReaches s.ps (.bits 4) (-7) s.rd 1 (s.rd.advance 1) ∧
          (s.rd.advance 1).request .bool = some (1, s.rd.advance 2) ∧ (s.rd.advance 2).request (.bits 4) = none) ∧
      (let s := running [4, 2, 7] [1, 1, 0, 0];
        ReachesGuards s .popNAndNonTopographical .varS32 0 (s.ps.popped (Int.toNat 1)) (s.rd.advance 3) ∧
          LoopReaches (s.ps.popped (Int.toNat 1)) .varS32 0 (s.rd.advance 3) 1 (s.rd.advance 4) ∧
          (s.rd.advance 4).request .bool = none) :=
  ⟨by decide, ⟨.atOnce _ _ _ (by decide), by decide⟩,
    ⟨.afterField _ .ubvfp _ _ 0 _ (by decide) (by decide) (by decide), by decide⟩, by decide,
    ⟨by decide, adjustInRange_of_all _ _ _ (by decide), by decide⟩, by decide, by decide,
    ⟨.nonTopoComplexPack4Bits, ⟨by decide, [none], by decide, adjustInRange_of_all _ _ _ (by decide)⟩, by decide,
      by decide⟩,
    ⟨.popNAndNonTopographical 1 _ (by decide) (by decide),
      ⟨by decide, [none], by decide, adjustInRange_of_all _ _ _ (by decide)⟩, by decide⟩⟩

/-- A value just outside the range for each way to a write. -/
theorem witness_OverrangeWritesRaiseSegmentRange :
    (let s := running [4, 2147483647] [1, 0, 0, 0, 0, 0, 0];
      (ReachesWrite s .pushTwoLeftDeltaOne 1 (2147483647 + 1) ∧ ¬(path []).InRange (2147483647 + 1)) ∧
        ReachesWrite s .pushOneLeftDeltaNRightNonZeroPack6Bits 1 (2147483647 + (1 + 2))) ∧
      (ReachesWrite (running [-2147483642] [1, 0, 0, 0, 0]) .nonTopoComplexPack4Bits 0 (-2147483642 + (0 + -7)) ∧
        ¬(path []).InRange (-2147483642 + (0 + -7))) ∧
      ReachesWrite (running [2147483647] [0, 0, 0, 0, 0, 0, 1, 0, 0, 0, 0, 0]) .pushN 0 (2147483647 + 1) ∧
      ReachesWrite (running [4] ([1, 0, 0, 0, 0, 0, 0] ++ List.replicate 31 1)) .pushOneLeftDeltaNRightNonZero (0 + 1)
        (2147483647 + 1) ∧
      ReachesWrite (running [2147483647, 2] []) .popOnePlusOne (1 - 1) (2147483647 + 1) ∧
      ReachesWrite (running [2147483647, 2] [1, 0, 0]) .popOnePlusN (1 - 1) (2147483647 + (0 + 1)) ∧
      ReachesWrite (running [2147483647, 2] []) .popAllButOnePlusOne 0 (2147483647 + 1) ∧
      ReachesWrite (running [2147483647] [0, 0, 0]) .popAllButOnePlusNPack3Bits 0 (2147483647 + (0 + 1)) ∧
      ReachesWrite (running [4, 2147483647] [1, 0, 0]) .popNPlusOne (1 - Int.toNat 0) (2147483647 + 1) ∧
      ReachesWrite (running [-2147483648, 2] [1, 1, 0, 1, 0, 0, 0, 0, 0, 0, 0]) .popNPlusN (1 - Int.toNat 1)
        (-2147483648 + -1) ∧
      ReachesWrite (running [2147483647, 2] []) .nonTopoPenultimatePlusOne (1 - 1) (2147483647 + 1) ∧
      (ReachesWrite (running [4, -2147483648] [0, 1, 1, 0, 0, 0, 0, 0, 0, 0]) .nonTopoComplex 1 (-2147483648 + (-1 + 0)) ∧
        ¬(path []).InRange (-2147483648 + (-1 + 0))) ∧
      (let s := ranged narrow (running [1, 2] [1, 0, 0, 1, 1, 1]);
        ReachesWrite s .pushTwoLeftDeltaZero (1 + 1 + 1) 3 ∧ ¬s.ps.InRange 3) ∧
      (¬(path []).InRange (2147483647 + (1 + 2)) ∧ ¬(path []).InRange (2147483647 + (0 + 1)) ∧ ¬(path []).InRange (-2147483648 + -1)) :=
  ⟨⟨⟨.top _ 1 (by decide), by decide⟩, .topField _ (.bits 3) 2 1 _ (by decide) rfl⟩,
    ⟨.guarded _ (.bits 4) (-7) _ _ 0 _ _ _ 0 .nonTopoComplexPack4Bits
      ⟨by decide, [], rfl, adjustInRange_of_all _ _ _ (by decide)⟩ rfl rfl, by decide⟩,
    .pushN 0 1 _ _ rfl rfl, .pushed _ .ubvfp 0 2147483647 _ _ (by decide) rfl (by decide) (by decide) rfl,
    .popOne (by decide), .popOneField 0 _ (by decide) rfl, .popAll, .popAllField _ (.bits 3) 0 _ (by decide) rfl,
    .popN 0 _ rfl (by decide), .popNField 1 (-1) _ _ rfl (by decide) rfl, .penultimate (by decide),
    ⟨.guarded _ .varS32 0 _ _ 1 _ _ _ (-1) .nonTopoComplex
      ⟨by decide, [none], rfl, adjustInRange_of_all _ _ _ (by decide)⟩ rfl rfl, by decide⟩,
    ⟨.pushedField _ .ubvfp 2 1 3 [0] _ _ _ (.atOnce _ _ _ (by decide)) (by decide) (by decide) (by decide) rfl
      (by decide) rfl, by decide⟩, by decide⟩

/-- A guard loop whose fourth micro-step faults; an operation that faults; and the rule's examples. -/
theorem witness_FirstFailingMicroStepDecidesTheFault :
    let x := running [2147483647, 1] [0, 1, 0, 0]
    let s := running [1, 2, 3, 4, 5, 6] [1, 0]
    let u := running [1, 2, 3, 4, 5, 6] [1, 0, 0, 1]
    let w := running [4] [1, 1, 0, 1]
    (∃ c m rest, microTicks 3 (program .nonTopoComplex) ⟨x.ps, x.rd⟩ = some (c, m :: rest) ∧
        microTick m rest c = .error .malformedStream) ∧
      (∃ t, exec .nonTopoComplex x = .next t ∧ t.estate = .fault) ∧
      (s.ps.cur = 5 ∧ s.rd.request .ubvfp = none) ∧
      (u.ps.cur = 5 ∧ u.rd.request .ubvfp = some (0, u.rd.advance 3) ∧ (u.rd.advance 3).request .ubvfp = none ∧
        u.ps.InRange (u.ps.seg.get 5 + (0 + 2))) ∧
      (w.rd.request .ubvfp = some (1, w.rd.advance 3) ∧ (w.rd.advance 3).request .varS32 = none ∧
        w.ps.cur < Int.toNat 1) :=
  ⟨⟨_, _, _, rfl, rfl⟩, ⟨_, rfl, by decide⟩, by decide⟩

end Sys2Proof.Tests
end

/-! # 00_scope.md

What no step writes (R9, R10, R33, R52), and the writes that leave SEG_MIN to SEG_MAX (R9, R15, R154). -/

/-! ## What no step writes -/

section
namespace Sys2Proof.Machine

/-- `t` has the build parameters of `s`: TREE and OPROM, TRACE_EN, BR, and SEG_MIN and SEG_MAX. -/
structure SameParameters (s t : State) : Prop where
  rom : t.rom = s.rom
  traceEn : t.traceEn = s.traceEn
  br : t.rd.br = s.rd.br
  range : t.ps.range = s.ps.range

/-- `t` has STREAM as well as the build parameters of `s`: what the block itself cannot write. -/
structure Unwritten (s t : State) : Prop extends SameParameters s t where
  stream : t.rd.stream = s.rd.stream

theorem Unwritten.refl (s : State) : Unwritten s s := ⟨⟨rfl, rfl, rfl, rfl⟩, rfl⟩

theorem Unwritten.trans {s t u : State} (h : Unwritten s t) (k : Unwritten t u) : Unwritten s u :=
  ⟨⟨k.rom.trans h.rom, k.traceEn.trans h.traceEn, k.br.trans h.br, k.range.trans h.range⟩, k.stream.trans h.stream⟩

/-! ### The parts of a step -/

theorem unwritten_traceBefore (s : State) : Unwritten s (traceBefore s) := ⟨⟨rfl, rfl, rfl, rfl⟩, rfl⟩

theorem unwritten_raiseFault (f : FaultInfo) (s : State) : Unwritten s (raiseFault f s) := ⟨⟨rfl, rfl, rfl, rfl⟩, rfl⟩

theorem unwritten_atLeaf (op n : Nat) (s : State) : Unwritten s (atLeaf op n s) := ⟨⟨rfl, rfl, rfl, rfl⟩, rfl⟩

/-- The micro-steps of an operation only move the reader on, so its end writes none of it. -/
theorem unwritten_resume {ms : List Micro} {s t : State} (h : resume ms s = .next t) : Unwritten s t := by
  obtain ⟨c, hc, rfl⟩ | ⟨f, -, rfl⟩ := resume_cases h
  · obtain ⟨hstream, hbr, -, hrange⟩ := runMicros_onward _ _ _ hc
    exact ⟨⟨rfl, rfl, hbr, hrange⟩, hstream⟩
  · exact unwritten_raiseFault f s

/-- Up to its next request an operation leaves the reader as it is. -/
theorem unwritten_resumeUnasked {ms : List Micro} {s t : State} (h : resumeUnasked ms s = .next t) :
    Unwritten s t := by
  unfold resumeUnasked at h
  split at h
  · cases h
    exact unwritten_raiseFault _ s
  all_goals
    rename_i hu
    obtain ⟨hrd, hrange⟩ := runUnasked_reader _ _ _ _ hu
    cases h
    exact ⟨⟨rfl, rfl, congrArg Reader.br hrd, hrange⟩, congrArg Reader.stream hrd⟩

theorem unwritten_exec {i : Instr} {s t : State} (h : exec i s = .next t) : Unwritten s t := by
  rw [exec_eq_runOperation] at h
  exact (unwritten_traceBefore s).trans (unwritten_resume h)

theorem unwritten_select {s t : State} (h : runFetched (select s) = .next t) : Unwritten s t := by
  unfold select at h
  cases hk : s.rom.kindOf s.opidx with
  | none =>
    rw [hk] at h
    cases h
    exact unwritten_raiseFault _ s
  | some i =>
    rw [hk] at h
    exact unwritten_exec h

theorem unwritten_fetch {s t : State} (h : runFetched (fetch s) = .next t) : Unwritten s t := by
  unfold fetch at h
  cases hw : walk s.rom.tree s.node 0 s.rd.rest with
  | exhausted =>
    rw [hw] at h
    cases h
    exact unwritten_raiseFault _ s
  | noNode id =>
    rw [hw] at h
    cases h
  | leaf op n =>
    rw [hw] at h
    exact (unwritten_atLeaf op n s).trans (unwritten_select h)

theorem unwritten_executeUnanswered {s t : State} (h : executeUnanswered s = .next t) : Unwritten s t := by
  unfold executeUnanswered at h
  cases hm : s.mstep with
  | some ms =>
    rw [hm] at h
    exact unwritten_resumeUnasked h
  | none =>
    rw [hm] at h
    cases hk : s.rom.kindOf s.opidx with
    | none =>
      simp only [select, hk] at h
      cases h
      exact unwritten_raiseFault _ s
    | some i =>
      simp only [select, hk] at h
      exact (unwritten_traceBefore s).trans (unwritten_resumeUnasked h)

theorem unwritten_traverseUnanswered {s t : State} (h : traverseUnanswered s = .next t) : Unwritten s t := by
  unfold traverseUnanswered at h
  split at h
  · cases h
  · exact (unwritten_atLeaf _ 0 s).trans (unwritten_executeUnanswered h)
  · cases h
    exact .refl s

theorem unwritten_emitMoves (p : Pins) (s : State) : Unwritten s (emitMoves p s) := by
  unfold emitMoves
  split
  · exact ⟨⟨rfl, rfl, rfl, rfl⟩, rfl⟩
  · exact .refl s

/-! ### The host's moves -/

@[simp] theorem Reader.placed_br (r : Reader) (load : Option Chunk) : (r.placed load).br = r.br := by
  cases load <;> rfl

/-- The reader keeps its STREAM, or has the one that the host hands it. -/
theorem Reader.placed_stream (r : Reader) (load : Option Chunk) :
    (r.placed load).stream = r.stream ∨ load.map (·.stream) = some (r.placed load).stream := by
  cases load with
  | none => exact .inl rfl
  | some c => exact .inr rfl

theorem hostMoves_rd (p : Pins) (s : State) : (hostMoves p s).rd = s.rd.placed p.load := by
  unfold hostMoves
  split <;> rfl

theorem sameParameters_hostMoves (p : Pins) (s : State) : SameParameters s (hostMoves p s) := by
  unfold hostMoves
  split <;> exact ⟨rfl, rfl, s.rd.placed_br p.load, rfl⟩

theorem sameParameters_resetMoves (p : Pins) (s : State) : SameParameters s (resetMoves p s) :=
  ⟨rfl, rfl, s.rd.placed_br p.load, rfl⟩

/-! ### A step, by RST and BUSY -/

theorem stepWith_of_rst {p : Pins} {s : State} (h : p.rst = true) : stepWith p s = .next (resetMoves p s) := by
  simp [stepWith, h]

theorem stepWith_of_not_busy {p : Pins} {s : State} (hr : p.rst = false) (hb : s.busy = false) :
    stepWith p s = .next (hostMoves p s) := by
  unfold stepWith
  unfold State.busy at hb
  cases he : s.estate with
  | run phase =>
    rw [he] at hb
    cases hb
  | idle => simp [hr]
  | done => simp [hr]
  | fault => simp [hr]

/-- While the block is busy and RST is low, whatever a step does writes none of it (R33, R52, R178). -/
theorem unwritten_of_busy {p : Pins} {s t : State} (hr : p.rst = false) (hb : s.busy = true)
    (h : stepWith p s = .next t) : Unwritten s t := by
  simp only [stepWith, hr, Bool.false_eq_true, if_false] at h
  unfold State.busy at hb
  cases he : s.estate with
  | idle => simp [he] at hb
  | done => simp [he] at hb
  | fault => simp [he] at hb
  | run phase =>
    rw [he] at h
    cases phase with
    | traverse =>
      dsimp only at h
      split at h
      · cases h
        exact ⟨⟨rfl, rfl, rfl, rfl⟩, rfl⟩
      · split at h
        · exact unwritten_fetch h
        · exact unwritten_traverseUnanswered h
    | execute =>
      dsimp only at h
      split at h
      · cases hm : s.mstep with
        | none =>
          rw [hm] at h
          exact unwritten_select h
        | some ms =>
          rw [hm] at h
          exact unwritten_resume h
      · exact unwritten_executeUnanswered h
    | emit =>
      cases h
      exact unwritten_emitMoves p s

/-- Under any sample a step keeps the build parameters; STREAM changes only to what the host hands over, under RST or while
the block is not busy. -/
theorem stepWith_writes {p : Pins} {s t : State} (h : stepWith p s = .next t) :
    SameParameters s t ∧
      (t.rd.stream = s.rd.stream ∨
        ((p.rst = true ∨ s.busy = false) ∧ p.load.map (·.stream) = some t.rd.stream)) := by
  cases hr : p.rst with
  | true =>
    rw [stepWith_of_rst hr] at h
    cases h
    exact ⟨sameParameters_resetMoves p s, (s.rd.placed_stream p.load).imp_right fun hl => ⟨.inl rfl, hl⟩⟩
  | false =>
    cases hb : s.busy with
    | true =>
      have hu := unwritten_of_busy hr hb h
      exact ⟨hu.toSameParameters, .inl hu.stream⟩
    | false =>
      rw [stepWith_of_not_busy hr hb] at h
      cases h
      rw [hostMoves_rd]
      exact ⟨sameParameters_hostMoves p s, (s.rd.placed_stream p.load).imp_right fun hl => ⟨.inr rfl, hl⟩⟩

/-- Settles O28: a step is `stepWith` under the sample it takes, and taking the sample touches only the queue of samples. -/
theorem romsAndStreamAreNeverWritten : Obligations.RomsAndStreamAreNeverWritten := by
  intro s t h
  obtain ⟨hsame, hstream⟩ := stepWith_writes (s := s.popPins) h
  exact ⟨hsame.rom, hsame.traceEn, hsame.br, hsame.range, hstream⟩

end Sys2Proof.Machine
end

/-! ## Writes outside SEG_MIN to SEG_MAX -/

section
namespace Sys2Proof.Machine

/-! ### Single micro-steps, and the fault of an operation -/

/-- A field without a bias, as it is read. -/
theorem evalExpr_of_read_unbiased {q : Request} {v : Int} {rd rd' : Reader} (h : rd.request q = some (v, rd')) :
    evalExpr (fieldPlus q 0) rd = some (v, rd') := by
  simpa using evalExpr_of_read (bias := 0) h

theorem runMicros_singleton (m : Micro) (c : OpCtx) : runMicros [m] c = runMicro m c := by
  unfold runMicros
  cases runMicro m c <;> rfl

/-- The fault that an operation's micro-steps raise is the one it takes. -/
theorem exec_of_runMicros_error {i : Instr} {s : State} {f : FaultInfo}
    (h : runMicros (program i) ⟨s.ps, s.rd⟩ = .error f) : exec i s = .next (s.faultedBy f) := by
  rw [exec_eq_runOperation]
  exact runOperation_faulted h

/-- A push of a value out of range faults at the level it has entered. -/
theorem push_of_overrange {e : Expr} {c : OpCtx} {v : Int} {rd : Reader} (hc : c.ps.cur ≤ 4)
    (h : evalExpr e c.rd = some (v, rd)) (hr : ¬c.ps.InRange v) :
    push e c = .error (.segmentRange (c.ps.cur + 1) v) := by
  simp only [push, enter_ok_iff.mpr ⟨hc, rfl⟩]
  exact setTop_error_iff.mpr (.inr ⟨v, rd, h, hr, rfl⟩)

/-- A level left by a pop is added to as it was before the pop. -/
theorem addSeg_popped_of_overrange {i n : Nat} {e : Expr} {ps : PathState} {r rd : Reader} {v : Int}
    (hi : i ≤ ps.cur - n) (h : evalExpr e r = some (v, rd)) (hr : ¬ps.InRange (ps.seg.get i + v)) :
    addSeg i e ⟨ps.popped n, r⟩ = .error (.segmentRange i (ps.seg.get i + v)) := by
  rw [← popped_get ps n i hi] at hr ⊢
  exact addSeg_of_overrange (c := ⟨ps.popped n, r⟩) h hr

/-- A true guard's delta that takes its level out of range ends the loop there. -/
theorem guardLevels_of_overrange {k i : Nat} {q : Request} {bias x : Int} {ps : PathState} {r rg rx : Reader}
    (guard : r.request .bool = some (1, rg)) (read : rg.request q = some (x, rx))
    (hr : ¬ps.InRange (ps.seg.get i + (x + bias))) :
    guardLevels (k + 1) i (fieldPlus q bias) ⟨ps, r⟩ = .error (.segmentRange i (ps.seg.get i + (x + bias))) := by
  simp only [guardLevels, guard, if_true, addSeg_of_overrange (c := ⟨ps, rg⟩) (evalExpr_of_read read) hr]

/-! ### Operations that begin with an addition to the top, or with a pop -/

/-- The first micro-step of the operation adds to the top, out of range. -/
theorem exec_of_addTop_overrange {i : Instr} {s : State} {e : Expr} {ms : List Micro} {v : Int} {rd : Reader}
    (hp : program i = .addTop e :: ms) (he : evalExpr e s.rd = some (v, rd))
    (hr : ¬s.ps.InRange (s.ps.seg.get s.ps.cur + v)) :
    exec i s = .next (s.faultedBy (.segmentRange s.ps.cur (s.ps.seg.get s.ps.cur + v))) := by
  apply exec_of_runMicros_error
  rw [hp]
  exact runMicros_cons_error (runMicro_addTop_of_overrange he hr)

/-- The operation pops `n` levels by its first micro-step, and its second adds to the new top, out of range. -/
theorem exec_of_pop_addTop_overrange {i : Instr} {s : State} {m : Micro} {e : Expr} {n : Nat} {r rd : Reader} {v : Int}
    (hp : program i = [m, .addTop e]) (hm : runMicro m ⟨s.ps, s.rd⟩ = .ok ⟨s.ps.popped n, r⟩)
    (he : evalExpr e r = some (v, rd)) (hr : ¬s.ps.InRange (s.ps.seg.get (s.ps.cur - n) + v)) :
    exec i s = .next (s.faultedBy (.segmentRange (s.ps.cur - n) (s.ps.seg.get (s.ps.cur - n) + v))) := by
  apply exec_of_runMicros_error
  rw [hp, runMicros_cons_ok hm, runMicros_singleton]
  exact addSeg_popped_of_overrange (le_refl _) he hr

/-- The operation pops every level but SEG[0], and then adds to that one, out of range. -/
theorem exec_of_popAll_addRoot_overrange {i : Instr} {s : State} {e : Expr} {v : Int} {rd : Reader}
    (hp : program i = [.popAll, .addRoot e]) (he : evalExpr e s.rd = some (v, rd))
    (hr : ¬s.ps.InRange (s.ps.seg.get 0 + v)) :
    exec i s = .next (s.faultedBy (.segmentRange 0 (s.ps.seg.get 0 + v))) := by
  have hpop : runMicro .popAll ⟨s.ps, s.rd⟩ = .ok ⟨s.ps.popped s.ps.cur, s.rd⟩ := pop_ok_iff.mpr ⟨le_refl _, rfl⟩
  apply exec_of_runMicros_error
  rw [hp, runMicros_cons_ok hpop, runMicros_singleton]
  exact addSeg_popped_of_overrange (Nat.zero_le _) he hr

theorem runMicro_pop_one {ps : PathState} {r : Reader} (h : 1 ≤ ps.cur) :
    runMicro (.pop 1) ⟨ps, r⟩ = .ok ⟨ps.popped 1, r⟩ :=
  pop_ok_iff.mpr ⟨h, rfl⟩

theorem runMicro_popRead_of_read {q : Request} {ps : PathState} {n : Int} {r r' : Reader}
    (count : r.request q = some (n, r')) (fits : n.toNat ≤ ps.cur) :
    runMicro (.popRead q) ⟨ps, r⟩ = .ok ⟨ps.popped n.toNat, r'⟩ :=
  popRead_ok_iff.mpr ⟨n, r', count, fits, rfl⟩

/-! ### Guard loops -/

/-- An operation that comes to its guard loop has raised nothing before it, and goes on with the loop. -/
theorem runMicros_of_reachesGuards {s : State} {i : Instr} {q : Request} {bias : Int} {ps : PathState} {r : Reader}
    (h : ReachesGuards s i q bias ps r) :
    ps.cur ≤ s.ps.cur ∧ ps.range = s.ps.range ∧
      ∃ ms, runMicros (program i) ⟨s.ps, s.rd⟩ = runMicros (.guardLoop (fieldPlus q bias) :: ms) ⟨ps, r⟩ := by
  cases h with
  | nonTopoComplex => exact ⟨le_refl _, rfl, _, rfl⟩
  | nonTopoComplexPack4Bits => exact ⟨le_refl _, rfl, _, rfl⟩
  | pushNAndNonTopological => exact ⟨le_refl _, rfl, _, rfl⟩
  | popNAndNonTopographical n r count fits =>
    exact ⟨Nat.sub_le _ _, rfl, _, runMicros_cons_ok (runMicro_popRead_of_read count fits)⟩

/-! ### Rows of pushes -/

/-- The bias of the fields that the operation's row of pushes reads: 1 in R114 to R116, and 0 elsewhere. -/
def rowBias (i : Instr) : Int :=
  if i ∈ [Instr.pushOneLeftDeltaNRightNonZero, .pushOneLeftDeltaNRightNonZeroPack6Bits,
      .pushOneLeftDeltaNRightNonZeroPack8Bits] then 1 else 0

/-- An addition to the top and then a row of pushes. -/
theorem runMicros_addTop_row {e e' : Expr} {n : Nat} {ps : PathState} {r rd : Reader} {v : Int}
    (he : evalExpr e r = some (v, rd)) (hr : ps.InRange (ps.seg.get ps.cur + v)) :
    runMicros (.addTop e :: (List.replicate n [Micro.enter, .setTop e']).flatten) ⟨ps, r⟩ =
      pushTimes n e' ⟨ps.added ps.cur v, rd⟩ := by
  rw [runMicros_cons_ok (runMicro_addTop_of_eval he hr), runMicros_pushTimes]

/-- An operation that comes to its row of pushes has raised nothing before it, has the cursor it began with, and ends with
the row. -/
theorem runMicros_of_reachesPushes {s : State} {i : Instr} {q : Request} {n : Nat} {r : Reader} (hc : s.ps.cur ≤ 5)
    (h : ReachesPushes s i q n r) :
    ∃ ps : PathState, ps.cur = s.ps.cur ∧ ps.range = s.ps.range ∧
      runMicros (program i) ⟨s.ps, s.rd⟩ = pushTimes n (fieldPlus q (rowBias i)) ⟨ps, r⟩ := by
  cases h with
  | atOnce i q n form =>
    have hp : program i = (List.replicate n [Micro.enter, .setTop (fieldPlus q (rowBias i))]).flatten := by
      fin_cases form <;> rfl
    exact ⟨s.ps, rfl, rfl, by rw [hp, runMicros_pushTimes]⟩
  | afterOne i q n form sum =>
    have hp : program i =
        .addTop (constant 1) :: (List.replicate n [Micro.enter, .setTop (fieldPlus q (rowBias i))]).flatten := by
      fin_cases form <;> rfl
    exact ⟨s.ps.added s.ps.cur 1, rfl, rfl, by rw [hp, runMicros_addTop_row (evalExpr_constant 1 _) sum]⟩
  | afterField i q0 q n d r form read sum =>
    have hp : program i =
        .addTop (fieldPlus q0 2) :: (List.replicate n [Micro.enter, .setTop (fieldPlus q (rowBias i))]).flatten := by
      fin_cases form <;> rfl
    exact ⟨s.ps.added s.ps.cur (d + 2), rfl, rfl, by rw [hp, runMicros_addTop_row (evalExpr_of_read read) sum]⟩
  | pushN n d r1 _ count read sum =>
    have hadd : addSeg s.ps.cur (fieldPlus .ubv 0) ⟨s.ps, r1⟩ = .ok ⟨s.ps.added s.ps.cur d, r⟩ :=
      addSeg_of_eval (evalExpr_of_read_unbiased read) sum
    refine ⟨s.ps.added s.ps.cur d, rfl, rfl, ?_⟩
    simp only [program, pushNSteps, runMicros_singleton, runMicro, countPush, count, hadd]
    rfl
  | pushNAndNonTopological gs n r1 _ loop sums count =>
    have hloop : runMicro (.guardLoop (fieldPlus .varS32 1)) ⟨s.ps, s.rd⟩ = .ok ⟨adjFrom s.ps gs 1 0, r1⟩ :=
      guardLevels_of_guards (s.ps.cur + 1) 0 ⟨s.ps, s.rd⟩ gs r1 (by omega) loop fun j x hx => by
        simpa using sums j x hx
    refine ⟨adjFrom s.ps gs 1 0, rfl, rfl, ?_⟩
    simp only [program, pushNAndNonTopologicalSteps, runMicros_cons_ok hloop, runMicros_singleton, runMicro, countPush,
      count]
    rfl

/-! ### Every write -/

/-- Settles O59, by the forms of a write: each comes to its `SEG[j] <- v` with nothing raised before, and the range check
of that write raises the fault. -/
theorem overrangeWritesRaiseSegmentRange : Obligations.OverrangeWritesRaiseSegmentRange := by
  intro s i j v hc reaches hr
  cases reaches with
  | top i k form =>
    obtain ⟨ms, hp⟩ : ∃ ms, program i = .addTop (constant k) :: ms := by
      fin_cases form <;> exact ⟨_, rfl⟩
    exact exec_of_addTop_overrange hp (evalExpr_constant k _) hr
  | topField i q k d r form read =>
    obtain ⟨ms, hp⟩ : ∃ ms, program i = .addTop (fieldPlus q k) :: ms := by
      fin_cases form <;> exact ⟨_, rfl⟩
    exact exec_of_addTop_overrange hp (evalExpr_of_read read) hr
  | pushN n d r r' count read =>
    apply exec_of_runMicros_error
    simp only [program, pushNSteps, runMicros_singleton, runMicro, countPush, count,
      addSeg_of_overrange (c := ⟨s.ps, r⟩) (evalExpr_of_read_unbiased read) hr]
  | pushed i q d v r r' form read sum room value =>
    have hform : rowBias i = 1 ∧ ReachesPushes s i q 1 r := by
      fin_cases form <;>
        exact ⟨rfl, .afterField _ _ _ _ d r (by decide) read sum⟩
    obtain ⟨hbias, row⟩ := hform
    obtain ⟨ps, hcur, hrange, hrun⟩ := runMicros_of_reachesPushes hc row
    have hpush : push (fieldPlus q 1) ⟨ps, r⟩ = .error (.segmentRange (s.ps.cur + 1) (v + 1)) := by
      rw [← hcur]
      exact push_of_overrange (by simpa only [hcur] using room) (evalExpr_of_read value)
        (by simpa only [PathState.InRange, hrange] using hr)
    apply exec_of_runMicros_error
    rw [hrun, hbias, pushTimes, hpush]
  | pushedField i q n k v vs r rk rv row form more room read fit value =>
    obtain ⟨ps, hcur, hrange, hrun⟩ := runMicros_of_reachesPushes hc row
    have hbias : rowBias i = 0 := if_neg form
    apply exec_of_runMicros_error
    rw [hrun, hbias, ← hcur]
    exact pushTimes_of_overrange (c := ⟨ps, r⟩) more (by simpa only [hcur] using room) read
      (by simpa only [PathState.InRange, hrange] using fit) value (by simpa only [PathState.InRange, hrange] using hr)
  | popOne fits =>
    exact exec_of_pop_addTop_overrange rfl (runMicro_pop_one fits) (evalExpr_constant 1 _) hr
  | popOneField d r fits read =>
    exact exec_of_pop_addTop_overrange rfl (runMicro_pop_one fits) (evalExpr_of_read read) hr
  | popAll => exact exec_of_popAll_addRoot_overrange rfl (evalExpr_constant 1 _) hr
  | popAllField i q d r form read =>
    have hp : program i = [.popAll, .addRoot (fieldPlus q 1)] := by
      fin_cases form <;> rfl
    exact exec_of_popAll_addRoot_overrange hp (evalExpr_of_read read) hr
  | popN n r count fits =>
    exact exec_of_pop_addTop_overrange rfl (runMicro_popRead_of_read count fits) (evalExpr_constant 1 _) hr
  | popNField n x r r' count fits read =>
    exact exec_of_pop_addTop_overrange rfl (runMicro_popRead_of_read count fits) (evalExpr_of_read_unbiased read) hr
  | penultimate below =>
    apply exec_of_runMicros_error
    exact runMicros_cons_error (addPenultimate_error_iff.mpr (.inr ⟨below, hr, rfl⟩))
  | guarded i q bias ps r j rj rg rx x loop level guard read =>
    obtain ⟨hcur, hrange, ms, hrun⟩ := runMicros_of_reachesGuards loop
    obtain ⟨ps', hcur', hrange', hget, hlevels⟩ := guardLevels_of_reaches (hcur.trans hc) level
    rw [← hget] at hr ⊢
    have hstop := guardLevels_of_overrange (k := ps.cur - j) (ps := ps') guard read
      (by simpa only [PathState.InRange, hrange', hrange] using hr)
    apply exec_of_runMicros_error
    rw [hrun]
    exact runMicros_cons_error (hlevels.trans hstop)

end Sys2Proof.Machine
end

/-! # 10_state.md

The invariant (R18 to R29), the requests and POS (R30), CUR and FIN (R20, R21), and the ports (R24, R31). -/

/-! ## The invariant -/

section
namespace Sys2Proof.Machine

/-! ### The path states that RST, START and a fault leave -/

theorem good_initial (range : SegRange) : Good (.initial range) := by
  obtain ⟨hneg, hzero⟩ := range.holds_start
  refine ⟨⟨Nat.zero_le 5, (PathState.allInRange_iff _).mpr ⟨hneg, hzero, hzero, hzero, hzero, hzero⟩⟩,
    (PathState.zeroAbove_iff _).mpr fun i hi hpos => ?_⟩
  dsimp only [PathState.initial] at hpos
  interval_cases i <;> rfl

theorem bounded_faultPath (range : SegRange) (draw : Nat) : (faultPath range draw).Bounded :=
  ⟨Nat.le_of_lt_succ (Config.faultCur draw).isLt, (PathState.allInRange_iff _).mpr
    ⟨range.holds_nearest _, range.holds_nearest _, range.holds_nearest _, range.holds_nearest _, range.holds_nearest _,
      range.holds_nearest _⟩⟩

/-! ### The invariant, ESTATE by ESTATE -/

/-- A snapshot has 1 to 6 values, all of them in SEG_MIN to SEG_MAX (R24). -/
def SnapshotOk (range : SegRange) (snap : Snapshot) : Prop :=
  1 ≤ snap.length ∧ snap.length ≤ 6 ∧ ∀ v ∈ snap, range.holds v = true

theorem snapshotOk_snapshot {ps : PathState} (h : ps.Bounded) : SnapshotOk ps.range ps.snapshot := by
  obtain ⟨hcur, hseg⟩ := h
  refine ⟨by simp [PathState.snapshot], by simpa [PathState.snapshot] using Nat.lt_succ_of_le hcur, fun v hv => ?_⟩
  obtain ⟨i, -, rfl⟩ := List.mem_map.mp hv
  exact hseg i

/-- What the invariant asks in every ESTATE but FAULT. -/
structure Sound (s : State) : Prop where
  rom : s.rom.consistent = true
  good : Good s.ps
  kind : s.fkind = .none
  out : ∀ snap ∈ s.out, SnapshotOk s.ps.range snap

theorem State.Inv.sound {s : State} (h : s.Inv) (he : s.estate ≠ .fault) : Sound s :=
  ⟨h.rom, ⟨h.bounded, h.clear he⟩, h.kind.mpr he, h.out⟩

/-- Between operations NODE is at the root and there is no MSTEP; FIN is set in DONE only (R83, R85). -/
theorem Sound.inv_of_between {s : State} (h : Sound s)
    (he : (s.estate = .idle ∨ s.estate = .run .emit) ∧ s.ps.fin = false ∨ s.estate = .done ∧ s.ps.fin = true)
    (hnode : s.node = s.rom.root) (hmstep : s.mstep = none) : s.Inv := by
  rcases he with ⟨he | he, hf⟩ | ⟨he, hf⟩
  all_goals exact
    { rom := h.rom
      bounded := h.good.1
      clear := fun _ => h.good.2
      kind := by simp [he, h.kind]
      finDone := by simp [he, hf]
      finIdle := by simp [he, hf]
      finTraverse := by simp [he]
      finEmit := by simp [he, hf]
      nodeTraverse := by simp [he]
      nodeRoot := fun _ _ => hnode
      mstepNone := fun _ _ => hmstep
      mstepLevels := by simp [hmstep]
      opidxKind := by simp [he]
      out := h.out }

/-- While a code is read, NODE is a node of the tree (R25). -/
theorem Sound.inv_of_traverse {s : State} (h : Sound s) (he : s.estate = .run .traverse) (hfin : s.ps.fin = false)
    (hnode : s.node < s.rom.tree.length) (hmstep : s.mstep = none) : s.Inv where
  rom := h.rom
  bounded := h.good.1
  clear _ := h.good.2
  kind := by simp [he, h.kind]
  finDone := by simp [he]
  finIdle := by simp [he]
  finTraverse _ := hfin
  finEmit := by simp [he]
  nodeTraverse _ := hnode
  nodeRoot := by simp [he]
  mstepNone _ _ := hmstep
  mstepLevels := by simp [hmstep]
  opidxKind := by simp [he]
  out := h.out

/-- What the invariant asks in phase EXECUTE, but for MSTEP. -/
structure Executing (s : State) : Prop extends Sound s where
  estate : s.estate = .run .execute
  node : s.node = s.rom.root
  opidx : (s.rom.kindOf s.opidx).isSome = true

theorem State.Inv.executing {s : State} (h : s.Inv) (he : s.estate = .run .execute) : Executing s :=
  ⟨h.sound (by simp [he]), he, h.nodeRoot (by simp [he]) (by simp [he]), h.opidxKind he⟩

/-- A guard loop in progress stays within the active levels (R143). -/
theorem Executing.inv {s : State} (h : Executing s) (hlevels : ∀ ms, s.mstep = some ms → levelsOk s.ps.cur ms = true) :
    s.Inv where
  rom := h.rom
  bounded := h.good.1
  clear _ := h.good.2
  kind := by simp [h.estate, h.kind]
  finDone := by simp [h.estate]
  finIdle := by simp [h.estate]
  finTraverse := by simp [h.estate]
  finEmit := by simp [h.estate]
  nodeTraverse := by simp [h.estate]
  nodeRoot _ _ := h.node
  mstepNone := by simp [h.estate]
  mstepLevels _ := hlevels
  opidxKind _ := h.opidx
  out := h.out

/-! ### Entering and leaving an operation -/

theorem FaultInfo.kind_ne_none (f : FaultInfo) : f.kind ≠ .none := by
  cases f <;> nofun

/-- A fault may be taken wherever the ROMs and OUT are sound: it makes the path state anew (R149, R157). -/
theorem inv_raiseFault {s : State} (h : Sound s) (f : FaultInfo) : (raiseFault f s).Inv where
  rom := h.rom
  bounded := bounded_faultPath _ _
  clear he := absurd rfl he
  kind := by simp [f.kind_ne_none]
  finDone := nofun
  finIdle := nofun
  finTraverse := nofun
  finEmit := nofun
  nodeTraverse := nofun
  nodeRoot _ he := absurd rfl he
  mstepNone _ he := absurd rfl he
  mstepLevels := nofun
  opidxKind := nofun
  out := h.out

theorem executing_atLeaf {s : State} (h : Sound s) {op : Nat} (n : Nat) (hop : (s.rom.kindOf op).isSome = true) :
    Executing (atLeaf op n s) :=
  ⟨⟨h.rom, h.good, h.kind, h.out⟩, rfl, rfl, hop⟩

theorem Executing.traceBefore {s : State} (h : Executing s) : Executing (traceBefore s) :=
  ⟨⟨h.rom, h.good, h.kind, h.out⟩, h.estate, h.node, h.opidx⟩

/-- Inside an operation the path state moves within the invariant, and its range is the same. -/
theorem Executing.moved {s : State} (h : Executing s) {ps : PathState} (hgood : Good ps) (hrange : ps.range = s.ps.range)
    (rd : Reader) (mstep : Option (List Micro)) : Executing { s with ps := ps, rd := rd, mstep := mstep } :=
  ⟨⟨h.rom, hgood, h.kind, by simpa only [hrange] using h.out⟩, h.estate, h.node, h.opidx⟩

/-- The end of an operation, which drops MSTEP and goes to DONE or EMIT as FIN says (R83, R84). -/
theorem Executing.inv_finishOperation {s : State} (h : Executing s) : (finishOperation s).Inv := by
  have hsound : Sound (finishOperation s) := ⟨h.rom, h.good, h.kind, h.out⟩
  refine hsound.inv_of_between ?_ h.node rfl
  cases hf : s.ps.fin <;> simp [hf]

/-- No operation's pseudocode names a level by number. -/
theorem levelsOk_program (cur : Nat) (i : Instr) : levelsOk cur (program i) = true := by
  cases i <;> rfl

/-! ### Running an operation -/

section
variable {s t : State}

/-- The rest of an operation, to its end or its fault. -/
theorem Executing.inv_resume {ms : List Micro} (h : Executing s) (hlevels : levelsOk s.ps.cur ms = true)
    (hr : resume ms s = .next t) : t.Inv := by
  obtain ⟨c, hc, rfl⟩ | ⟨f, -, rfl⟩ := resume_cases hr
  · have hgood := runMicros_good ms ⟨s.ps, s.rd⟩ c h.good hlevels hc
    obtain ⟨-, -, -, hrange⟩ := runMicros_onward _ _ _ hc
    exact (h.moved hgood hrange c.rd s.mstep).inv_finishOperation
  · exact inv_raiseFault h.toSound f

/-- The rest of an operation, up to its next request. -/
theorem Executing.inv_resumeUnasked {ms : List Micro} (h : Executing s) (hlevels : levelsOk s.ps.cur ms = true)
    (hr : resumeUnasked ms s = .next t) : t.Inv := by
  unfold resumeUnasked at hr
  cases hu : runUnasked ms ⟨s.ps, s.rd⟩ with
  | error f =>
    rw [hu] at hr
    cases hr
    exact inv_raiseFault h.toSound f
  | ok p =>
    obtain ⟨c, left⟩ := p
    obtain ⟨hgood, hleft⟩ := runUnasked_good ms left ⟨s.ps, s.rd⟩ c h.good hlevels hu
    obtain ⟨-, hrange⟩ := runUnasked_reader _ _ _ _ hu
    rw [hu] at hr
    cases left with
    | nil =>
      cases hr
      exact (h.moved hgood hrange c.rd s.mstep).inv_finishOperation
    | cons m left =>
      cases hr
      refine (h.moved hgood hrange c.rd (some (m :: left))).inv fun ms' hms => ?_
      cases hms
      exact hleft

theorem Executing.inv_exec {i : Instr} (h : Executing s) (hr : exec i s = .next t) : t.Inv := by
  rw [exec_eq_runOperation] at hr
  exact h.traceBefore.inv_resume (levelsOk_program _ i) hr

/-- While an operation executes, the multiplexer has an operation to choose (R80, R81). -/
theorem Executing.select_eq (h : Executing s) : ∃ i, select s = .run i s := by
  obtain ⟨i, hi⟩ := Option.isSome_iff_exists.mp h.opidx
  exact ⟨i, by simp only [select, hi]⟩

theorem Executing.inv_select (h : Executing s) (hr : runFetched (select s) = .next t) : t.Inv := by
  obtain ⟨i, hi⟩ := h.select_eq
  rw [hi] at hr
  exact h.inv_exec hr

theorem Executing.inv_executeUnanswered (h : Executing s)
    (hlevels : ∀ ms, s.mstep = some ms → levelsOk s.ps.cur ms = true) (hr : executeUnanswered s = .next t) : t.Inv := by
  unfold executeUnanswered at hr
  cases hm : s.mstep with
  | some ms =>
    rw [hm] at hr
    exact h.inv_resumeUnasked (hlevels ms hm) hr
  | none =>
    obtain ⟨i, hi⟩ := h.select_eq
    rw [hm, hi] at hr
    exact h.traceBefore.inv_resumeUnasked (levelsOk_program _ i) hr

/-! ### Reading a code -/

theorem Sound.inv_fetch (h : Sound s) (hnode : s.node < s.rom.tree.length) (hr : runFetched (fetch s) = .next t) :
    t.Inv := by
  unfold fetch at hr
  obtain ⟨op, n, hw, hop⟩ | hw := walk_ok h.rom s.rd.rest s.node 0 hnode
  · rw [hw] at hr
    exact (executing_atLeaf h n hop).inv_select hr
  · rw [hw] at hr
    cases hr
    exact inv_raiseFault h _

/-- A traversal that reads no bit: at a leaf the operation begins, at an internal node nothing changes. -/
theorem State.Inv.inv_traverseUnanswered (h : s.Inv) (he : s.estate = .run .traverse)
    (hr : traverseUnanswered s = .next t) : t.Inv := by
  have hs : Sound s := h.sound (by simp [he])
  unfold traverseUnanswered at hr
  cases hn : s.rom.tree[s.node]? with
  | none =>
    rw [hn] at hr
    cases hr
  | some node =>
    rw [hn] at hr
    cases node with
    | leaf op => exact (executing_atLeaf hs 0 (node_ok h.rom hn)).inv_executeUnanswered nofun hr
    | internal c0 c1 =>
      cases hr
      exact h

end

/-! ### The moves of the host and of the consumer -/

theorem inv_popPins {s : State} (h : s.Inv) : s.popPins.Inv := { h with }

theorem inv_loadReader {s : State} (h : s.Inv) (p : Pins) : (loadReader p s).Inv := { h with }

theorem Rom.root_lt {rom : Rom} (h : rom.consistent = true) : rom.root < rom.tree.length := by
  simp only [Rom.consistent, Bool.and_eq_true, decide_eq_true_eq, beq_iff_eq] at h
  obtain ⟨⟨⟨hops, hlen⟩, -⟩, -⟩ := h
  unfold Rom.root
  omega

/-- START makes the path state and OUT anew (R77). -/
theorem inv_startDecode {s : State} (h : s.Inv) : (startDecode s).Inv := by
  have hs : Sound (startDecode s) := ⟨h.rom, good_initial _, rfl, nofun⟩
  exact hs.inv_of_traverse rfl rfl (Rom.root_lt h.rom) rfl

/-- RST makes the block anew, but for the ROMs (R170). -/
theorem inv_applyReset {s : State} (h : s.Inv) : (applyReset s).Inv := by
  have hs : Sound (applyReset s) := ⟨h.rom, good_initial _, rfl, nofun⟩
  exact hs.inv_of_between (.inl ⟨.inl rfl, rfl⟩) rfl rfl

theorem inv_resetMoves {s : State} (h : s.Inv) (p : Pins) : (resetMoves p s).Inv :=
  inv_loadReader (inv_applyReset h) p

theorem inv_hostMoves {s : State} (h : s.Inv) (p : Pins) : (hostMoves p s).Inv := by
  unfold hostMoves
  split
  · exact inv_startDecode (inv_loadReader h p)
  · exact inv_loadReader h p

/-- An accepted snapshot joins OUT, and the next code is read from the root (R84). -/
theorem inv_acceptSnapshot {s : State} (h : s.Inv) (he : s.estate = .run .emit) : (acceptSnapshot s).Inv := by
  have hout : ∀ snap ∈ (acceptSnapshot s).out, SnapshotOk s.ps.range snap := by
    intro snap hm
    rcases List.mem_append.mp hm with hm | hm
    · exact h.out snap hm
    · rw [List.mem_singleton.mp hm]
      exact snapshotOk_snapshot h.bounded
  have hs : Sound (acceptSnapshot s) := { h.sound (by simp [he]) with out := hout }
  have hnode : s.node = s.rom.root := h.nodeRoot (by simp [he]) (by simp [he])
  exact hs.inv_of_traverse rfl (h.finEmit he) (hnode ▸ Rom.root_lt h.rom) (h.mstepNone (by simp [he]) (by simp [he]))

theorem inv_emitMoves {s : State} (h : s.Inv) (he : s.estate = .run .emit) (p : Pins) : (emitMoves p s).Inv := by
  unfold emitMoves
  split
  · exact inv_acceptSnapshot h he
  · exact h

/-! ### A step -/

section
variable {p : Pins} {s t : State}

/-- BUSY is being in one of the phases of RUN (R31). -/
theorem State.busy_iff : s.busy = true ↔ ∃ phase, s.estate = .run phase := by
  unfold State.busy
  cases s.estate <;> simp

theorem stepWith_of_traverse (hr : p.rst = false) (he : s.estate = .run .traverse) (hf : s.ps.fin = false) :
    stepWith p s = if p.rdValid then runFetched (fetch s) else traverseUnanswered s := by
  simp [stepWith, hr, he, hf]

theorem stepWith_of_selected (hr : p.rst = false) (he : s.estate = .run .execute) (hv : p.rdValid = true)
    (hm : s.mstep = none) : stepWith p s = runFetched (select s) := by
  simp [stepWith, hr, he, hv, hm]

theorem stepWith_of_begun {ms : List Micro} (hr : p.rst = false) (he : s.estate = .run .execute)
    (hv : p.rdValid = true) (hm : s.mstep = some ms) : stepWith p s = resume ms s := by
  simp [stepWith, hr, he, hv, hm]

theorem stepWith_of_execute_unanswered (hr : p.rst = false) (he : s.estate = .run .execute) (hv : p.rdValid = false) :
    stepWith p s = executeUnanswered s := by
  simp [stepWith, hr, he, hv]

theorem stepWith_of_emit (hr : p.rst = false) (he : s.estate = .run .emit) :
    stepWith p s = .next (emitMoves p s) := by
  simp [stepWith, hr, he]

/-- In phase TRAVERSE a step reads the code and runs its operation, or, unanswered, gets as far as it can. -/
theorem inv_step_traverse (h : s.Inv) (hr : p.rst = false) (he : s.estate = .run .traverse)
    (ht : stepWith p s = .next t) : t.Inv := by
  rw [stepWith_of_traverse hr he (h.finTraverse he)] at ht
  split at ht
  · exact (h.sound (by simp [he])).inv_fetch (h.nodeTraverse he) ht
  · exact h.inv_traverseUnanswered he ht

/-- In phase EXECUTE a step runs what is left of the operation, or, unanswered, gets as far as it can. -/
theorem inv_step_execute (h : s.Inv) (hr : p.rst = false) (he : s.estate = .run .execute)
    (ht : stepWith p s = .next t) : t.Inv := by
  cases hv : p.rdValid with
  | false =>
    rw [stepWith_of_execute_unanswered hr he hv] at ht
    exact (h.executing he).inv_executeUnanswered (h.mstepLevels he) ht
  | true =>
    cases hm : s.mstep with
    | none =>
      rw [stepWith_of_selected hr he hv hm] at ht
      exact (h.executing he).inv_select ht
    | some ms =>
      rw [stepWith_of_begun hr he hv hm] at ht
      exact (h.executing he).inv_resume (h.mstepLevels he ms hm) ht

theorem inv_stepWith (h : s.Inv) (ht : stepWith p s = .next t) : t.Inv := by
  cases hr : p.rst with
  | true =>
    rw [stepWith_of_rst hr] at ht
    cases ht
    exact inv_resetMoves h p
  | false =>
    cases hb : s.busy with
    | false =>
      rw [stepWith_of_not_busy hr hb] at ht
      cases ht
      exact inv_hostMoves h p
    | true =>
      obtain ⟨phase, he⟩ := State.busy_iff.mp hb
      cases phase with
      | traverse => exact inv_step_traverse h hr he ht
      | execute => exact inv_step_execute h hr he ht
      | emit =>
        rw [stepWith_of_emit hr he] at ht
        cases ht
        exact inv_emitMoves h he p

end

/-- Settles O25, by RST, BUSY and the phases of RUN. -/
theorem stepKeepsTheInvariant : Obligations.StepKeepsTheInvariant :=
  fun _ _ h ht => inv_stepWith (inv_popPins h) ht

/-! ### A tick -/

section
variable {p : Pins} {s t : State}

/-- Under RST and outside the phases TRAVERSE and EXECUTE a tick is a step (R93). -/
theorem tickWith_eq_stepWith (h : p.rst = true ∨ s.estate ≠ .run .traverse ∧ s.estate ≠ .run .execute) :
    tickWith p s = stepWith p s := by
  unfold tickWith stepWith
  rcases h with hr | ⟨htraverse, hexecute⟩
  · simp [hr]
  · cases he : s.estate with
    | run phase =>
      cases phase with
      | traverse => exact absurd he htraverse
      | execute => exact absurd he hexecute
      | emit => rfl
    | idle => rfl
    | done => rfl
    | fault => rfl

theorem tickWith_of_traverse (hr : p.rst = false) (he : s.estate = .run .traverse) (hf : s.ps.fin = false) :
    tickWith p s = tickTraverse p s := by
  simp [tickWith, hr, he, hf]

theorem tickWith_of_execute (hr : p.rst = false) (he : s.estate = .run .execute) :
    tickWith p s = tickExecute p s := by
  simp [tickWith, hr, he]

/-- Both children of an internal node are nodes of the tree (R60). -/
theorem childOn_lt {rom : Rom} (h : rom.consistent = true) {id c0 c1 : Nat}
    (hn : rom.tree[id]? = some (.internal c0 c1)) (b : Bool) : childOn b c0 c1 < rom.tree.length := by
  have hc := node_ok h hn
  simp only [nodeConsistent, Bool.and_eq_true, decide_eq_true_eq] at hc
  cases b
  · exact hc.1
  · exact hc.2

/-- One bit of a code, or the leaf at its end. -/
theorem inv_tickTraverse (h : s.Inv) (he : s.estate = .run .traverse) (ht : tickTraverse p s = .next t) : t.Inv := by
  have hs : Sound s := h.sound (by simp [he])
  unfold tickTraverse at ht
  cases hn : s.rom.tree[s.node]? with
  | none =>
    rw [hn] at ht
    cases ht
  | some node =>
    rw [hn] at ht
    cases node with
    | leaf op =>
      cases ht
      exact (executing_atLeaf hs 0 (node_ok h.rom hn)).inv nofun
    | internal c0 c1 =>
      dsimp only at ht
      split at ht
      · split at ht
        · cases ht
          exact inv_raiseFault hs _
        · cases ht
          exact Sound.inv_of_traverse ⟨hs.rom, hs.good, hs.kind, hs.out⟩ he (h.finTraverse he) (childOn_lt h.rom hn _)
            (h.mstepNone (by simp [he]) (by simp [he]))
      · cases ht
        exact h

/-- The selection, one micro-step, or the end of the operation. -/
theorem inv_tickExecute (h : s.Inv) (he : s.estate = .run .execute) (ht : tickExecute p s = .next t) : t.Inv := by
  have hx : Executing s := h.executing he
  unfold tickExecute at ht
  cases hm : s.mstep with
  | none =>
    obtain ⟨i, hi⟩ := hx.select_eq
    rw [hm, hi] at ht
    cases ht
    refine (hx.traceBefore.moved hx.good rfl s.rd (some (program i))).inv fun ms hms => ?_
    cases hms
    exact levelsOk_program _ i
  | some ms =>
    rw [hm] at ht
    cases ms with
    | nil =>
      cases ht
      exact hx.inv_finishOperation
    | cons m ms =>
      dsimp only at ht
      split at ht
      · cases ht
        exact h
      · cases hc : microTick m ms ⟨s.ps, s.rd⟩ with
        | error f =>
          rw [hc] at ht
          cases ht
          exact inv_raiseFault hx.toSound f
        | ok d =>
          obtain ⟨c, left⟩ := d
          obtain ⟨hgood, hleft⟩ := microTick_good (c := ⟨s.ps, s.rd⟩) hx.good (h.mstepLevels he _ hm) hc
          obtain ⟨-, -, -, hrange⟩ := microTick_onward hc
          rw [hc] at ht
          cases ht
          refine (hx.moved hgood hrange c.rd (some left)).inv fun ms' hms => ?_
          cases hms
          exact hleft

theorem inv_tickWith (h : s.Inv) (ht : tickWith p s = .next t) : t.Inv := by
  by_cases hsame : p.rst = true ∨ s.estate ≠ .run .traverse ∧ s.estate ≠ .run .execute
  · rw [tickWith_eq_stepWith hsame] at ht
    exact inv_stepWith h ht
  · obtain ⟨hr, hphase⟩ := not_or.mp hsame
    replace hr : p.rst = false := by simpa using hr
    by_cases he : s.estate = .run .traverse
    · rw [tickWith_of_traverse hr he (h.finTraverse he)] at ht
      exact inv_tickTraverse h he ht
    · replace he : s.estate = .run .execute := by simpa [he] using hphase
      rw [tickWith_of_execute hr he] at ht
      exact inv_tickExecute h he ht

end

/-- Settles O26, by the two phases where a tick is not a step; inside an operation `microTick_good` is the point. -/
theorem tickKeepsTheInvariant : Obligations.TickKeepsTheInvariant :=
  fun _ _ h ht => inv_tickWith (inv_popPins h) ht

end Sys2Proof.Machine
end

/-! ## Requests and POS -/

section
namespace Sys2Proof.Machine

/-- As many bits as a fixed-width request is wide are consumed (R38 to R40). -/
theorem readRequest_length {br : BR} {q : Request} {bs left : Bits} {v : Int}
    (h : readRequest br q bs = some (v, left)) :
    (q = .bit ∨ q = .bool → bs.length = left.length + 1) ∧ ∀ n, q = .bits n → bs.length = left.length + n := by
  have bit (hb : (readBits 1 bs).map (fun (w, rest) => ((w : Int), rest)) = some (v, left)) :
      bs.length = left.length + 1 := by
    obtain ⟨⟨w, _⟩, hw, hv⟩ := Option.map_eq_some_iff.mp hb
    cases hv
    obtain ⟨used, ⟨rfl, -⟩, hl⟩ := readBits_consumes 1 bs _ w hw
    simp [hl, Nat.add_comm]
  refine ⟨?_, ?_⟩
  · rintro (rfl | rfl)
    · exact bit h
    · exact bit h
  · rintro n rfl
    obtain ⟨⟨w, _⟩, hw, hv⟩ := Option.map_eq_some_iff.mp h
    cases hv
    obtain ⟨used, ⟨rfl, -⟩, hl⟩ := readFixed_consumes br.order n bs _ w hw
    simp [hl, Nat.add_comm]

/-- The bits that a request consumes, where the bits at another reader's POS begin with them too, decide what the other
reader's request gives. -/
theorem Reader.request_of_take {q : Request} {r r' : Reader} {v : Int} {used : Bits}
    (hread : ∀ other, readRequest r.br q (used ++ other) = some (v, other)) (hbr : r'.br = r.br)
    (htake : r'.rest.take used.length = used) : r'.request q = some (v, r'.advance used.length) := by
  have hsplit : r'.rest = used ++ r'.rest.drop used.length := by
    conv_lhs => rw [← List.take_append_drop used.length r'.rest, htake]
  exact r'.request_of_rest q used _ v hsplit (hbr ▸ hread _)

/-- Settles O9: the bits consumed are the `used` of `Reader.request_spec`. -/
theorem requestsConsumeExactlyTheirBits : Obligations.RequestsConsumeExactlyTheirBits := by
  intro q r r' v h
  obtain ⟨used, hrest, hadv, hread, hsome⟩ := Reader.request_spec q r r' v h
  have hlen := readRequest_length (hread [])
  refine ⟨Reader.request_stream _ _ _ _ h, Reader.request_br _ _ _ _ h, used.length, by rw [hadv, Reader.advance_pos],
    by simp [hrest], fun hq => by simpa using hlen.1 hq, fun n hq => by simpa using hlen.2 n hq, fun hbr hq => ?_,
    fun other hbr htake => ?_⟩
  · have hbits : q ≠ .bits 0 := by
      rintro rfl
      simp at hq
    exact List.length_pos_iff.mpr (hsome (hbr ▸ reference_readsSome q hbits))
  · exact Reader.request_of_take hread hbr (by rw [htake, hrest, List.take_left])

end Sys2Proof.Machine
end

/-! ## CUR and FIN -/

section
namespace Sys2Proof.Machine

/-! ### What the shared operations do to CUR and FIN -/

/-- From `c` to `c'` CUR has moved by `k`, and FIN is as it was. -/
def Moves (k : Int) (c c' : OpCtx) : Prop := (c'.ps.cur : Int) = c.ps.cur + k ∧ c'.ps.fin = c.ps.fin

theorem Moves.refl (c : OpCtx) : Moves 0 c c := ⟨(Int.add_zero _).symm, rfl⟩

theorem Moves.trans {j k : Int} {a b c : OpCtx} (h : Moves j a b) (h' : Moves k b c) : Moves (j + k) a c :=
  ⟨by rw [h'.1, h.1, Int.add_assoc], h'.2.trans h.2⟩

section
variable {c c' : OpCtx}

theorem addSeg_moves {i : Nat} {e : Expr} (h : addSeg i e c = .ok c') : Moves 0 c c' := by
  obtain ⟨v, rd, -, -, rfl⟩ := addSeg_ok_iff.mp h
  exact ⟨by simp, rfl⟩

theorem push_moves {e : Expr} (h : push e c = .ok c') : Moves 1 c c' := by
  obtain ⟨-, v, rd, -, -, rfl⟩ := push_ok_iff.mp h
  exact ⟨by simp, rfl⟩

theorem pushTimes_moves {e : Expr} : ∀ (n : Nat) {c : OpCtx}, pushTimes n e c = .ok c' → Moves n c c'
  | 0, c, h => by
    cases h
    exact .refl _
  | n + 1, c, h => by
    simp only [pushTimes] at h
    split at h
    · cases h
    · rename_i d hd
      rw [Nat.cast_succ, Int.add_comm]
      exact (push_moves hd).trans (pushTimes_moves n h)

theorem pop_moves {n : Nat} (h : pop n c = .ok c') : Moves (-n) c c' := by
  obtain ⟨hn, rfl⟩ := pop_ok_iff.mp h
  exact ⟨by rw [popped_cur]; omega, rfl⟩

theorem popRead_moves {q : Request} (h : popRead q c = .ok c') : ∃ n : Nat, Moves (-n) c c' := by
  obtain ⟨n, rd, -, hn, rfl⟩ := popRead_ok_iff.mp h
  exact ⟨n.toNat, by rw [popped_cur]; omega, rfl⟩

/-- The count decides how many levels more there are; the increment moves no level. -/
theorem countPush_moves {inc : Option Expr} {e : Expr} (h : runMicro (.countPush inc e) c = .ok c') :
    ∃ n : Nat, Moves n c c' := by
  simp only [runMicro, countPush] at h
  split at h
  · cases h
  · rename_i n rd _
    refine ⟨n.toNat, ?_⟩
    have count : Moves 0 c { c with rd := rd } := ⟨by simp, rfl⟩
    rw [← Int.zero_add (n.toNat : Int)]
    split at h
    · exact count.trans (pushTimes_moves _ h)
    · split at h
      · cases h
      · rename_i d hd
        exact (count.trans (addSeg_moves hd)).trans (pushTimes_moves _ h)

theorem guardLevels_moves {e : Expr} : ∀ (k i : Nat) {c : OpCtx}, guardLevels k i e c = .ok c' → Moves 0 c c'
  | 0, i, c, h => by
    cases h
    exact .refl _
  | k + 1, i, c, h => by
    simp only [guardLevels] at h
    split at h
    · cases h
    · rename_i g rd _
      have guard : Moves 0 c { c with rd := rd } := ⟨by simp, rfl⟩
      split at h
      · split at h
        · cases h
        · rename_i d hd
          exact (guard.trans (addSeg_moves hd)).trans (guardLevels_moves k (i + 1) h)
      · exact guard.trans (guardLevels_moves k (i + 1) h)

end

/-! ### Micro-steps that move CUR by a fixed amount -/

/-- By how much a micro-step moves CUR, where its operands and CUR do not matter and FIN stays. -/
def fixedMove : Micro → Option Int
  | .addTop _ => some 0
  | .addRoot _ => some 0
  | .addPenultimate => some 0
  | .enter => some 1
  | .setTop _ => some 0
  | .pop n => some (-n)
  | .popAll => none
  | .popRead _ => none
  | .countPush _ _ => none
  | .pushes n _ => some n
  | .guardLoop _ => some 0
  | .guardsLeft _ _ _ => some 0
  | .addLevel _ _ => some 0
  | .setFin => none

/-- By how much a list of such micro-steps moves CUR. -/
def fixedMoves : List Micro → Option Int
  | [] => some 0
  | m :: ms => (fixedMove m).bind fun j => (fixedMoves ms).map (j + ·)

theorem runMicro_moves {m : Micro} {k : Int} {c c' : OpCtx} (hk : fixedMove m = some k) (h : runMicro m c = .ok c') :
    Moves k c c' := by
  cases m with
  | addTop e => cases hk; exact addSeg_moves h
  | addRoot e => cases hk; exact addSeg_moves h
  | addPenultimate =>
    cases hk
    obtain ⟨-, -, rfl⟩ := addPenultimate_ok_iff.mp h
    exact ⟨by simp, rfl⟩
  | enter =>
    cases hk
    obtain ⟨-, rfl⟩ := enter_ok_iff.mp h
    exact ⟨by simp, rfl⟩
  | setTop e =>
    cases hk
    obtain ⟨v, rd, -, -, rfl⟩ := setTop_ok_iff.mp h
    exact ⟨by simp, rfl⟩
  | pop n => cases hk; exact pop_moves h
  | popAll => cases hk
  | popRead q => cases hk
  | countPush inc e => cases hk
  | pushes n e => cases hk; exact pushTimes_moves n h
  | guardLoop e => cases hk; exact guardLevels_moves _ _ h
  | guardsLeft k i e => cases hk; exact guardLevels_moves _ _ h
  | addLevel i e => cases hk; exact addSeg_moves h
  | setFin => cases hk

theorem runMicros_cons_ok_iff {m : Micro} {ms : List Micro} {c c' : OpCtx} :
    runMicros (m :: ms) c = .ok c' ↔ ∃ d, runMicro m c = .ok d ∧ runMicros ms d = .ok c' := by
  simp only [runMicros]
  cases runMicro m c <;> simp

theorem runMicros_moves : ∀ {ms : List Micro} {k : Int} {c c' : OpCtx}, fixedMoves ms = some k →
    runMicros ms c = .ok c' → Moves k c c'
  | [], k, c, c', hk, h => by
    cases hk
    cases h
    exact .refl c
  | m :: ms, k, c, c', hk, h => by
    obtain ⟨i, hi, j, hj, rfl⟩ : ∃ i, fixedMove m = some i ∧ ∃ j, fixedMoves ms = some j ∧ i + j = k := by
      simpa [fixedMoves, Option.bind_eq_some_iff] using hk
    obtain ⟨d, hd, hms⟩ := runMicros_cons_ok_iff.mp h
    exact (runMicro_moves hi hd).trans (runMicros_moves hj hms)

/-! ### CUR and FIN, by the form of the pseudocode -/

/-- The operations that pop every level but SEG[0] (R136 to R139). -/
def popAllOps : List Instr :=
  [.popAllButOnePlusOne, .popAllButOnePlusN, .popAllButOnePlusNPack3Bits, .popAllButOnePlusNPack6Bits]

/-- The operations that pop a count of levels (R140 to R142). -/
def popReadOps : List Instr := [.popNPlusOne, .popNPlusN, .popNAndNonTopographical]

theorem program_of_popAll : ∀ i ∈ popAllOps,
    program i = .popAll :: (program i).tail ∧ fixedMoves (program i).tail = some 0 := by
  decide

theorem program_of_popRead : ∀ i ∈ popReadOps,
    program i = .popRead .ubvfp :: (program i).tail ∧ fixedMoves (program i).tail = some 0 := by
  decide

section
variable {i : Instr} {c c' : OpCtx}

theorem moves_of_popAll (hi : i ∈ popAllOps) (h : runMicros (program i) c = .ok c') : Moves (-c.ps.cur) c c' := by
  obtain ⟨hp, htail⟩ := program_of_popAll i hi
  rw [hp] at h
  obtain ⟨d, hd, h⟩ := runMicros_cons_ok_iff.mp h
  simpa using (pop_moves hd).trans (runMicros_moves htail h)

theorem moves_of_popRead (hi : i ∈ popReadOps) (h : runMicros (program i) c = .ok c') :
    ∃ n : Nat, Moves (-n) c c' := by
  obtain ⟨hp, htail⟩ := program_of_popRead i hi
  rw [hp] at h
  obtain ⟨d, hd, h⟩ := runMicros_cons_ok_iff.mp h
  obtain ⟨n, hn⟩ := popRead_moves hd
  exact ⟨n, by simpa using hn.trans (runMicros_moves htail h)⟩

/-- The counted pushes: the guard loop before them, if any, moves CUR nowhere (R130, R131). -/
theorem moves_of_countPush (hi : i = .pushN ∨ i = .pushNAndNonTopological) (h : runMicros (program i) c = .ok c') :
    ∃ n : Nat, Moves n c c' := by
  rcases hi with rfl | rfl
  · exact countPush_moves ((runMicros_singleton _ c).symm.trans h)
  · obtain ⟨d, hd, h⟩ := runMicros_cons_ok_iff.mp h
    obtain ⟨n, hn⟩ := countPush_moves ((runMicros_singleton _ d).symm.trans h)
    exact ⟨n, by simpa using (guardLevels_moves _ _ hd).trans hn⟩

/-- Only the terminal operation sets FIN, and none clears it (R21). -/
theorem fin_of_program (h : runMicros (program i) c = .ok c') :
    c'.ps.fin = (c.ps.fin || decide (i = .fieldPathEncodeFinish)) := by
  by_cases hfinish : i = .fieldPathEncodeFinish
  · subst hfinish
    cases h
    simp
  · have hform : (fixedMoves (program i)).isSome = true ∨ (i = .pushN ∨ i = .pushNAndNonTopological) ∨
        i ∈ popAllOps ∨ i ∈ popReadOps := by
      revert hfinish
      cases i <;> decide
    rw [decide_eq_false hfinish, Bool.or_false]
    rcases hform with hfixed | hpush | hall | hread
    · obtain ⟨k, hk⟩ := Option.isSome_iff_exists.mp hfixed
      exact (runMicros_moves hk h).2
    · obtain ⟨n, hn⟩ := moves_of_countPush hpush h
      exact hn.2
    · exact (moves_of_popAll hall h).2
    · obtain ⟨n, hn⟩ := moves_of_popRead hread h
      exact hn.2

end

/-- What an operation that does not fault leaves of the path state is what its micro-steps leave. -/
theorem exec_completed {i : Instr} {s t : State} (h : exec i s = .next t) (ht : t.estate ≠ .fault) :
    ∃ c c', runMicros (program i) c = .ok c' ∧ c.ps = s.ps ∧ c'.ps = t.ps := by
  rw [exec_eq_runOperation] at h
  obtain ⟨c', hc, rfl⟩ | ⟨f, -, rfl⟩ := resume_cases h
  · exact ⟨_, c', hc, rfl, rfl⟩
  · exact absurd rfl ht

/-- An operation whose micro-steps all move CUR by a fixed amount moves it by their sum. -/
theorem cur_of_fixedMoves {i : Instr} {k : Int} {c c' : OpCtx} (hk : fixedMoves (program i) = some k)
    (h : runMicros (program i) c = .ok c') : (c'.ps.cur : Int) = c.ps.cur + k :=
  (runMicros_moves hk h).1

/-- Settles O35, by the sum of the moves that each operation's pseudocode makes. -/
theorem onlyPushesAndPopsMoveTheCursor : Obligations.OnlyPushesAndPopsMoveTheCursor := by
  intro i s t h ht
  obtain ⟨c, c', hc, hs, ht⟩ := exec_completed h ht
  rw [← hs, ← ht]
  refine ⟨fin_of_program hc, fun hi => ?_, fun hi => ?_, fun hi => ?_, fun hi => ?_, fun hi => ?_, fun hi => ?_,
    fun hi => ?_, fun hi => ?_⟩
  · by_cases hfinish : i = .fieldPathEncodeFinish
    · subst hfinish
      cases hc
      rfl
    · have hk : fixedMoves (program i) = some 0 := by
        revert hi hfinish
        cases i <;> decide
      have := cur_of_fixedMoves hk hc
      omega
  · have hk : fixedMoves (program i) = some 1 := by fin_cases hi <;> rfl
    have := cur_of_fixedMoves hk hc
    omega
  · have hk : fixedMoves (program i) = some 2 := by fin_cases hi <;> rfl
    have := cur_of_fixedMoves hk hc
    omega
  · have hk : fixedMoves (program i) = some 3 := by fin_cases hi <;> rfl
    have := cur_of_fixedMoves hk hc
    omega
  · obtain ⟨n, hcur, -⟩ := moves_of_countPush (by simpa using hi) hc
    omega
  · have hk : fixedMoves (program i) = some (-1) := by fin_cases hi <;> rfl
    have := cur_of_fixedMoves hk hc
    omega
  · obtain ⟨hcur, -⟩ := moves_of_popAll hi hc
    omega
  · obtain ⟨n, hcur, -⟩ := moves_of_popRead hi hc
    omega

end Sys2Proof.Machine
end

/-! ## The ports -/

section
namespace Sys2Proof.Machine

/-- The fields of a word laid out as STATUS is. -/
theorem statusWord_fields (code : BitVec 3) (faulted done busy : Bool) :
    let w := (0 : BitVec 26) ++ code ++ BitVec.ofBool faulted ++ BitVec.ofBool done ++ BitVec.ofBool busy
    w.getLsbD 0 = busy ∧ w.getLsbD 1 = done ∧ w.getLsbD 2 = faulted ∧ w.extractLsb' 3 3 = code ∧
      w.extractLsb' 6 26 = 0 := by
  dsimp only
  refine ⟨?_, ?_, ?_, ?_, ?_⟩
  · simp only [BitVec.getLsbD_append]
    simp
  · simp only [BitVec.getLsbD_append]
    simp
  · simp only [BitVec.getLsbD_append]
    simp
  · ext j hj
    simp only [BitVec.getElem_extractLsb', BitVec.getLsbD_append]
    simp [show ¬3 + j < 1 by omega, hj]
  · ext j hj
    simp only [BitVec.getElem_extractLsb', BitVec.getLsbD_append]
    simp

/-- Settles O18: STATUS by its layout, the other ports by the cases of their definitions. -/
theorem portsShowTheControlState : Obligations.PortsShowTheControlState := by
  refine ⟨⟨rfl, rfl, rfl, rfl, rfl, rfl⟩, fun s => ?_⟩
  obtain ⟨hbusy, hdone, hfaulted, hcode, hzero⟩ := statusWord_fields s.fkind.code s.faulted s.doneBit s.busy
  refine ⟨hbusy, hdone, hfaulted, hcode, hzero, State.busy_iff, by simp [State.doneBit], by simp [State.faulted],
    fun hout => ?_, by simp [State.snapValid], fun hcur => ?_, fun i => ⟨fun hi => ?_, fun hi => ?_⟩⟩
  · rw [State.outcount, if_pos hout, BitVec.toNat_ofNat, Nat.mod_eq_of_lt hout]
  · rw [State.snapDepth, BitVec.toNat_ofNat, Nat.mod_eq_of_lt (by omega)]
  · exact if_pos hi
  · exact if_neg (by omega)

end Sys2Proof.Machine
end

/-! # 20_memory.md

The fields that the reader's requests read (R40 to R46, R66), OUT (R55, R84), and the requests that find too few bits
(R37, R150). -/

/-! ## Fields -/

section
namespace Sys2Proof.Machine

/-- Settles O10: `fieldAdmits` is these ranges, and every answered request meets it. -/
theorem requestValuesAreInRange : Obligations.RequestValuesAreInRange := by
  intro q r r' v h
  have hadmits := Reader.request_admits q r r' v h
  cases q <;> simpa [fieldAdmits] using hadmits

/-! ### The reference layouts read what the encoders write -/

@[simp] theorem encodeBits_zero (v : Nat) : encodeBits 0 v = [] := rfl

theorem readBits_encodeBits : ∀ (n v : Nat) (rest : Bits), v < 2 ^ n →
    readBits n (encodeBits n v ++ rest) = some (v, rest)
  | 0, v, rest, h => by
    obtain rfl : v = 0 := by omega
    rfl
  | n + 1, v, rest, h => by
    have hhalf : v / 2 < 2 ^ n := by omega
    have hlow : (v % 2 == 1).toNat = v % 2 := by
      rcases Nat.mod_two_eq_zero_or_one v with h0 | h1
      · simp [h0]
      · simp [h1]
    simp only [encodeBits, List.cons_append, readBits, readBits_encodeBits n _ rest hhalf, hlow, Nat.mod_add_div]

/-- The form of UBV that bits 5:4 choose: the low four bits of the value, the selector, and the bits above (R44). -/
theorem readUBV_form {selector low width high : Nat} {rest : Bits}
    (hwidth : (selector, width) ∈ [(0, 0), (1, 4), (2, 8), (3, 28)]) (hlow : low < 16) (hhigh : high < 2 ^ width) :
    readUBV (encodeBits 6 (16 * selector + low) ++ (encodeBits width high ++ rest)) = some (high * 16 + low, rest) := by
  have hselector : selector < 4 := by fin_cases hwidth <;> decide
  have hsix : 16 * selector + low < 2 ^ 6 := by omega
  have hdiv : (16 * selector + low) / 16 = selector := by omega
  have hmod : (16 * selector + low) % 16 = low := by omega
  simp only [readUBV, readBits_encodeBits 6 _ _ hsix, hdiv, hmod]
  fin_cases hwidth <;> simp only [readBits_encodeBits _ _ rest hhigh]

theorem readUBV_encodeUBV (v : Nat) (rest : Bits) (h : v < 2 ^ 32) :
    readUBV (encodeUBV v ++ rest) = some (v, rest) := by
  have hlow : v % 16 < 16 := Nat.mod_lt v (by omega)
  have hsplit : v / 16 * 16 + v % 16 = v := Nat.div_add_mod' v 16
  unfold encodeUBV
  split
  · rename_i h16
    simpa using readUBV_form (selector := 0) (width := 0) (high := 0) (rest := rest) (by simp) h16 (by omega)
  split
  · have hhigh : v / 16 < 2 ^ 4 := by omega
    simpa [hsplit] using readUBV_form (selector := 1) (rest := rest) (by simp) hlow hhigh
  split
  · have hhigh : v / 16 < 2 ^ 8 := by omega
    simpa [hsplit] using readUBV_form (selector := 2) (rest := rest) (by simp) hlow hhigh
  · have hhigh : v / 16 < 2 ^ 28 := by omega
    simpa [hsplit] using readUBV_form (selector := 3) (rest := rest) (by simp) hlow hhigh

theorem readUBVFP_encodeUBVFP (v : Nat) (rest : Bits) (h : v < 2 ^ 31) :
    readUBVFP (encodeUBVFP v ++ rest) = some (v, rest) := by
  unfold encodeUBVFP
  split
  · exact readBits_encodeBits 2 v rest (by omega)
  split
  · exact readBits_encodeBits 4 v rest (by omega)
  split
  · exact readBits_encodeBits 10 v rest (by omega)
  split
  · exact readBits_encodeBits 17 v rest (by omega)
  · exact readBits_encodeBits 31 v rest h

/-- The loop of `ReadVarU32()` puts the encoded value in at `shift`, above what has been assembled. -/
theorem readGroups_encodeGroups : ∀ (groups shift x v : Nat) (rest : Bits), v < 128 ^ groups → x < 2 ^ shift →
    x + v * 2 ^ shift < 2 ^ 32 →
    readGroups groups shift x (encodeGroups groups v ++ rest) = some (x + v * 2 ^ shift, rest)
  | 0, shift, x, v, rest, hv, hx, hword => by
    obtain rfl : v = 0 := by omega
    simp [readGroups, encodeGroups]
  | groups + 1, shift, x, v, rest, hv, hx, hword => by
    have assembled (p : Nat) (hp : p ≤ v) : (x ||| p <<< shift) % 2 ^ 32 = x + p * 2 ^ shift := by
      have : p * 2 ^ shift ≤ v * 2 ^ shift := Nat.mul_le_mul_right _ hp
      rw [or_shiftLeft x p shift hx]
      exact Nat.mod_eq_of_lt (by omega)
    unfold encodeGroups
    split
    · rename_i hsmall
      have hmod : v % 128 = v := Nat.mod_eq_of_lt hsmall
      have hdiv : v / 128 = 0 := Nat.div_eq_of_lt hsmall
      simp only [readGroups, readBits_encodeBits 8 v rest (by omega), hmod, hdiv, if_true, assembled v (le_refl v)]
    · have hmod : (128 + v % 128) % 128 = v % 128 := by omega
      have hdiv : (128 + v % 128) / 128 ≠ 0 := by omega
      have hsum : x + v % 128 * 2 ^ shift + v / 128 * 2 ^ (shift + 7) = x + v * 2 ^ shift := by
        conv_rhs => rw [← Nat.div_add_mod' v 128]
        ring
      have hnext : x + v % 128 * 2 ^ shift < 2 ^ (shift + 7) := by
        have : (v % 128 + 1) * 2 ^ shift ≤ 128 * 2 ^ shift := Nat.mul_le_mul_right _ (by omega)
        rw [pow_add]
        linarith
      have ih := readGroups_encodeGroups groups (shift + 7) (x + v % 128 * 2 ^ shift) (v / 128) rest
        (by rw [pow_succ] at hv; omega) hnext (by rwa [hsum])
      simp only [List.append_assoc, readGroups, readBits_encodeBits 8 _ _ (by omega : 128 + v % 128 < 2 ^ 8), hmod,
        hdiv, if_false, assembled _ (Nat.mod_le v 128), ih, hsum]

theorem unzigzag_zigzag (v : Int) : unzigzag (zigzag v) = v := by
  unfold zigzag unzigzag
  split <;> split <;> omega

theorem zigzag_lt {v : Int} (hlow : -2147483648 ≤ v) (hhigh : v < 2147483648) : zigzag v < 2 ^ 32 := by
  unfold zigzag
  split <;> omega

theorem readVarS32_encodeVarS32 (v : Int) (rest : Bits) (hlow : -2147483648 ≤ v) (hhigh : v < 2147483648) :
    readVarS32 (encodeVarS32 v ++ rest) = some (v, rest) := by
  have hz := zigzag_lt hlow hhigh
  have hread : readVarU32 (encodeGroups 5 (zigzag v) ++ rest) = some (zigzag v, rest) := by
    simpa [readVarU32] using readGroups_encodeGroups 5 0 0 (zigzag v) rest (by omega) (by omega) (by omega)
  simp only [readVarS32, encodeVarS32, hread, unzigzag_zigzag]

/-- A request whose answer is a natural number. -/
theorem map_cast_of_read {o : Option (Nat × Bits)} {v : Int} {rest : Bits} (hv : 0 ≤ v)
    (h : o = some (v.toNat, rest)) : o.map (fun (w, left) => ((w : Int), left)) = some (v, rest) := by
  simp [h, Int.toNat_of_nonneg hv]

/-- Settles O7: the reference BR reads as R40 to R46 write, and each of those readers undoes its encoder. -/
theorem fieldsRoundTrip : Obligations.FieldsRoundTrip := by
  intro q v rest h
  rw [readRequest_reference]
  cases q with
  | bit =>
    obtain ⟨hlow, hhigh⟩ : 0 ≤ v ∧ v < 2 := of_decide_eq_true h
    exact map_cast_of_read hlow (readBits_encodeBits 1 _ rest (by omega))
  | bool =>
    obtain ⟨hlow, hhigh⟩ : 0 ≤ v ∧ v < 2 := of_decide_eq_true h
    exact map_cast_of_read hlow (readBits_encodeBits 1 _ rest (by omega))
  | bits n =>
    obtain ⟨hlow, hhigh⟩ : 0 ≤ v ∧ v < 2 ^ n := of_decide_eq_true h
    exact map_cast_of_read hlow (readBits_encodeBits n _ rest ((Int.toNat_lt hlow).mpr (by exact_mod_cast hhigh)))
  | ubv =>
    obtain ⟨hlow, hhigh⟩ : 0 ≤ v ∧ v < 4294967296 := of_decide_eq_true h
    exact map_cast_of_read hlow (readUBV_encodeUBV _ rest (by omega))
  | ubvfp =>
    obtain ⟨hlow, hhigh⟩ : 0 ≤ v ∧ v < 2147483648 := of_decide_eq_true h
    exact map_cast_of_read hlow (readUBVFP_encodeUBVFP _ rest (by omega))
  | varS32 =>
    obtain ⟨hlow, hhigh⟩ : -2147483648 ≤ v ∧ v < 2147483648 := of_decide_eq_true h
    exact readVarS32_encodeVarS32 v rest hlow hhigh

end Sys2Proof.Machine
end

/-! ## OUT -/

section
namespace Sys2Proof.Machine

/-! ### What is fetched and run leaves OUT as it is -/

theorem out_resume {ms : List Micro} {s t : State} (h : resume ms s = .next t) : t.out = s.out := by
  obtain ⟨c, -, rfl⟩ | ⟨f, -, rfl⟩ := resume_cases h
  · rfl
  · rfl

theorem out_resumeUnasked {ms : List Micro} {s t : State} (h : resumeUnasked ms s = .next t) : t.out = s.out := by
  obtain ⟨c, hu, -⟩ | ⟨f, hu, -⟩ | ⟨ps, m, left, -, hu, -⟩ := resumeUnasked_cases ms s
  all_goals
    rw [hu] at h
    cases h
    rfl

/-- The selection runs the chosen operation, or takes UnknownSymbol (R80, R81). -/
theorem select_cases (s : State) :
    (∃ i, select s = .run i s) ∨ select s = .raise (.unknownSymbol s.opidx) s := by
  unfold select
  cases s.rom.kindOf s.opidx with
  | none => exact .inr rfl
  | some i => exact .inl ⟨i, rfl⟩

theorem out_runSelected {s t : State} (h : runFetched (select s) = .next t) : t.out = s.out := by
  obtain ⟨i, hi⟩ | hf := select_cases s
  · rw [hi, runFetched, exec_eq_runOperation] at h
    exact (out_resume h).trans (traceBefore_out s)
  · rw [hf] at h
    cases h
    rfl

theorem out_runFetched {s t : State} (h : runFetched (fetch s) = .next t) : t.out = s.out := by
  unfold fetch at h
  split at h
  · cases h
    rfl
  · cases h
  · exact (out_runSelected h).trans (atLeaf_out s _ _)

theorem out_executeUnanswered {s t : State} (h : executeUnanswered s = .next t) : t.out = s.out := by
  unfold executeUnanswered at h
  split at h
  · exact out_resumeUnasked h
  obtain ⟨i, hi⟩ | hf := select_cases s
  · rw [hi] at h
    exact (out_resumeUnasked h).trans (traceBefore_out s)
  · rw [hf] at h
    cases h
    rfl

theorem out_traverseUnanswered {s t : State} (h : traverseUnanswered s = .next t) : t.out = s.out := by
  unfold traverseUnanswered at h
  split at h
  · cases h
  · exact (out_executeUnanswered h).trans (atLeaf_out s _ 0)
  · cases h
    rfl

/-! ### A step, by RST, BUSY and the phases of RUN -/

theorem out_hostMoves (p : Pins) (s : State) : (hostMoves p s).out = if p.start then [] else s.out := by
  unfold hostMoves
  split <;> rfl

/-- In the phases TRAVERSE and EXECUTE OUT stays. -/
theorem out_of_traverse_or_execute {p : Pins} {s t : State} (hr : p.rst = false)
    (he : s.estate = .run .traverse ∨ s.estate = .run .execute) (h : stepWith p s = .next t) : t.out = s.out := by
  rcases he with he | he
  · simp only [stepWith, hr, he, Bool.false_eq_true, if_false] at h
    split at h
    · cases h
      rfl
    · split at h
      · exact out_runFetched h
      · exact out_traverseUnanswered h
  · cases hv : p.rdValid with
    | false =>
      rw [stepWith_of_execute_unanswered hr he hv] at h
      exact out_executeUnanswered h
    | true =>
      cases hm : s.mstep with
      | none =>
        rw [stepWith_of_selected hr he hv hm] at h
        exact out_runSelected h
      | some ms =>
        rw [stepWith_of_begun hr he hv hm] at h
        exact out_resume h

/-- Under any sample OUT stays, or gains the snapshot that phase EMIT offers, or is emptied by RST or an accepted
START. -/
theorem stepWith_out {p : Pins} {s t : State} (h : stepWith p s = .next t) :
    t.out = s.out ∨
    (s.estate = .run .emit ∧ p.snapReady = true ∧ t.out = s.out ++ [s.ps.snapshot]) ∨
    (t.out = [] ∧ (p.rst = true ∨ (p.start = true ∧ s.busy = false))) := by
  cases hr : p.rst with
  | true =>
    rw [stepWith_of_rst hr] at h
    cases h
    exact .inr (.inr ⟨rfl, .inl rfl⟩)
  | false =>
    cases hb : s.busy with
    | false =>
      rw [stepWith_of_not_busy hr hb] at h
      cases h
      rw [out_hostMoves]
      cases hs : p.start with
      | true => exact .inr (.inr ⟨rfl, .inr ⟨rfl, rfl⟩⟩)
      | false => exact .inl rfl
    | true =>
      obtain ⟨phase, he⟩ := State.busy_iff.mp hb
      cases phase with
      | traverse => exact .inl (out_of_traverse_or_execute hr (.inl he) h)
      | execute => exact .inl (out_of_traverse_or_execute hr (.inr he) h)
      | emit =>
        rw [stepWith_of_emit hr he] at h
        cases h
        unfold emitMoves
        split
        · rename_i hready
          exact .inr (.inl ⟨he, hready, rfl⟩)
        · exact .inl rfl

/-- Settles O29: a step is `stepWith` under the sample it takes, and taking the sample leaves OUT and the path state. -/
theorem outGrowsBySnapshotsInOrder : Obligations.OutGrowsBySnapshotsInOrder :=
  fun s _ h => stepWith_out (s := s.popPins) h

end Sys2Proof.Machine
end

/-! ## Requests that find too few bits -/

section
namespace Sys2Proof.Machine

/-! ### The request that a micro-step offers -/

/-- A micro-step whose request finds too few bits faults, whichever it is (R37). -/
theorem runMicro_of_exhausted {m : Micro} {q : Request} {c : OpCtx} (hm : microRequest m = some q)
    (h : c.rd.request q = none) : runMicro m c = .error .malformedStream := by
  have eval {e : Expr} (he : e.field = some q) : evalExpr e c.rd = none := by
    simp only [evalExpr, he, h]
  cases m with
  | addTop e => exact addSeg_of_exhausted (eval hm)
  | addRoot e => exact addSeg_of_exhausted (eval hm)
  | addLevel i e => exact addSeg_of_exhausted (eval hm)
  | setTop e => exact setTop_error_iff.mpr (.inl ⟨eval hm, rfl⟩)
  | popRead q' =>
    cases hm
    exact popRead_error_iff.mpr (.inl ⟨h, rfl⟩)
  | countPush increment e =>
    cases hm
    simp only [runMicro, countPush, h]
  | guardsLeft k i e =>
    cases k with
    | zero => cases hm
    | succ k =>
      cases hm
      simp only [runMicro, guardLevels, h]
  | addPenultimate => cases hm
  | enter => cases hm
  | pop n => cases hm
  | popAll => cases hm
  | pushes n e => cases hm
  | guardLoop e => cases hm
  | setFin => cases hm

/-- An operation that comes, with nothing raised before, to a micro-step whose request finds too few bits. -/
theorem exec_of_exhausted {s : State} {i : Instr} {q : Request} {m : Micro} {ms : List Micro} {c : OpCtx}
    (hrun : runMicros (program i) ⟨s.ps, s.rd⟩ = runMicros (m :: ms) c) (hm : microRequest m = some q)
    (h : c.rd.request q = none) : exec i s = .next (s.faultedBy .malformedStream) :=
  exec_of_runMicros_error (hrun.trans (runMicros_cons_error (runMicro_of_exhausted hm h)))

/-! ### Rows of pushes -/

theorem push_of_exhausted {e : Expr} {c : OpCtx} (hc : c.ps.cur ≤ 4) (h : evalExpr e c.rd = none) :
    push e c = .error .malformedStream := by
  simp only [push, enter_ok_iff.mpr ⟨hc, rfl⟩]
  exact setTop_error_iff.mpr (.inl ⟨h, rfl⟩)

/-- A row whose fields have a bias has a single push (R114 to R116). -/
theorem ReachesPushes.unbiased_or_single {s : State} {i : Instr} {q : Request} {n : Nat} {r : Reader}
    (h : ReachesPushes s i q n r) : rowBias i = 0 ∨ n = 1 := by
  cases h with
  | atOnce i q n form => fin_cases form <;> decide
  | afterOne i q n form sum => fin_cases form <;> decide
  | afterField i q0 q n d r form read sum => fin_cases form <;> decide
  | pushN => exact .inl rfl
  | pushNAndNonTopological => exact .inl rfl

theorem exec_of_exhausted_push {s : State} {i : Instr} {q : Request} {n k : Nat} {vs : List Int} {r rk : Reader}
    (row : ReachesPushes s i q n r) (more : k < n) (room : s.ps.cur + k ≤ 4)
    (read : Reader.requests q k r = some (vs, rk)) (fit : ∀ v ∈ vs, s.ps.InRange v) (h : rk.request q = none) :
    exec i s = .next (s.faultedBy .malformedStream) := by
  obtain ⟨ps, hcur, hrange, hrun⟩ := runMicros_of_reachesPushes (by omega) row
  apply exec_of_runMicros_error
  rw [hrun]
  have hroom : ps.cur + k ≤ 4 := by omega
  obtain hbias | rfl := row.unbiased_or_single
  · rw [hbias]
    exact pushTimes_of_exhausted (c := ⟨ps, r⟩) more hroom read (by simpa only [PathState.InRange, hrange] using fit) h
  · obtain rfl : k = 0 := by omega
    cases read
    rw [pushTimes, push_of_exhausted hroom (evalExpr_of_exhausted h)]

/-! ### Guard loops -/

theorem runMicro_guardLoop_of_guards {q : Request} {bias : Int} {ps : PathState} {gs : List (Option Int)}
    {r r' : Reader} (hc : ps.cur ≤ 5) (loop : Reader.guards q (ps.cur + 1) r = some (gs, r')) (sums : ps.AdjustInRange gs bias) :
    runMicro (.guardLoop (fieldPlus q bias)) ⟨ps, r⟩ = .ok ⟨ps.adjusted gs bias, r'⟩ := by
  rw [← adjFrom_zero]
  exact guardLevels_of_guards (ps.cur + 1) 0 ⟨ps, r⟩ gs r' (by omega) loop fun j x hx => by simpa using sums j x hx

/-- An operation whose guard loop has come to level j has raised nothing before it, and goes on with the guard of that
level. -/
theorem runMicros_of_loopReaches {s : State} {i : Instr} {q : Request} {bias : Int} {ps : PathState} {r rj : Reader}
    {j : Nat} (loop : ReachesGuards s i q bias ps r) (hc : s.ps.cur ≤ 5) (level : LoopReaches ps q bias r j rj) :
    ∃ ps' k ms, runMicros (program i) ⟨s.ps, s.rd⟩ =
      runMicros (.guardsLeft (k + 1) j (fieldPlus q bias) :: ms) ⟨ps', rj⟩ := by
  obtain ⟨hcur, -, ms, hrun⟩ := runMicros_of_reachesGuards loop
  obtain ⟨ps', -, -, -, hlevels⟩ := guardLevels_of_reaches (hcur.trans hc) level
  refine ⟨ps', ps.cur - j, ms, ?_⟩
  rw [hrun]
  simp only [runMicros, runMicro, hlevels]

/-- A true guard is followed by the addition of its delta. -/
theorem runMicros_of_true_guard {k j : Nat} {e : Expr} {ms : List Micro} {ps : PathState} {r rg : Reader}
    (guard : r.request .bool = some (1, rg)) :
    runMicros (.guardsLeft (k + 1) j e :: ms) ⟨ps, r⟩ =
      runMicros (.addLevel j e :: .guardsLeft k (j + 1) e :: ms) ⟨ps, rg⟩ :=
  microTick_ok (by simp only [microTick, guard, if_true])

/-! ### Every request -/

/-- The first request of micro-steps before which nothing but a pop of all levels stands. -/
def firstRequest : List Micro → Option Request
  | [] => none
  | .popAll :: ms => firstRequest ms
  | m :: _ => microRequest m

/-- The pop of all levels asks nothing and raises nothing (R136), so that request decides the fault. -/
theorem runMicros_of_firstRequest_exhausted {q : Request} {r : Reader} (h : r.request q = none) :
    ∀ {ms : List Micro} {ps : PathState}, firstRequest ms = some q → runMicros ms ⟨ps, r⟩ = .error .malformedStream
  | m :: ms, ps, hq => by
    by_cases hm : m = .popAll
    · subst hm
      have hpop : runMicro .popAll ⟨ps, r⟩ = .ok ⟨ps.popped ps.cur, r⟩ := pop_ok_iff.mpr ⟨le_refl _, rfl⟩
      rw [runMicros_cons_ok hpop]
      exact runMicros_of_firstRequest_exhausted h hq
    · have hfirst : microRequest m = some q := by simpa only [firstRequest, hm] using hq
      exact runMicros_cons_error (runMicro_of_exhausted hfirst h)

/-- Settles O58: each request is the one that a micro-step offers, to which the operation comes with nothing raised. -/
theorem exhaustedFieldsAreMalformed : Obligations.ExhaustedFieldsAreMalformed := by
  refine ⟨fun s i q form h => ?_, fun s i q n k vs r rk row more room read fit h => ?_, fun s n r count h => ?_,
    fun s gs r hc loop sums h => ?_, fun s hc h => ?_, fun s n r count fits h => ?_,
    fun s i q bias ps r j rj loop hc level => ?_⟩
  · have hfirst : firstRequest (program i) = some q := by fin_cases form <;> rfl
    exact exec_of_runMicros_error (runMicros_of_firstRequest_exhausted h hfirst)
  · exact exec_of_exhausted_push row more room read fit h
  · have hcount : microTick (.countPush (some (fieldPlus .ubv 0)) (fieldPlus .ubvfp 0)) [] ⟨s.ps, s.rd⟩ =
        .ok (⟨s.ps, r⟩, [.addTop (fieldPlus .ubv 0), .pushes n.toNat (fieldPlus .ubvfp 0)]) := by
      simp only [microTick, count]
    exact exec_of_exhausted (microTick_ok hcount) rfl h
  · exact exec_of_exhausted (runMicros_cons_ok (runMicro_guardLoop_of_guards hc loop sums)) rfl h
  · exact exec_of_exhausted (runMicros_cons_ok (runMicro_pop_one hc)) rfl h
  · exact exec_of_exhausted (runMicros_cons_ok (runMicro_popRead_of_read count fits)) rfl h
  · obtain ⟨ps', k, ms, hrun⟩ := runMicros_of_loopReaches loop hc level
    exact ⟨exec_of_exhausted hrun rfl, fun rg guard =>
      exec_of_exhausted (hrun.trans (runMicros_of_true_guard guard)) rfl⟩

end Sys2Proof.Machine
end

/-! # 30_encoding.md

The tree's construction (R57 to R64, R74), the codes (R61 to R63, R71), the table's window (R72), assembler lines (R65, R68,
R75), and a step that reads a code (40_decode_loop.md R78 to R81). -/

/-! ## The construction of the tree -/

section
namespace Sys2Proof.Machine

theorem kindOf_reference_lt {op : Nat} {i : Instr} (h : referenceRom.kindOf op = some i) : op < 40 := by
  by_contra hop
  have hnone : referenceRom.ops[op]? = none :=
    List.getElem?_eq_none (show referenceOps.length ≤ op from Nat.not_lt.mp hop)
  simp [Rom.kindOf, hnone] at h

theorem buildTree_reference : buildTree referenceParams referenceWeights = referenceTree := by
  decide +kernel

theorem pathTo_referenceTree : ∀ op < 40,
    pathTo referenceTree op 40 78 = (referenceRom.kindOf op).map encode := by
  decide

/-- Settles O2, by running the construction, and the search for each leaf. -/
theorem treeAndCodesComeFromTheWeights : Obligations.TreeAndCodesComeFromTheWeights := by
  refine ⟨buildTree_reference, rfl, rfl, by decide, fun op i h => ?_⟩
  have hpath := pathTo_referenceTree op (kindOf_reference_lt h)
  rwa [h] at hpath

/-- The internal nodes that the construction makes where the smaller id is removed first (R74). -/
def smallerFirstInternals : List TreeNode :=
  [.internal 13 14, .internal 15 16, .internal 17 18, .internal 19 20, .internal 21 22, .internal 23 24,
   .internal 25 28, .internal 33 34, .internal 35 27, .internal 40 41, .internal 42 43, .internal 44 45,
   .internal 46 47, .internal 6 48, .internal 49 50, .internal 51 52, .internal 53 54, .internal 55 56,
   .internal 57 5, .internal 58 36, .internal 38 59, .internal 30 60, .internal 12 37, .internal 31 26,
   .internal 61 10, .internal 7 62, .internal 9 63, .internal 32 3, .internal 64 65, .internal 66 67,
   .internal 2 29, .internal 68 69, .internal 8 70, .internal 4 71, .internal 72 73, .internal 1 11,
   .internal 74 75, .internal 39 76, .internal 0 77]

def smallerFirstTree : List TreeNode := (List.range 40).map .leaf ++ smallerFirstInternals

theorem buildTree_smallerIdFirst :
    buildTree ⟨1, .smallerIdFirst, .firstIsChild0⟩ referenceWeights = smallerFirstTree := by
  decide +kernel

theorem pathTo_smallerFirstTree : ∀ op < 40,
    (pathTo smallerFirstTree op 40 78 ≠ (referenceRom.kindOf op).map encode ↔
      op ∈ [6, 13, 14, 15, 16, 18, 20, 21, 22, 23, 24, 27, 28, 34, 35]) := by
  decide

/-- Settles O3: the other construction is run once, and its tree is searched for each leaf. -/
theorem otherTieBreakChangesFifteenCodes : Obligations.OtherTieBreakChangesFifteenCodes := by
  unfold Obligations.OtherTieBreakChangesFifteenCodes
  rw [buildTree_smallerIdFirst]
  refine ⟨fun op i h => ?_, rfl⟩
  have hpath := pathTo_smallerFirstTree op (kindOf_reference_lt h)
  rwa [h] at hpath

end Sys2Proof.Machine
end

/-! ## Codes -/

section
namespace Sys2Proof.Machine

open Laws

/-! ### A code decodes to its operation -/

theorem decode_encode : ∀ (i : Instr) (rest : Bits), decode (encode i ++ rest) = .ok (i, rest)
  | .plusOne => CodeDecodes.plusOne
  | .plusTwo => CodeDecodes.plusTwo
  | .plusThree => CodeDecodes.plusThree
  | .plusFour => CodeDecodes.plusFour
  | .plusN => CodeDecodes.plusN
  | .pushOneLeftDeltaZeroRightZero => CodeDecodes.pushOneLeftDeltaZeroRightZero
  | .pushOneLeftDeltaZeroRightNonZero => CodeDecodes.pushOneLeftDeltaZeroRightNonZero
  | .pushOneLeftDeltaOneRightZero => CodeDecodes.pushOneLeftDeltaOneRightZero
  | .pushOneLeftDeltaOneRightNonZero => CodeDecodes.pushOneLeftDeltaOneRightNonZero
  | .pushOneLeftDeltaNRightZero => CodeDecodes.pushOneLeftDeltaNRightZero
  | .pushOneLeftDeltaNRightNonZero => CodeDecodes.pushOneLeftDeltaNRightNonZero
  | .pushOneLeftDeltaNRightNonZeroPack6Bits => CodeDecodes.pushOneLeftDeltaNRightNonZeroPack6Bits
  | .pushOneLeftDeltaNRightNonZeroPack8Bits => CodeDecodes.pushOneLeftDeltaNRightNonZeroPack8Bits
  | .pushTwoLeftDeltaZero => CodeDecodes.pushTwoLeftDeltaZero
  | .pushTwoPack5LeftDeltaZero => CodeDecodes.pushTwoPack5LeftDeltaZero
  | .pushThreeLeftDeltaZero => CodeDecodes.pushThreeLeftDeltaZero
  | .pushThreePack5LeftDeltaZero => CodeDecodes.pushThreePack5LeftDeltaZero
  | .pushTwoLeftDeltaOne => CodeDecodes.pushTwoLeftDeltaOne
  | .pushTwoPack5LeftDeltaOne => CodeDecodes.pushTwoPack5LeftDeltaOne
  | .pushThreeLeftDeltaOne => CodeDecodes.pushThreeLeftDeltaOne
  | .pushThreePack5LeftDeltaOne => CodeDecodes.pushThreePack5LeftDeltaOne
  | .pushTwoLeftDeltaN => CodeDecodes.pushTwoLeftDeltaN
  | .pushTwoPack5LeftDeltaN => CodeDecodes.pushTwoPack5LeftDeltaN
  | .pushThreeLeftDeltaN => CodeDecodes.pushThreeLeftDeltaN
  | .pushThreePack5LeftDeltaN => CodeDecodes.pushThreePack5LeftDeltaN
  | .pushN => CodeDecodes.pushN
  | .pushNAndNonTopological => CodeDecodes.pushNAndNonTopological
  | .popOnePlusOne => CodeDecodes.popOnePlusOne
  | .popOnePlusN => CodeDecodes.popOnePlusN
  | .popAllButOnePlusOne => CodeDecodes.popAllButOnePlusOne
  | .popAllButOnePlusN => CodeDecodes.popAllButOnePlusN
  | .popAllButOnePlusNPack3Bits => CodeDecodes.popAllButOnePlusNPack3Bits
  | .popAllButOnePlusNPack6Bits => CodeDecodes.popAllButOnePlusNPack6Bits
  | .popNPlusOne => CodeDecodes.popNPlusOne
  | .popNPlusN => CodeDecodes.popNPlusN
  | .popNAndNonTopographical => CodeDecodes.popNAndNonTopographical
  | .nonTopoComplex => CodeDecodes.nonTopoComplex
  | .nonTopoPenultimatePlusOne => CodeDecodes.nonTopoPenultimatePlusOne
  | .nonTopoComplexPack4Bits => CodeDecodes.nonTopoComplexPack4Bits
  | .fieldPathEncodeFinish => CodeDecodes.fieldPathEncodeFinish

/-- Settles O1: each sample is a code followed by the bits left, but for the last two, which end inside a code. -/
theorem sampleCodesDecode : Obligations.SampleCodesDecode :=
  ⟨decode_encode .plusOne [], decode_encode .plusN [true], decode_encode .pushOneLeftDeltaZeroRightZero [],
    decode_encode .pushOneLeftDeltaNRightNonZeroPack6Bits [false], decode_encode .pushTwoPack5LeftDeltaZero [],
    decode_encode .popAllButOnePlusOne [], decode_encode .nonTopoPenultimatePlusOne [],
    decode_encode .fieldPathEncodeFinish [], rfl, rfl⟩

theorem encode_append_inj {i j : Instr} {r s : Bits} (h : encode i ++ r = encode j ++ s) : i = j ∧ r = s := by
  have hdecode := decode_encode i r
  rw [h, decode_encode] at hdecode
  cases hdecode
  exact ⟨rfl, rfl⟩

/-! ### Every walk reads a code -/

section
variable {tree : List TreeNode} {id op c0 c1 : Nat}

theorem walk_of_leaf (h : tree[id]? = some (.leaf op)) (n : Nat) (bs : Bits) : walk tree id n bs = .leaf op n := by
  cases bs <;> simp [walk, h]

theorem walk_nil_of_internal (h : tree[id]? = some (.internal c0 c1)) (n : Nat) :
    walk tree id n [] = .exhausted := by
  simp [walk, h]

theorem walk_cons_of_internal (h : tree[id]? = some (.internal c0 c1)) (n : Nat) (b : Bool) (bs : Bits) :
    walk tree id n (b :: bs) = walk tree (childOn b c0 c1) (n + 1) bs := by
  simp [walk, h]

end

/-- Whether every walk on from node `id`, to which the bits `path` lead, is at a leaf after fewer than `levels` more bits,
and the leaf's operation has the whole way there as its code. -/
def spellsCodes (rom : Rom) : Nat → Nat → Bits → Bool
  | 0, _, _ => false
  | levels + 1, id, path =>
    match rom.tree[id]? with
    | none => false
    | some (.leaf op) => (rom.kindOf op).any (encode · == path)
    | some (.internal c0 c1) =>
      spellsCodes rom levels c0 (path ++ [false]) && spellsCodes rom levels c1 (path ++ [true])

theorem spellsCodes_reference : spellsCodes referenceRom 18 referenceRom.root [] = true := by decide

section
variable {rom : Rom} {levels id : Nat} {path : Bits}

theorem spellsCodes_succ_iff : spellsCodes rom (levels + 1) id path = true ↔
    (∃ op i, rom.tree[id]? = some (.leaf op) ∧ rom.kindOf op = some i ∧ encode i = path) ∨
    (∃ c0 c1, rom.tree[id]? = some (.internal c0 c1) ∧
      ∀ b, spellsCodes rom levels (childOn b c0 c1) (path ++ [b]) = true) := by
  rw [spellsCodes]
  cases rom.tree[id]? with
  | none => simp
  | some node =>
    cases node with
    | leaf op => simp [Option.any_eq_true]
    | internal c0 c1 => simp [childOn]

/-- A walk from a node that spells its codes reads one of them, or runs out of bits before the levels end. -/
theorem walk_of_spellsCodes (h : spellsCodes rom levels id path = true) (bs : Bits) (n : Nat) :
    (∃ op i p rest, walk rom.tree id n bs = .leaf op (n + p.length) ∧ rom.kindOf op = some i ∧
      encode i = path ++ p ∧ bs = p ++ rest) ∨
    (walk rom.tree id n bs = .exhausted ∧ bs.length + 1 < levels) := by
  induction levels generalizing id path bs n with
  | zero => cases h
  | succ levels ih =>
    obtain ⟨op, i, hleaf, hi, hcode⟩ | ⟨c0, c1, hnode, hchild⟩ := spellsCodes_succ_iff.mp h
    · exact .inl ⟨op, i, [], bs, walk_of_leaf hleaf n bs, hi, by simpa using hcode, rfl⟩
    · cases bs with
      | nil =>
        have hlevels : levels ≠ 0 := by
          rintro rfl
          cases hchild true
        exact .inr ⟨walk_nil_of_internal hnode n, Nat.succ_lt_succ (Nat.pos_of_ne_zero hlevels)⟩
      | cons b bs =>
        rw [walk_cons_of_internal hnode]
        obtain ⟨op, i, p, rest, hwalk, hi, hcode, rfl⟩ | ⟨hwalk, hshort⟩ := ih (hchild b) bs (n + 1)
        · have hcount : n + 1 + p.length = n + (b :: p).length := by
            rw [List.length_cons]
            omega
          exact .inl ⟨op, i, b :: p, rest, hcount ▸ hwalk, hi, by simpa using hcode, rfl⟩
        · exact .inr ⟨hwalk, by simpa using hshort⟩

end

/-- Every bit string starts with a code, whose leaf the walk ends at, or ends inside one (R62, R71). -/
theorem walk_reference_cases (bs : Bits) :
    (∃ op i rest, walk referenceRom.tree referenceRom.root 0 bs = .leaf op (encode i).length ∧
      referenceRom.kindOf op = some i ∧ bs = encode i ++ rest) ∨
    (walk referenceRom.tree referenceRom.root 0 bs = .exhausted ∧ bs.length < 17) := by
  obtain ⟨op, i, p, rest, hw, hi, hcode, hbs⟩ | ⟨hw, hlen⟩ := walk_of_spellsCodes spellsCodes_reference bs 0
  · obtain rfl : encode i = p := hcode
    exact .inl ⟨op, i, rest, by simpa using hw, hi, hbs⟩
  · exact .inr ⟨hw, by omega⟩

theorem walk_encode (i : Instr) (rest : Bits) : ∃ op, referenceRom.kindOf op = some i ∧
    walk referenceRom.tree referenceRom.root 0 (encode i ++ rest) = .leaf op (encode i).length := by
  obtain ⟨op, j, left, hwalk, hkind, hbs⟩ | ⟨hwalk, -⟩ := walk_reference_cases (encode i ++ rest)
  · obtain ⟨rfl, -⟩ := encode_append_inj hbs
    exact ⟨op, hkind, hwalk⟩
  · have hdecode := decode_encode i rest
    simp [decode, decodeIn, hwalk] at hdecode

/-- Settles O4: a string that starts with a code decodes to its operation alone, and one that starts with none ends inside
one. -/
theorem decodeReadsExactlyTheCode : Obligations.DecodeReadsExactlyTheCode := by
  intro i bs rest
  constructor
  · intro h
    obtain ⟨-, j, left, -, -, rfl⟩ | ⟨hwalk, -⟩ := walk_reference_cases bs
    · rw [decode_encode] at h
      cases h
      rfl
    · simp [decode, decodeIn, hwalk] at h
  · rintro rfl
    exact decode_encode i rest

/-- Settles O5: two codes that a string starts with both decode it; the walk finds one within 17 bits. -/
theorem codesArePrefixFreeAndComplete : Obligations.CodesArePrefixFreeAndComplete := by
  refine ⟨fun i j ⟨rest, h⟩ => ?_, fun bs hlength => ?_, rfl⟩
  · exact (encode_append_inj (h.trans (List.append_nil _).symm)).1
  · obtain ⟨-, i, rest, -, -, rfl⟩ | ⟨-, hshort⟩ := walk_reference_cases bs
    · exact ⟨i, ⟨rest, rfl⟩, fun j ⟨left, hj⟩ => (encode_append_inj hj).1⟩
    · omega

end Sys2Proof.Machine
end

/-! ## The table's window -/

section
namespace Sys2Proof.Machine

/-! ### Codes as numerals -/

theorem code_succ (n w : Nat) : code (n + 1) w = code n (w / 2) ++ [w % 2 == 1] := by
  simp [code, encodeBits]

@[simp] theorem code_length (n w : Nat) : (code n w).length = n := by
  induction n generalizing w with
  | zero => rfl
  | succ n ih => simp [code_succ, ih]

theorem code_add (n k w : Nat) : code (n + k) w = code n (w / 2 ^ k) ++ code k w := by
  induction k generalizing w with
  | zero => simp [code]
  | succ k ih =>
    rw [← Nat.add_assoc, code_succ, ih, code_succ k, List.append_assoc, Nat.div_div_eq_div_mul, ← Nat.pow_succ']

/-- The number that a bit string, most significant bit first, is the binary numeral of. -/
def numeral (bs : Bits) : Nat := bs.foldl (fun acc b => 2 * acc + b.toNat) 0

theorem numeral_append_singleton (bs : Bits) (b : Bool) : numeral (bs ++ [b]) = 2 * numeral bs + b.toNat := by
  simp [numeral]

theorem numeral_code {n w : Nat} (h : w < 2 ^ n) : numeral (code n w) = w := by
  induction n generalizing w with
  | zero =>
    obtain rfl : w = 0 := by omega
    rfl
  | succ n ih =>
    rw [code_succ, numeral_append_singleton, ih (by omega)]
    have : (w % 2 == 1).toNat = w % 2 := by
      rcases Nat.mod_two_eq_zero_or_one w with h0 | h1
      · simp [h0]
      · simp [h1]
    omega

theorem code_numeral (bs : Bits) : code bs.length (numeral bs) = bs := by
  induction bs using List.reverseRecOn with
  | nil => rfl
  | append_singleton bs b ih =>
    have hhalf : (2 * numeral bs + b.toNat) / 2 = numeral bs := by
      have := b.toNat_lt
      omega
    have hlast : ((2 * numeral bs + b.toNat) % 2 == 1) = b := by cases b <;> simp
    rw [List.length_append, List.length_singleton, code_succ, numeral_append_singleton, hhalf, hlast, ih]

theorem prefix_code_iff {bs rest : Bits} {k w : Nat} (h : w < 2 ^ (bs.length + k)) :
    bs <+: code (bs.length + k) w ++ rest ↔ w / 2 ^ k = numeral bs := by
  have hhigh : w / 2 ^ k < 2 ^ bs.length := by
    rw [Nat.div_lt_iff_lt_mul (by positivity), ← Nat.pow_add]
    exact h
  have htake : (code bs.length (w / 2 ^ k) ++ (code k w ++ rest)).take bs.length = code bs.length (w / 2 ^ k) :=
    List.take_left' (code_length _ _)
  rw [code_add, List.append_assoc, List.prefix_iff_eq_take, htake]
  constructor
  · intro hbs
    rw [← numeral_code hhigh, ← hbs]
  · intro hnumeral
    rw [hnumeral, code_numeral]

/-- A mask of the high `n` of `n + k` bits clears the low `k`. -/
theorem and_high_mask {n k w : Nat} (h : w < 2 ^ (n + k)) : w &&& ((1 <<< n - 1) <<< k) = (w / 2 ^ k) <<< k := by
  refine Nat.eq_of_testBit_eq fun j => ?_
  rw [Nat.one_shiftLeft, Nat.testBit_and, Nat.testBit_shiftLeft, Nat.testBit_two_pow_sub_one, Nat.testBit_shiftLeft,
    Nat.testBit_div_two_pow]
  by_cases hlow : j < k
  · simp [show ¬k ≤ j by omega]
  by_cases hhigh : j < n + k
  · simp [show k ≤ j by omega, show j - k < n by omega]
  · have hbit : w.testBit j = false :=
      Nat.testBit_lt_two_pow (h.trans_le (Nat.pow_le_pow_right (by decide) (Nat.not_lt.mp hhigh)))
    simp [hbit, show j - k + k = j by omega]

/-! ### The window -/

theorem decodeTableWord_eq_some_iff {nbits w : Nat} {i : Instr} :
    decodeTableWord nbits w = some i ↔ encode i <+: windowBits nbits w := by
  have hdecode : decodeTableWord nbits w = some i ↔ ∃ rest, decode (windowBits nbits w) = .ok (i, rest) := by
    unfold decodeTableWord
    cases decode (windowBits nbits w) with
    | error e => simp
    | ok r => simp [Prod.ext_iff]
  simp only [hdecode, decodeReadsExactlyTheCode i, List.IsPrefix, eq_comm]

theorem encode_length_le (i : Instr) : (encode i).length ≤ 17 := by
  cases i <;> decide

/-- Settles O6: the window starts with the code exactly when its high bits, which the mask selects, are the code's
numeral. -/
theorem windowSelectsByMaskAndMatch : Obligations.WindowSelectsByMaskAndMatch := by
  intro i w h
  obtain ⟨k, hk⟩ := Nat.exists_eq_add_of_le (encode_length_le i)
  have hw : w < 2 ^ ((encode i).length + k) := hk ▸ h
  have hwindow : windowBits 24 w = code ((encode i).length + k) w ++ List.replicate (longestOperation - 17) false := by
    rw [windowBits, ← hk, Nat.mod_eq_of_lt (h.trans (by decide))]
  dsimp only
  rw [decodeTableWord_eq_some_iff, hwindow, prefix_code_iff hw, show 17 - (encode i).length = k by omega,
    and_high_mask hw, Nat.shiftLeft_eq, Nat.shiftLeft_eq, Nat.mul_left_inj (by positivity)]
  rfl

end Sys2Proof.Machine
end

/-! ## Lines -/

section
namespace Sys2Proof.Machine

theorem readValues_encode {q : Request} (rest : Bits) : ∀ vs : List Int, vs.all (fieldAdmits q) = true →
    readValues .reference q vs.length (vs.flatMap (encodeRequest q) ++ rest) = some (vs, rest)
  | [], _ => rfl
  | v :: vs, h => by
    obtain ⟨hv, hvs⟩ : fieldAdmits q v = true ∧ vs.all (fieldAdmits q) = true := by simpa using h
    simp only [List.length_cons, List.flatMap_cons, List.append_assoc, readValues, fieldsRoundTrip q v _ hv,
      readValues_encode rest vs hvs]

theorem readGuards_encode {q : Request} (rest : Bits) : ∀ gs : List (Option Int),
    gs.all (fun g => g.all (fieldAdmits q)) = true →
    readGuards .reference q gs.length (gs.flatMap (encodeGuard q) ++ rest) = some (gs, rest)
  | [], _ => rfl
  | none :: gs, h => by
    have hgs : gs.all (fun g => g.all (fieldAdmits q)) = true := by simpa using h
    simp only [List.length_cons, List.flatMap_cons, encodeGuard, List.cons_append, List.nil_append, readGuards,
      readGuards_encode rest gs hgs]
  | some v :: gs, h => by
    obtain ⟨hv, hgs⟩ : fieldAdmits q v = true ∧ gs.all (fun g => g.all (fieldAdmits q)) = true := by simpa using h
    simp only [List.length_cons, List.flatMap_cons, encodeGuard, List.cons_append, List.append_assoc, readGuards,
      fieldsRoundTrip q v _ hv, readGuards_encode rest gs hgs]

/-- Along the slots the decoder keeps the same levels and the same count as well-formedness does (R68). -/
theorem decodeOperands_encodeOperands (rest : Bits) (slots : List Slot) (os : List Operand) (levels count : Nat)
    (h : operandsWf slots os levels count = true) :
    decodeOperands .reference slots levels count (encodeOperands slots os ++ rest) = .ok (os, rest) := by
  fun_induction operandsWf slots os levels count with
  | case1 levels count => rfl
  | case2 q slots v os levels count ih | case3 q slots v os levels count ih | case4 q slots v os levels count ih =>
    obtain ⟨hv, hos⟩ := Bool.and_eq_true_iff.mp h
    simp only [encodeOperands, encodeOperand, List.append_assoc, decodeOperands, fieldsRoundTrip q v _ hv, ih hos]
  | case5 q slots gs os levels count ih =>
    obtain ⟨⟨rfl, hgs⟩, hos⟩ : (gs.length = levels ∧ gs.all (fun g => g.all (fieldAdmits q)) = true) ∧
        operandsWf slots os levels count = true := by
      simpa only [Bool.and_eq_true, beq_iff_eq] using h
    simp only [encodeOperands, encodeOperand, List.append_assoc, decodeOperands, readGuards_encode _ gs hgs, ih hos]
  | case6 q slots vs os levels count ih =>
    obtain ⟨⟨rfl, hvs⟩, hos⟩ : (vs.length = count ∧ vs.all (fieldAdmits q) = true) ∧
        operandsWf slots os levels count = true := by
      simpa only [Bool.and_eq_true, beq_iff_eq] using h
    simp only [encodeOperands, encodeOperand, List.append_assoc, decodeOperands, readValues_encode _ vs hvs, ih hos]
  | case7 => cases h

/-- Settles O8: the code decodes to its operation, and the operands are then read back slot by slot. -/
theorem linesRoundTrip : Obligations.LinesRoundTrip := by
  intro l cur rest h
  simp only [decodeLine, encodeLine, List.append_assoc, decode_encode,
    decodeOperands_encodeOperands rest (slotsOf l.op) l.operands (cur + 1) 0 h]

end Sys2Proof.Machine
end

/-! ## A step that reads a code -/

section
namespace Sys2Proof.Machine

/-! ### The errors of the decoder, by how the walk ends -/

section
variable {rom : Rom} {bs : Bits}

theorem walk_of_decodeIn_malformed (h : decodeIn rom bs = .error .malformedStream) :
    walk rom.tree rom.root 0 bs = .exhausted := by
  unfold decodeIn at h
  split at h
  · assumption
  · cases h
  · split at h <;> cases h

theorem walk_of_decodeIn_unknown {op : Nat} (h : decodeIn rom bs = .error (.unknownSymbol op)) :
    ∃ n, walk rom.tree rom.root 0 bs = .leaf op n ∧ rom.kindOf op = none := by
  unfold decodeIn at h
  split at h
  · cases h
  · cases h
  · rename_i n hwalk
    split at h
    · rename_i hkind
      cases h
      exact ⟨n, hwalk, hkind⟩
    · cases h

end

/-! ### The step, by how the walk ends -/

section
variable {s : State}

theorem step_of_exhausted (he : s.estate = .run .traverse) (hf : s.ps.fin = false) (hr : s.pins.rst = false)
    (hv : s.pins.rdValid = true) (hwalk : walk s.rom.tree s.node 0 s.rd.rest = .exhausted) :
    step s = .next (s.popPins.taking .malformedStream) := by
  rw [step, stepWith_of_traverse (s := s.popPins) hr he hf, if_pos hv, ← raiseFault_eq_taking]
  simp only [fetch, popPins_rom, popPins_node, popPins_rd, hwalk, runFetched]

theorem step_of_leaf {op n : Nat} (he : s.estate = .run .traverse) (hf : s.ps.fin = false) (hr : s.pins.rst = false)
    (hv : s.pins.rdValid = true) (hwalk : walk s.rom.tree s.node 0 s.rd.rest = .leaf op n) :
    step s = runFetched (select (atLeaf op n s.popPins)) := by
  rw [step, stepWith_of_traverse (s := s.popPins) hr he hf, if_pos hv]
  simp only [fetch, popPins_rom, popPins_node, popPins_rd, hwalk]

theorem runFetched_select_of_kind {i : Instr} (h : s.rom.kindOf s.opidx = some i) :
    runFetched (select s) = exec i s := by
  simp only [select, h, runFetched]

theorem runFetched_select_of_no_kind (h : s.rom.kindOf s.opidx = none) :
    runFetched (select s) = .next (s.taking (.unknownSymbol s.opidx)) := by
  simp only [select, h, runFetched, raiseFault_eq_taking]

end

/-- Settles O21: the step takes the fault that the walk or the selection ends with; what else the leaf has written is
unspecified after a fault. -/
theorem traversalFaultsAreTaken : Obligations.TraversalFaultsAreTaken := by
  intro s he hnode hf hr hv
  refine ⟨fun h => ?_, fun op h => ?_⟩
  · exact step_of_exhausted he hf hr hv (hnode ▸ walk_of_decodeIn_malformed h)
  · obtain ⟨n, hwalk, hkind⟩ := walk_of_decodeIn_unknown h
    have hselect := runFetched_select_of_no_kind (s := atLeaf op n s.popPins) hkind
    exact (step_of_leaf he hf hr hv (hnode ▸ hwalk)).trans hselect

/-- Settles O20: the placed bits start with the operation's code, whose leaf the step ends its walk at. -/
theorem placedWordIsTheNextOperation : Obligations.PlacedWordIsTheNextOperation := by
  intro s nbits w i hrom hword
  obtain ⟨rest, hbits⟩ := decodeTableWord_eq_some_iff.mp hword
  obtain ⟨op, hkind, hwalk⟩ := walk_encode i rest
  rw [hbits, ← hrom] at hwalk
  have hstep := step_of_leaf (s := s.withFetchWord nbits w) rfl rfl rfl rfl hwalk
  have hexec := runFetched_select_of_kind (s := atLeaf op (encode i).length (s.withFetchWord nbits w).popPins)
    (show s.rom.kindOf op = some i from hrom ▸ hkind)
  have hrd : (s.withFetchWord nbits w).rd.advance (encode i).length =
      ⟨windowBits nbits w, (encode i).length, s.rd.br⟩ := congrArg (Reader.mk _ · _) (Nat.zero_add _)
  refine ⟨op, hkind, (hstep.trans hexec).trans ?_⟩
  rw [← hrd]
  rfl

end Sys2Proof.Machine
end

/-! # 40_decode_loop.md

START (R77, R90), phase EMIT (R84, R89), what every operation leaves (R82 to R84, R91), the step that reads a code (R78 to
R81), the agreement of ticks and steps (R93), and whole decodes (R94, R95, R98). -/

/-! ## START -/

section
namespace Sys2Proof.Machine

theorem State.not_busy_of_waiting {s : State} (h : s.estate = .idle ∨ s.estate = .done ∨ s.estate = .fault) :
    s.busy = false := by
  unfold State.busy
  rcases h with he | he | he <;> rw [he]

/-- START, accepted, begins a decode at the place where the host has put the reader (R77). -/
theorem step_of_start {s : State} (hb : s.busy = false) (hr : s.pins.rst = false) (hs : s.pins.start = true) :
    step s = .next (startDecode (loadReader s.pins s.popPins)) := by
  rw [step, stepWith_of_not_busy (s := s.popPins) hr hb, hostMoves, if_pos hs]

/-- Settles O13: what `startDecode` writes, after the host's move on the reader. -/
theorem startBeginsADecode : Obligations.StartBeginsADecode :=
  fun _ hr hs he => step_of_start (State.not_busy_of_waiting he) hr hs

/-- Settles O14: no phase of RUN looks at START or at the host's move. -/
theorem runIgnoresStartAndHostMoves : Obligations.RunIgnoresStartAndHostMoves := by
  intro s p start load hb hr
  obtain ⟨phase, he⟩ := State.busy_iff.mp hb
  simp only [stepWith, tickWith, he, hr, Bool.false_eq_true, if_false]
  cases phase with
  | traverse => exact ⟨rfl, rfl⟩
  | execute => exact ⟨rfl, rfl⟩
  | emit => exact ⟨rfl, rfl⟩

/-- Settles O33: START writes anew all that an earlier decode has left, but for OPIDX, which no operation uses then. -/
theorem startForgetsEarlierDecodes : Obligations.StartForgetsEarlierDecodes := by
  intro s t s' hrom hrange hrd hhost hrest hsb htb hr hs hstep
  have hpins : t.pins = s.pins := by rw [State.pins, State.pins, hhost, hrest]
  rw [step_of_start hsb hr hs] at hstep
  cases hstep
  refine ⟨_, step_of_start htb (hpins ▸ hr) (hpins ▸ hs), ?_⟩
  exact
    { ps := congrArg PathState.initial hrange
      node := congrArg Rom.root hrom
      mstep := rfl
      estate := rfl
      fkind := rfl
      out := rfl
      rom := hrom
      rd := by simp only [startDecode_rd, loadReader_rd, popPins_rd, hrd, hpins]
      host := congrArg List.tail hhost
      hostRest := hrest
      opidx := nofun }

end Sys2Proof.Machine
end

/-! ## Phase EMIT -/

section
namespace Sys2Proof.Machine

/-- The sample that a step takes is one of the samples to come. -/
theorem State.pins_mem (s : State) : s.pins ∈ s.hostRest :: s.host := by
  unfold State.pins
  cases s.host with
  | nil => exact List.mem_cons_self
  | cons p host => exact List.mem_cons_of_mem _ List.mem_cons_self

theorem State.after_succ {s t : State} (k : Nat) (h : step s = .next t) : s.after (k + 1) = t.after k := by
  rw [State.after, h]

/-- Where no sample to come makes the block move, whatever samples stand after it, the block stays for ever. -/
theorem State.after_of_holds {P : Pins → Prop} {s : State}
    (hold : ∀ p host, P p → stepWith p { s with host := host } = .next { s with host := host })
    (h : ∀ p ∈ s.hostRest :: s.host, P p) (k : Nat) : s.after k = some { s with host := s.host.drop k } := by
  induction k generalizing s with
  | zero => rfl
  | succ k ih =>
    have hstep : step s = .next { s with host := s.host.tail } := hold s.pins s.host.tail (h _ s.pins_mem)
    have hsamples : ∀ p ∈ s.hostRest :: s.host.tail, P p := fun p hp =>
      h p ((List.mem_cons.mp hp).elim (fun e => e ▸ List.mem_cons_self)
        fun e => List.mem_cons_of_mem _ (List.mem_of_mem_tail e))
    rw [State.after_succ k hstep, ih (s := { s with host := s.host.tail }) hold hsamples, List.drop_tail]

theorem stepWith_of_accepted {p : Pins} {s : State} (he : s.estate = .run .emit) (hr : p.rst = false)
    (hready : p.snapReady = true) : stepWith p s = .next (acceptSnapshot s) := by
  rw [stepWith_of_emit hr he, emitMoves, if_pos hready]

theorem stepWith_of_refused {p : Pins} {s : State} (he : s.estate = .run .emit) (hr : p.rst = false)
    (hready : p.snapReady = false) : stepWith p s = .next s := by
  simp [stepWith_of_emit hr he, emitMoves, hready]

/-- Settles O16: the snapshot is accepted with SNAP_READY, and without it, however often, the block holds. -/
theorem emitAppendsWhenAccepted : Obligations.EmitAppendsWhenAccepted := by
  intro s he
  refine ⟨by simp [State.snapValid, he], stepWith_of_accepted (s := s.popPins) he,
    stepWith_of_refused (s := s.popPins) he, fun hnever k => ?_⟩
  have hold : ∀ (p : Pins) (host : List Pins), p.rst = false ∧ p.snapReady = false →
      stepWith p { s with host := host } = .next { s with host := host } :=
    fun p host ⟨hr, hready⟩ => stepWith_of_refused he hr hready
  exact State.after_of_holds hold hnever k

end Sys2Proof.Machine
end

/-! ## A quiet host -/

section
namespace Sys2Proof.Machine

section
variable {s : State}

theorem State.pins_of_quietHost (h : s.QuietHost) : s.pins = .quiet := by
  rw [State.pins, h.1, h.2, List.headD_nil]

theorem State.popPins_of_quietHost (h : s.QuietHost) : s.popPins = s := by
  have hhost : s.host.tail = s.host := by rw [h.1, List.tail_nil]
  rw [State.popPins, hhost]

theorem step_of_quietHost (h : s.QuietHost) : step s = stepWith .quiet s := by
  rw [step, State.pins_of_quietHost h, State.popPins_of_quietHost h]

theorem tick_of_quietHost (h : s.QuietHost) : tick s = tickWith .quiet s := by
  rw [tick, State.pins_of_quietHost h, State.popPins_of_quietHost h]

/-- In phase TRAVERSE a step under a quiet host fetches an operation and runs it. -/
theorem step_of_traverse (h : s.QuietHost) (he : s.estate = .run .traverse) (hf : s.ps.fin = false) :
    step s = runFetched (fetch s) :=
  (step_of_quietHost h).trans (stepWith_of_traverse rfl he hf)

theorem step_of_selected (h : s.QuietHost) (he : s.estate = .run .execute) (hm : s.mstep = none) :
    step s = runFetched (select s) :=
  (step_of_quietHost h).trans (stepWith_of_selected rfl he rfl hm)

theorem step_of_begun (h : s.QuietHost) (he : s.estate = .run .execute) {ms : List Micro} (hm : s.mstep = some ms) :
    step s = resume ms s :=
  (step_of_quietHost h).trans (stepWith_of_begun rfl he rfl hm)

/-- Under a quiet host the next step accepts the snapshot that is offered (R89). -/
theorem step_of_emit (h : s.QuietHost) (he : s.estate = .run .emit) :
    step s = .next (acceptSnapshot s) :=
  (step_of_quietHost h).trans (stepWith_of_accepted he rfl rfl)

end
end Sys2Proof.Machine
end

/-! ## What every operation leaves -/

section
namespace Sys2Proof.Machine

theorem trace_isPrefix_traced (s : State) (e : TraceEvent) : s.trace <+: (traced s e).trace := by
  rw [traced_trace]
  split
  · exact List.prefix_append _ _
  · exact List.prefix_rfl

/-- The state in which an operation's micro-steps have left the path state `c.ps` and the reader `c.rd`. -/
def State.moved (s : State) (c : OpCtx) : State := { s with ps := c.ps, rd := c.rd }

theorem exec_of_runMicros_ok {i : Instr} {s : State} {c : OpCtx} (h : runMicros (program i) ⟨s.ps, s.rd⟩ = .ok c) :
    exec i s = .next (finishOperation ((traceBefore s).moved c)) := by
  simp only [exec_eq_runOperation, runOperation, resume, traceBefore_ps, traceBefore_rd, h, State.moved]

/-- An operation that completes ends in EMIT, or, where FIN is set, in DONE (R83, R84). -/
theorem finishOperation_ends (s : State) :
    (finishOperation s).estate = .run .emit ∧ (finishOperation s).ps.fin = false ∨
      (finishOperation s).estate = .done ∧ (finishOperation s).ps.fin = true := by
  cases hf : s.ps.fin with
  | false => exact .inl (by simp [hf])
  | true => exact .inr (by simp [hf])

/-- Settles O34: a fault leaves `faultedBy`; what completes has run micro-steps that only move the path state and the
reader on. -/
theorem operationsKeepTheirFrame : Obligations.OperationsKeepTheirFrame := by
  intro i s
  have hbefore : s.trace <+: (traceBefore s).trace := trace_isPrefix_traced s _
  cases h : runMicros (program i) ⟨s.ps, s.rd⟩ with
  | error f =>
    exact ⟨_, exec_of_runMicros_error h, rfl, rfl, rfl, rfl, rfl, rfl, rfl, rfl, List.prefix_append _ _,
      .inr ⟨rfl, f, rfl⟩⟩
  | ok c =>
    obtain ⟨hstream, hbr, hpos, hrange⟩ := runMicros_onward _ _ _ h
    have hafter : (traceBefore s).trace <+: (finishOperation ((traceBefore s).moved c)).trace :=
      trace_isPrefix_traced ((traceBefore s).moved c) _
    exact ⟨_, exec_of_runMicros_ok h, rfl, hrange, hstream, hbr, rfl, rfl, rfl, rfl, hbefore.trans hafter,
      .inl ⟨finishOperation_ends _, rfl, rfl, rfl, rfl, rfl, hpos⟩⟩

end Sys2Proof.Machine
end

/-! ## A step that decodes an operation -/

section
namespace Sys2Proof.Machine

/-- The end of a walk, its bits counted with `k` bits read before it. -/
def countAfter (k : Nat) : Walk → Walk
  | .leaf op n => .leaf op (n + k)
  | .exhausted => .exhausted
  | .noNode id => .noNode id

theorem walk_add (tree : List TreeNode) (k : Nat) : ∀ (bs : Bits) (id n : Nat),
    walk tree id (n + k) bs = countAfter k (walk tree id n bs)
  | [], id, n => by
    unfold walk
    cases tree[id]? with
    | none => rfl
    | some node => cases node <;> rfl
  | b :: bs, id, n => by
    unfold walk
    cases tree[id]? with
    | none => rfl
    | some node =>
      cases node with
      | leaf op => rfl
      | internal c0 c1 => simpa only [Nat.add_right_comm] using walk_add tree k bs (childOn b c0 c1) (n + 1)

/-- A walk reads only bits that there are. -/
theorem walk_count_le {tree : List TreeNode} {op m : Nat} : ∀ (bs : Bits) (id n : Nat),
    walk tree id n bs = .leaf op m → m ≤ n + bs.length
  | [], id, n, h => by
    unfold walk at h
    split at h <;> cases h
    exact Nat.le_refl _
  | b :: bs, id, n, h => by
    unfold walk at h
    split at h
    · cases h
    · cases h
      exact Nat.le_add_right _ _
    · have := walk_count_le bs _ _ h
      rw [List.length_cons]
      omega

theorem walk_of_decodeIn_ok {rom : Rom} {bs rest : Bits} {i : Instr} (h : decodeIn rom bs = .ok (i, rest)) :
    ∃ op n, walk rom.tree rom.root 0 bs = .leaf op n ∧ rom.kindOf op = some i ∧ rest = bs.drop n := by
  unfold decodeIn at h
  split at h
  · cases h
  · cases h
  · rename_i op n hwalk
    split at h
    · cases h
    · rename_i hkind
      cases h
      exact ⟨op, n, hwalk, hkind, rfl⟩

/-- Settles O19: the walk's leaf is the decoded operation's, and the bits read up to it are those that the decoder drops. -/
theorem stepRunsTheDecodedOperation : Obligations.StepRunsTheDecodedOperation := by
  intro s i rest he hnode hf hr hv hdecode
  obtain ⟨op, n, hwalk, hkind, rfl⟩ := walk_of_decodeIn_ok hdecode
  have hread : s.rd.rest.length - (s.rd.rest.drop n).length = n := by
    have := walk_count_le _ _ _ hwalk
    rw [List.length_drop]
    omega
  refine ⟨op, hkind, ?_⟩
  rw [step_of_leaf he hf hr hv (hnode ▸ hwalk), runFetched_select_of_kind hkind, hread]
  rfl

end Sys2Proof.Machine
end

/-! ## Ticks and steps -/

section
namespace Sys2Proof.Machine

/-! ### What a tick leaves for the step -/

/-- `t`, which a tick of `s` leads to, is on the way of the step of `s`, which a step from `t` ends, or is its end. -/
def MakesUp (s t : State) : Prop :=
  (t.estate = .run .traverse ∨ t.estate = .run .execute → step t = step s) ∧
    (¬(t.estate = .run .traverse ∨ t.estate = .run .execute) → step s = .next t)

section
variable {s t : State}

theorem MakesUp.within (he : t.estate = .run .traverse ∨ t.estate = .run .execute) (h : step t = step s) :
    MakesUp s t :=
  ⟨fun _ => h, fun hn => absurd he hn⟩

theorem MakesUp.past (he : t.estate = .run .emit ∨ t.estate = .done ∨ t.estate = .fault) (h : step s = .next t) :
    MakesUp s t := by
  refine ⟨fun hn => ?_, fun _ => h⟩
  rcases he with he | he | he <;> simp [he] at hn

/-! ### A step from a first part of it on -/

theorem Reader.advance_rest (r : Reader) (n : Nat) : (r.advance n).rest = r.rest.drop n := by
  simp [Reader.rest, Reader.advance, List.drop_drop]

theorem Reader.request_bit_of_nil {r : Reader} (h : r.rest = []) : r.request .bit = none := by
  simp [Reader.request, readRequest, readBits, h]

theorem Reader.request_bit_of_cons {r : Reader} {b : Bool} {bs : Bits} (h : r.rest = b :: bs) :
    r.request .bit = some ((b.toNat : Int), r.advance 1) := by
  simp [Reader.request, readRequest, readBits, h]

/-- After a code bit the walk goes on from the child as the whole walk does. -/
theorem runFetched_fetch_child {b : Bool} {bs : Bits} {c0 c1 : Nat}
    (hnode : s.rom.tree[s.node]? = some (.internal c0 c1)) (hbits : s.rd.rest = b :: bs) :
    runFetched (fetch { s with node := childOn b c0 c1, rd := s.rd.advance 1 }) = runFetched (fetch s) := by
  have hwalk : walk s.rom.tree s.node 0 s.rd.rest =
      countAfter 1 (walk s.rom.tree (childOn b c0 c1) 0 (s.rd.advance 1).rest) := by
    rw [hbits, walk_cons_of_internal hnode, walk_add, Reader.advance_rest, hbits, List.drop_one, List.tail_cons]
  have hleaf (op n : Nat) :
      atLeaf op n { s with node := childOn b c0 c1, rd := s.rd.advance 1 } = atLeaf op (n + 1) s := by
    simp only [atLeaf, Reader.advance, Nat.add_assoc, Nat.add_comm 1]
  unfold fetch
  rw [hwalk]
  cases walk s.rom.tree (childOn b c0 c1) 0 (s.rd.advance 1).rest with
  | exhausted => rfl
  | noNode id => rfl
  | leaf op n => simp only [countAfter, hleaf]

/-- The rest of an operation, from where a first part of it has left the path state and the reader. -/
theorem resume_of_first_part {ms left : List Micro} {c : OpCtx} (mstep : Option (List Micro))
    (hrun : runMicros ms ⟨s.ps, s.rd⟩ = runMicros left c) (honward : Onward ⟨s.ps, s.rd⟩ c) :
    resume left { s with ps := c.ps, rd := c.rd, mstep := mstep } = resume ms s := by
  obtain ⟨hstream, hbr, -, hrange⟩ := honward
  unfold resume
  rw [hrun]
  cases runMicros left c with
  | ok d => rfl
  | error f => simp only [raiseFault, traced, hstream, hbr, hrange]

/-! ### The ticks of the phases TRAVERSE and EXECUTE -/

theorem makesUp_of_tickTraverse (h : s.QuietHost) (he : s.estate = .run .traverse) (hf : s.ps.fin = false)
    (ht : tickTraverse .quiet s = .next t) : MakesUp s t := by
  have hstep := step_of_traverse h he hf
  unfold tickTraverse at ht
  cases hnode : s.rom.tree[s.node]? with
  | none =>
    rw [hnode] at ht
    cases ht
  | some node =>
    rw [hnode] at ht
    cases node with
    | leaf op =>
      cases ht
      refine .within (.inr rfl) ?_
      rw [hstep, step_of_selected (s := atLeaf op 0 s) h rfl rfl, fetch, walk_of_leaf hnode]
    | internal c0 c1 =>
      have hanswered : Pins.quiet.rdValid = true := rfl
      simp only [hanswered, if_true] at ht
      cases hbits : s.rd.rest with
      | nil =>
        rw [Reader.request_bit_of_nil hbits] at ht
        cases ht
        refine .past (.inr (.inr rfl)) ?_
        rw [hstep, fetch, hbits, walk_nil_of_internal hnode]
        rfl
      | cons b bs =>
        have hchild : childOn ((b.toNat : Int) == 1) c0 c1 = childOn b c0 c1 := by cases b <;> rfl
        rw [Reader.request_bit_of_cons hbits] at ht
        dsimp only at ht
        rw [hchild] at ht
        cases ht
        refine .within (.inl he) ?_
        rw [hstep, step_of_traverse (s := { s with node := childOn b c0 c1, rd := s.rd.advance 1 }) h he hf]
        exact runFetched_fetch_child hnode hbits

/-- The tick that selects the operation. -/
theorem makesUp_of_select (h : s.QuietHost) (he : s.estate = .run .execute) (hm : s.mstep = none)
    (ht : tickExecute .quiet s = .next t) : MakesUp s t := by
  have hstep := step_of_selected h he hm
  unfold tickExecute at ht
  obtain ⟨i, hi⟩ | hf := select_cases s
  · rw [hm, hi] at ht
    cases ht
    refine .within (.inr he) ?_
    rw [hstep, hi, runFetched, exec_eq_runOperation, runOperation,
      step_of_begun (s := { traceBefore s with mstep := some (program i) }) h he rfl]
    exact resume_of_first_part (s := traceBefore s) (some (program i)) rfl (.refl _)
  · rw [hm, hf] at ht
    cases ht
    refine .past (.inr (.inr rfl)) ?_
    rw [hstep, hf, runFetched]

/-- The tick that runs one micro-step. -/
theorem makesUp_of_microTick {m : Micro} {ms : List Micro} (h : s.QuietHost) (he : s.estate = .run .execute)
    (hm : s.mstep = some (m :: ms)) (ht : tickExecute .quiet s = .next t) : MakesUp s t := by
  have hstep := step_of_begun h he hm
  have hanswered : ((microRequest m).isSome && !Pins.quiet.rdValid) = false := Bool.and_false _
  simp only [tickExecute, hm, hanswered, Bool.false_eq_true, if_false] at ht
  cases hc : microTick m ms ⟨s.ps, s.rd⟩ with
  | error f =>
    rw [hc] at ht
    cases ht
    refine .past (.inr (.inr rfl)) ?_
    rw [hstep, resume, microTick_error hc]
  | ok d =>
    obtain ⟨c, left⟩ := d
    rw [hc] at ht
    cases ht
    refine .within (.inr he) ?_
    rw [hstep, step_of_begun (s := { s with ps := c.ps, rd := c.rd, mstep := some left }) h he rfl]
    exact resume_of_first_part (some left) (microTick_ok hc) (microTick_onward hc)

theorem makesUp_of_tickExecute (h : s.QuietHost) (he : s.estate = .run .execute)
    (ht : tickExecute .quiet s = .next t) : MakesUp s t := by
  cases hm : s.mstep with
  | none => exact makesUp_of_select h he hm ht
  | some ms =>
    cases ms with
    | nil =>
      simp only [tickExecute, hm] at ht
      cases ht
      exact .past ((finishOperation_ends s).imp And.left fun hdone => .inl hdone.1) (step_of_begun h he hm)
    | cons m ms => exact makesUp_of_microTick h he hm ht

end

/-- Settles O23, by the two phases; with FIN set the tick of phase TRAVERSE is the step. -/
theorem ticksMakeUpTheStep : Obligations.TicksMakeUpTheStep := by
  intro s t h he ht
  rw [tick_of_quietHost h] at ht
  rcases he with he | he
  · cases hf : s.ps.fin with
    | false =>
      rw [tickWith_of_traverse rfl he hf] at ht
      exact makesUp_of_tickTraverse h he hf ht
    | true =>
      have htick : tickWith .quiet s = .next { s with estate := .done } := by simp [tickWith, Pins.quiet, he, hf]
      have hstep : stepWith .quiet s = .next { s with estate := .done } := by simp [stepWith, Pins.quiet, he, hf]
      rw [htick] at ht
      cases ht
      exact MakesUp.past (.inr (.inl rfl)) ((step_of_quietHost h).trans hstep)
  · rw [tickWith_of_execute rfl he] at ht
    exact makesUp_of_tickExecute h he ht

end Sys2Proof.Machine
end

/-! ## Whole decodes -/

section
namespace Sys2Proof.Machine

/-- Under a quiet host the block stands at the start of a code: it has just begun, or has just emitted a snapshot. -/
structure AtCode (s : State) : Prop where
  quiet : s.QuietHost
  estate : s.estate = .run .traverse
  node : s.node = s.rom.root
  fin : s.ps.fin = false
  kind : s.fkind = .none

theorem atCode_startDecode {s : State} (h : s.QuietHost) : AtCode (startDecode s) := ⟨h, rfl, rfl, rfl, rfl⟩

section
variable {s : State}

theorem AtCode.step_of_leaf {op n : Nat} (h : AtCode s)
    (hwalk : walk s.rom.tree s.rom.root 0 s.rd.rest = .leaf op n) :
    step s = runFetched (select (atLeaf op n s)) := by
  rw [step_of_traverse h.quiet h.estate h.fin, fetch, h.node, hwalk]

theorem AtCode.step_of_exhausted (h : AtCode s) (hwalk : walk s.rom.tree s.rom.root 0 s.rd.rest = .exhausted) :
    step s = .next (raiseFault .malformedStream s) := by
  rw [step_of_traverse h.quiet h.estate h.fin, fetch, h.node, hwalk, runFetched]

end

/-- Settles O22: the code's leaf is the terminal operation's, which sets FIN and reads nothing. -/
theorem terminalCodeAloneDecodesToNothing : Obligations.TerminalCodeAloneDecodesToNothing := by
  intro s h hrom hbits
  obtain ⟨op, hkind, hwalk⟩ := walk_encode .fieldPathEncodeFinish []
  have hleaf : walk s.rom.tree s.rom.root 0 s.rd.rest = .leaf op 2 := by
    rw [hrom, hbits]
    exact hwalk
  have hstep := (atCode_startDecode h).step_of_leaf hleaf
  rw [runFetched_select_of_kind (show s.rom.kindOf op = some .fieldPathEncodeFinish from hrom ▸ hkind),
    exec_of_runMicros_ok rfl] at hstep
  exact ⟨_, hstep, rfl, rfl, rfl, rfl⟩

/-! ### The steps compute the whole decode -/

section
variable {s t : State}

/-- The end of a run of steps from `s` that the whole decode `r` describes (R94). -/
def Computes (s : State) : DecodeResult → Prop
  | .ok out pos =>
    ∃ k t, s.after k = some t ∧ t.estate = .done ∧ t.fkind = .none ∧ t.out = out ∧ t.rd.pos = pos
  | .err f out => ∃ k t, s.after k = some t ∧ t.estate = .fault ∧ t.fkind = f.kind ∧ t.out = out
  | .noNode _ => True
  | .outOfFuel => True

theorem Computes.of_step {r : DecodeResult} (h : step s = .next t) (ht : Computes t r) : Computes s r := by
  cases r with
  | ok out pos =>
    obtain ⟨k, u, hafter, hu⟩ := ht
    exact ⟨k + 1, u, (State.after_succ k h).trans hafter, hu⟩
  | err f out =>
    obtain ⟨k, u, hafter, hu⟩ := ht
    exact ⟨k + 1, u, (State.after_succ k h).trans hafter, hu⟩
  | noNode id => trivial
  | outOfFuel => trivial

theorem Computes.of_emit {r : DecodeResult} (h : s.QuietHost) (he : s.estate = .run .emit)
    (hnext : Computes (acceptSnapshot s) r) : Computes s r :=
  .of_step (step_of_emit h he) hnext

theorem computes_of_fault {f : FaultInfo} (he : t.estate = .fault) (hk : t.fkind = f.kind) :
    Computes t (.err f t.out) :=
  ⟨0, t, rfl, he, hk, rfl⟩

theorem computes_of_done (he : t.estate = .done) (hk : t.fkind = .none) : Computes t (.ok t.out t.rd.pos) :=
  ⟨0, t, rfl, he, hk, rfl, rfl⟩

/-- Each pass of the loop of R94 is a step that runs an operation and a step that emits its snapshot. -/
theorem AtCode.computes_decodeLoop (h : AtCode s) (fuel : Nat) :
    Computes s (decodeLoop s.rom fuel s.ps s.out s.rd) := by
  induction fuel generalizing s with
  | zero => trivial
  | succ fuel ih =>
    rw [decodeLoop]
    cases hwalk : walk s.rom.tree s.rom.root 0 s.rd.rest with
    | exhausted => exact .of_step (h.step_of_exhausted hwalk) (computes_of_fault rfl rfl)
    | noNode id => trivial
    | leaf op n =>
      have hstep := h.step_of_leaf hwalk
      dsimp only
      cases hkind : s.rom.kindOf op with
      | none =>
        rw [runFetched_select_of_no_kind hkind] at hstep
        exact .of_step hstep (computes_of_fault rfl rfl)
      | some i =>
        rw [runFetched_select_of_kind hkind] at hstep
        dsimp only
        cases hop : opStep i s.ps (s.rd.advance n) with
        | error f => exact .of_step (hstep.trans (exec_of_runMicros_error hop)) (computes_of_fault rfl rfl)
        | ok c =>
          have hend := hstep.trans (exec_of_runMicros_ok (s := atLeaf op n s) hop)
          dsimp only
          cases hf : c.ps.fin with
          | true => exact .of_step hend (computes_of_done (if_pos hf) h.kind)
          | false =>
            exact .of_step hend (.of_emit h.quiet (by simp [State.moved, hf]) (ih ⟨h.quiet, rfl, rfl, hf, h.kind⟩))

end

/-- Settles O30: START leaves the block at the start of a code, with the loop's first path state and an empty OUT. -/
theorem stepsComputeTheWholeDecode : Obligations.StepsComputeTheWholeDecode := by
  intro s h
  have hcomputes : Computes (startDecode s) (decodeFieldPaths s.rom s.ps.range s.rd) :=
    (atCode_startDecode h).computes_decodeLoop _
  exact ⟨fun out pos hr => by rwa [hr] at hcomputes, fun f out hr => by rwa [hr] at hcomputes⟩

/-! ### Every decode ends -/

theorem Rom.root_internal {rom : Rom} (h : rom.consistent = true) :
    ∃ c0 c1, rom.tree[rom.root]? = some (.internal c0 c1) := by
  simp only [Rom.consistent, Bool.and_eq_true] at h
  obtain ⟨-, hroot⟩ := h
  split at hroot
  · exact ⟨_, _, ‹_›⟩
  · cases hroot
  · cases hroot

/-- Every code has a bit (R60, R95). -/
theorem walk_root_count_pos {rom : Rom} (h : rom.consistent = true) {bs : Bits} {op n : Nat}
    (hwalk : walk rom.tree rom.root 0 bs = .leaf op n) : 0 < n := by
  obtain ⟨c0, c1, hnode⟩ := Rom.root_internal h
  cases bs with
  | nil =>
    rw [walk_nil_of_internal hnode] at hwalk
    cases hwalk
  | cons b bs =>
    rw [walk_cons_of_internal hnode, walk_add] at hwalk
    cases hchild : walk rom.tree (childOn b c0 c1) 0 bs <;> rw [hchild] at hwalk <;> cases hwalk
    exact Nat.succ_pos _

theorem Onward.rest_length_le {c c' : OpCtx} (h : Onward c c') : c'.rd.rest.length ≤ c.rd.rest.length := by
  obtain ⟨hstream, -, hpos, -⟩ := h
  rw [Reader.rest, Reader.rest, hstream, List.length_drop, List.length_drop]
  omega

/-- The decode ends within `n` steps. -/
def EndsWithin (n : Nat) (s : State) : Prop :=
  ∃ k t, k ≤ n ∧ s.after k = some t ∧ (t.estate = .done ∨ t.estate = .fault)

section
variable {n : Nat} {s t : State}

theorem EndsWithin.of_step (h : step s = .next t) (ht : EndsWithin n t) : EndsWithin (n + 1) s := by
  obtain ⟨k, u, hk, hafter, hu⟩ := ht
  exact ⟨k + 1, u, Nat.succ_le_succ hk, (State.after_succ k h).trans hafter, hu⟩

theorem endsWithin_of_ended (n : Nat) (he : t.estate = .done ∨ t.estate = .fault) : EndsWithin n t :=
  ⟨0, t, Nat.zero_le n, rfl, he⟩

theorem EndsWithin.mono {m : Nat} (h : EndsWithin n s) (hle : n ≤ m) : EndsWithin m s := by
  obtain ⟨k, t, hk, ht⟩ := h
  exact ⟨k, t, hk.trans hle, ht⟩

/-- What is left to do once a snapshot is offered: accept it, and go on at the start of a code. -/
theorem EndsWithin.of_emit (hinv : s.Inv) (h : s.QuietHost) (he : s.estate = .run .emit)
    (hnext : ∀ u : State, u.Inv → AtCode u → u.rd = s.rd → EndsWithin n u) : EndsWithin (n + 1) s := by
  have hstep := step_of_emit h he
  have hcode : AtCode (acceptSnapshot s) :=
    ⟨h, rfl, hinv.nodeRoot (by simp [he]) (by simp [he]), hinv.finEmit he, hinv.kind.mpr (by simp [he])⟩
  exact .of_step hstep (hnext _ (stepKeepsTheInvariant _ _ hinv hstep) hcode rfl)

/-- A step that runs an operation to its end, from wherever the state `u` stands in it. -/
theorem EndsWithin.of_resume {ms : List Micro} {u : State} (hinv : s.Inv) (h : u.QuietHost)
    (hstep : step s = resume ms u)
    (hnext : ∀ v : State, v.Inv → AtCode v → v.rd.rest.length ≤ u.rd.rest.length → EndsWithin n v) :
    EndsWithin (n + 2) s := by
  obtain ⟨t, ht⟩ := resume_total ms u
  rw [ht] at hstep
  have htinv := stepKeepsTheInvariant _ _ hinv hstep
  refine .of_step hstep ?_
  obtain ⟨c, hc, rfl⟩ | ⟨f, -, rfl⟩ := resume_cases ht
  · obtain ⟨hemit, -⟩ | ⟨hdone, -⟩ := finishOperation_ends { u with ps := c.ps, rd := c.rd }
    · exact .of_emit htinv h hemit fun v hv hcode hrd =>
        hnext v hv hcode (hrd ▸ (runMicros_onward _ _ _ hc).rest_length_le)
    · exact endsWithin_of_ended _ (.inl hdone)
  · exact endsWithin_of_ended _ (.inr rfl)

/-- A step that reads a code, or the rest of one, of `k` bits at least. -/
theorem EndsWithin.of_traverse {k : Nat} (hinv : s.Inv) (h : s.QuietHost) (he : s.estate = .run .traverse)
    (hbits : ∀ op m, walk s.rom.tree s.node 0 s.rd.rest = .leaf op m → k ≤ m)
    (hnext : ∀ v : State, v.Inv → AtCode v → v.rd.rest.length + k ≤ s.rd.rest.length → EndsWithin n v) :
    EndsWithin (n + 2) s := by
  have hstep := step_of_traverse h he (hinv.finTraverse he)
  unfold fetch at hstep
  obtain ⟨op, m, hwalk, hop⟩ | hwalk := walk_ok hinv.rom s.rd.rest s.node 0 (hinv.nodeTraverse he)
  · obtain ⟨i, hi⟩ := Option.isSome_iff_exists.mp hop
    simp only [hwalk] at hstep
    rw [runFetched_select_of_kind (s := atLeaf op m s) hi, exec_eq_runOperation, runOperation] at hstep
    refine .of_resume (u := traceBefore (atLeaf op m s)) hinv h hstep fun v hv hcode hle => hnext v hv hcode ?_
    have hk := hbits op m hwalk
    have hm := walk_count_le _ _ _ hwalk
    rw [traceBefore_rd, atLeaf_rd, Reader.advance_rest, List.length_drop] at hle
    omega
  · simp only [hwalk] at hstep
    exact .of_step hstep (endsWithin_of_ended _ (.inr rfl))

/-- From the start of a code on: two steps for each operation, which consumes a bit at least, and one where no bit is
left. -/
theorem AtCode.endsWithin {bits : Nat} (h : AtCode s) (hinv : s.Inv) (hlength : s.rd.rest.length ≤ bits) :
    EndsWithin (2 * bits + 1) s := by
  induction bits generalizing s with
  | zero =>
    obtain ⟨c0, c1, hroot⟩ := Rom.root_internal hinv.rom
    have hnil : s.rd.rest = [] := List.length_eq_zero_iff.mp (Nat.le_zero.mp hlength)
    have hwalk : walk s.rom.tree s.rom.root 0 s.rd.rest = .exhausted := hnil ▸ walk_nil_of_internal hroot 0
    exact .of_step (h.step_of_exhausted hwalk) (endsWithin_of_ended _ (.inr rfl))
  | succ bits ih =>
    refine .of_traverse (n := 2 * bits + 1) (k := 1) hinv h.quiet h.estate (fun op m hwalk => ?_)
      fun v hv hcode hle => ih hcode hv (by omega)
    rw [h.node] at hwalk
    exact walk_root_count_pos hinv.rom hwalk

end

/-- Settles O31: the operation in progress takes a step, its snapshot another, and then `AtCode.endsWithin` counts. -/
theorem everyDecodeEnds : Obligations.EveryDecodeEnds := by
  intro s hinv h hbusy
  change EndsWithin (2 * s.rd.rest.length + 1 + 2) s
  have hnext : ∀ v : State, v.Inv → AtCode v → v.rd.rest.length ≤ s.rd.rest.length →
      EndsWithin (2 * s.rd.rest.length + 1) v := fun v hv hcode hle => hcode.endsWithin hv hle
  obtain ⟨phase, he⟩ := State.busy_iff.mp hbusy
  cases phase with
  | traverse => exact .of_traverse (k := 0) hinv h he (fun _ m _ => Nat.zero_le m) hnext
  | execute =>
    cases hm : s.mstep with
    | none =>
      obtain ⟨i, hi⟩ := (hinv.executing he).select_eq
      have hstep := step_of_selected h he hm
      rw [hi, runFetched, exec_eq_runOperation, runOperation] at hstep
      exact .of_resume (u := traceBefore s) hinv h hstep hnext
    | some ms => exact .of_resume hinv h (step_of_begun h he hm) hnext
  | emit =>
    have hends := EndsWithin.of_emit hinv h he fun u hu hcode hrd => hnext u hu hcode (hrd ▸ Nat.le_refl _)
    exact hends.mono (Nat.le_succ _)

end Sys2Proof.Machine
end

/-! # 41_increment.md

The increment-top operations (R101 to R106): each is the one micro-step `SEG[CUR] <- SEG[CUR] + e`. -/

section
namespace Sys2Proof.Machine

/-- An operation that is not the terminal one completes with what its micro-steps leave (R84). -/
theorem exec_of_runMicros_completed {i : Instr} {s : State} {c : OpCtx}
    (h : runMicros (program i) ⟨s.ps, s.rd⟩ = .ok c) (hf : c.ps.fin = false) :
    exec i s = .next (s.completed c.ps c.rd) := by
  rw [exec_eq_runOperation]
  exact runOperation_completed h hf

/-- An operation whose one micro-step adds to the top completes with the sum there, where the sum is in range. -/
theorem exec_of_addTop_inRange {i : Instr} {s : State} {e : Expr} {v : Int} {rd : Reader}
    (hp : program i = [.addTop e]) (hf : s.ps.fin = false) (he : evalExpr e s.rd = some (v, rd))
    (hr : s.ps.InRange (s.ps.seg.get s.ps.cur + v)) :
    exec i s = .next (s.completed (s.ps.added s.ps.cur v) rd) := by
  have hrun : runMicros (program i) ⟨s.ps, s.rd⟩ = .ok ⟨s.ps.added s.ps.cur v, rd⟩ := by
    rw [hp]
    exact runMicros_single (runMicro_addTop_of_eval he hr)
  exact exec_of_runMicros_completed hrun hf

/-- Settles O37: the pseudocode of each fixed increment adds its constant, which asks nothing of the reader, so only the
range of the sum decides. -/
theorem fixedIncrementsAddTheirConstant : Obligations.FixedIncrementsAddTheirConstant := by
  intro s i idx bits k form hf
  have hlisted : ListedAs i idx bits := by fin_cases form <;> exact ⟨rfl, rfl⟩
  have hp : program i = [.addTop (constant k)] := by fin_cases form <;> rfl
  have he : evalExpr (constant k) s.rd = some (k, s.rd) := evalExpr_constant k s.rd
  exact ⟨hlisted, exec_of_addTop_inRange hp hf he, exec_of_addTop_overrange hp he⟩

/-- Settles O38: the field is read before the sum's range is checked, so missing bits fault first. -/
theorem plusNAddsItsFieldPlusFive : Obligations.PlusNAddsItsFieldPlusFive := by
  have hp : program .plusN = [.addTop (fieldPlus .ubvfp 5)] := rfl
  refine ⟨⟨rfl, rfl⟩, fun s hf => ⟨fun d r1 read => ?_, fun exhausted => ?_⟩⟩
  · have he : evalExpr (fieldPlus .ubvfp 5) s.rd = some (d + 5, r1) := evalExpr_of_read read
    exact ⟨exec_of_addTop_inRange hp hf he, exec_of_addTop_overrange hp he⟩
  · exact exec_of_exhausted (congrArg (runMicros · ⟨s.ps, s.rd⟩) hp) rfl exhausted

end Sys2Proof.Machine
end

/-! # 42_push_one.md

The single-push operations (R107 to R116): each ends with one push, and what stands before it, if anything, is one addition
to the old top; and the rows of pushes that do not fit (R107, R117). -/

section
namespace Sys2Proof.Machine

/-! ### An operation's one push -/

/-- Operation `i`, running in `s`, comes to the push of `e` that ends it, with the path state `ps` and the reader `r`. -/
def ComesToPush (s : State) (i : Instr) (e : Expr) (ps : PathState) (r : Reader) : Prop :=
  runMicros (program i) ⟨s.ps, s.rd⟩ = push e ⟨ps, r⟩

theorem runMicros_push_last (e : Expr) (c : OpCtx) : runMicros [.enter, .setTop e] c = push e c := by
  rw [runMicros_push]
  cases push e c <;> rfl

/-- Nothing stands before the push (R109, R110). -/
theorem ComesToPush.atOnce {s : State} {i : Instr} {e : Expr} (hp : program i = [.enter, .setTop e]) :
    ComesToPush s i e s.ps s.rd := by
  rw [ComesToPush, hp, runMicros_push_last]

/-- An addition to the old top stands before the push (R111 to R116). -/
theorem ComesToPush.afterAdd {s : State} {i : Instr} {e₀ e : Expr} {d : Int} {r : Reader}
    (hp : program i = [.addTop e₀, .enter, .setTop e]) (he : evalExpr e₀ s.rd = some (d, r))
    (hr : s.ps.InRange (s.ps.seg.get s.ps.cur + d)) : ComesToPush s i e (s.ps.added s.ps.cur d) r := by
  rw [ComesToPush, hp, runMicros_cons_ok (runMicro_addTop_of_eval he hr), runMicros_push_last]

section
variable {s : State} {i : Instr} {e : Expr} {ps : PathState} {r rd : Reader} {v : Int}

theorem ComesToPush.completes (h : ComesToPush s i e ps r) (hf : ps.fin = false) (hc : ps.cur ≤ 4)
    (he : evalExpr e r = some (v, rd)) (hr : ps.InRange v) : exec i s = .next (s.completed (ps.pushed v) rd) :=
  exec_of_runMicros_completed (c := ⟨ps.pushed v, rd⟩) (h.trans (push_of_eval hc he hr)) hf

theorem ComesToPush.overrange (h : ComesToPush s i e ps r) (hc : ps.cur ≤ 4) (he : evalExpr e r = some (v, rd))
    (hr : ¬ps.InRange v) : exec i s = .next (s.faultedBy (.segmentRange (ps.cur + 1) v)) :=
  exec_of_runMicros_error (h.trans (push_of_overrange hc he hr))

theorem ComesToPush.exhausted (h : ComesToPush s i e ps r) (hc : ps.cur ≤ 4) (he : evalExpr e r = none) :
    exec i s = .next (s.faultedBy .malformedStream) :=
  exec_of_runMicros_error (h.trans (push_of_exhausted hc he))

/-- The depth is checked before the value is asked for, so nothing is assumed of `e` (R107). -/
theorem ComesToPush.overflow (h : ComesToPush s i e ps r) (hc : ps.cur = 5) :
    exec i s = .next (s.faultedBy (.pathOverflow 5)) := by
  apply exec_of_runMicros_error
  rw [h, push_of_full hc.ge, hc]

/-- A pushed 0 is in every range and asks nothing of the reader. -/
theorem ComesToPush.completes_zero (h : ComesToPush s i (constant 0) ps r) (hf : ps.fin = false) (hc : ps.cur ≤ 4) :
    exec i s = .next (s.completed (ps.pushed 0) r) :=
  h.completes hf hc (evalExpr_constant 0 r) ps.range.holds_zero

/-- The stated range holds whatever a UBVFP field is read as (R9, R42). -/
theorem inRange_of_ubvfp (hread : r.request .ubvfp = some (v, rd)) (hrange : ps.range = .reference) : ps.InRange v := by
  obtain ⟨hlow, hhigh⟩ : 0 ≤ v ∧ v < 2 ^ 31 := requestValuesAreInRange .ubvfp r rd v hread
  rw [PathState.InRange, hrange, SegRange.holds_reference]
  omega

/-- What a push of a UBVFP field comes to once the field is read. -/
theorem ComesToPush.of_ubvfp (h : ComesToPush s i (fieldPlus .ubvfp 0) ps r) (hf : ps.fin = false) (hc : ps.cur ≤ 4)
    (hread : r.request .ubvfp = some (v, rd)) :
    (ps.range = .reference → ps.InRange v) ∧
    (ps.InRange v → exec i s = .next (s.completed (ps.pushed v) rd)) ∧
    (¬ps.InRange v → exec i s = .next (s.faultedBy (.segmentRange (ps.cur + 1) v))) := by
  have he : evalExpr (fieldPlus .ubvfp 0) r = some (v, rd) := evalExpr_of_read_unbiased hread
  exact ⟨inRange_of_ubvfp hread, h.completes hf hc he, h.overrange hc he⟩

end

/-! ### The single pushes -/

/-- Settles O39: the push is all that either operation does. -/
theorem pushOneLeftDeltaZeroPushesOneLevel : Obligations.PushOneLeftDeltaZeroPushesOneLevel := by
  refine ⟨⟨rfl, rfl⟩, ⟨rfl, rfl⟩, fun s hf => ?_⟩
  have hzero : ComesToPush s .pushOneLeftDeltaZeroRightZero (constant 0) s.ps s.rd := .atOnce rfl
  have hfield : ComesToPush s .pushOneLeftDeltaZeroRightNonZero (fieldPlus .ubvfp 0) s.ps s.rd := .atOnce rfl
  refine ⟨hzero.completes_zero hf, fun hc v r1 => hfield.of_ubvfp hf hc, fun hc exhausted => ?_, fun hc => ?_⟩
  · exact hfield.exhausted hc (evalExpr_of_exhausted exhausted)
  · exact ⟨hzero.overflow hc, hfield.overflow hc⟩

/-- Settles O40: where the increment is in range, the operation comes to its push with it made; else it ends there. -/
theorem pushOneLeftDeltaOneAddsThenPushes : Obligations.PushOneLeftDeltaOneAddsThenPushes := by
  refine ⟨⟨rfl, rfl⟩, ⟨rfl, rfl⟩, fun s hf => ?_⟩
  have hone : evalExpr (constant 1) s.rd = some (1, s.rd) := evalExpr_constant 1 s.rd
  have hzero (sum : s.ps.InRange (s.ps.seg.get s.ps.cur + 1)) :
      ComesToPush s .pushOneLeftDeltaOneRightZero (constant 0) (s.ps.added s.ps.cur 1) s.rd := .afterAdd rfl hone sum
  have hfield (sum : s.ps.InRange (s.ps.seg.get s.ps.cur + 1)) :
      ComesToPush s .pushOneLeftDeltaOneRightNonZero (fieldPlus .ubvfp 0) (s.ps.added s.ps.cur 1) s.rd :=
    .afterAdd rfl hone sum
  refine ⟨fun sum hc => ⟨?_, fun v r1 => ?_, fun exhausted => ?_⟩, fun sum hc => ?_, fun overrange => ?_⟩
  · exact (hzero sum).completes_zero hf hc
  · exact (hfield sum).of_ubvfp hf hc
  · exact (hfield sum).exhausted hc (evalExpr_of_exhausted exhausted)
  · exact ⟨(hzero sum).overflow hc, (hfield sum).overflow hc⟩
  · exact ⟨exec_of_addTop_overrange rfl hone overrange, exec_of_addTop_overrange rfl hone overrange⟩

/-- An operation that adds a field plus 2 to the old top and pushes a field plus 1 (R114 to R116). -/
theorem exec_of_addField_pushField {s : State} {i : Instr} {q : Request} {d v : Int} {r1 r2 : Reader}
    (hp : program i = [.addTop (fieldPlus q 2), .enter, .setTop (fieldPlus q 1)]) (hf : s.ps.fin = false)
    (hc : s.ps.cur ≤ 4) (increment : s.rd.request q = some (d, r1)) (value : r1.request q = some (v, r2))
    (sum : s.ps.InRange (s.ps.seg.get s.ps.cur + (d + 2))) (fits : s.ps.InRange (v + 1)) :
    exec i s = .next (s.completed ((s.ps.added s.ps.cur (d + 2)).pushed (v + 1)) r2) :=
  (ComesToPush.afterAdd hp (evalExpr_of_read increment) sum).completes hf hc (evalExpr_of_read value) fits

/-- Settles O41: the push of 0 asks for no second field, and the other is the case of a UBVFP field. -/
theorem pushOneLeftDeltaNAddsThenPushes : Obligations.PushOneLeftDeltaNAddsThenPushes := by
  refine fun s d r1 hf hc increment => ⟨fun sum => ?_, fun v r2 value sum fits => ?_⟩
  · have hpush : ComesToPush s .pushOneLeftDeltaNRightZero (constant 0) (s.ps.added s.ps.cur d) r1 :=
      .afterAdd rfl (evalExpr_of_read_unbiased increment) sum
    exact hpush.completes_zero hf hc
  · exact exec_of_addField_pushField rfl hf hc increment value sum fits

/-- Settles O42: the two packed pushes differ in the width of their fields only. -/
theorem packedPushesAddThenPush : Obligations.PackedPushesAddThenPush := by
  intro s i n d v r1 r2 form hf hc increment value sum fits
  have hp : program i = [.addTop (fieldPlus (.bits n) 2), .enter, .setTop (fieldPlus (.bits n) 1)] := by
    fin_cases form <;> rfl
  exact exec_of_addField_pushField hp hf hc increment value sum fits

/-- Settles O43: whatever stands before the push leaves CUR at 5, and whatever the push would write is not asked for. -/
theorem singlePushesAtFullDepthOverflow : Obligations.SinglePushesAtFullDepthOverflow := by
  intro s hc
  refine ⟨fun i form => ?_, fun i form sum => ?_, fun i q k form d r1 read sum => ?_⟩
  · obtain ⟨e, hp⟩ : ∃ e, program i = [.enter, .setTop e] := by
      fin_cases form <;> exact ⟨_, rfl⟩
    exact (ComesToPush.atOnce hp).overflow hc
  · obtain ⟨e, hp⟩ : ∃ e, program i = [.addTop (constant 1), .enter, .setTop e] := by
      fin_cases form <;> exact ⟨_, rfl⟩
    exact (ComesToPush.afterAdd hp (evalExpr_constant 1 s.rd) (hc ▸ sum)).overflow hc
  · obtain ⟨e, hp⟩ : ∃ e, program i = [.addTop (fieldPlus q k), .enter, .setTop e] := by
      fin_cases form <;> exact ⟨_, rfl⟩
    exact (ComesToPush.afterAdd hp (evalExpr_of_read read) (hc ▸ sum)).overflow hc

/-! ### Rows of pushes -/

/-- Settles O49: a row of unbiased fields stops at the push that finds CUR = 5, and a row with a bias is a single push,
which can be one too many at CUR = 5 only. -/
theorem pushesOverflowAtTheFirstPushTooMany : Obligations.PushesOverflowAtTheFirstPushTooMany := by
  intro s i q n r r1 vs row hc hn read fit
  obtain ⟨ps, hcur, hrange, hrun⟩ := runMicros_of_reachesPushes hc row
  rw [← hcur] at hc hn read
  apply exec_of_runMicros_error
  rw [hrun]
  obtain hbias | rfl := row.unbiased_or_single
  · rw [hbias]
    exact pushTimes_of_overflow (c := ⟨ps, r⟩) hc hn read (by simpa only [PathState.InRange, hrange] using fit)
  · have hfull : ps.cur = 5 := by omega
    rw [pushTimes, push_of_full hfull.ge, hfull]

end Sys2Proof.Machine
end

/-! # 43_multi_push.md

The multi-push operations (R117 to R131): each ends with a row of pushes, and what stands before the row, if anything, is an
addition to the old top or a guard loop, and a count. -/

section
namespace Sys2Proof.Machine

/-! ### An operation's row of pushes -/

/-- `repeat n times: PushRead(q)`, as the pseudocode of R118 to R129 writes it out. -/
def pushRow (q : Request) (n : Nat) : List Micro := (List.replicate n [Micro.enter, .setTop (fieldPlus q 0)]).flatten

/-- Operation `i`, running in `s`, comes to the `n` pushes of fields `q` that end it, with the path state `ps` and the
reader `r`. -/
def ComesToPushes (s : State) (i : Instr) (q : Request) (n : Nat) (ps : PathState) (r : Reader) : Prop :=
  runMicros (program i) ⟨s.ps, s.rd⟩ = pushTimes n (fieldPlus q 0) ⟨ps, r⟩

section
variable {s : State} {i : Instr} {q : Request} {n : Nat}

/-- Nothing stands before the row (R118 to R121). -/
theorem ComesToPushes.atOnce (hp : program i = pushRow q n) : ComesToPushes s i q n s.ps s.rd := by
  rw [ComesToPushes, hp, pushRow, runMicros_pushTimes]

/-- An addition to the old top stands before the row (R122 to R129). -/
theorem ComesToPushes.afterAdd {e : Expr} {d : Int} {r : Reader} (hp : program i = .addTop e :: pushRow q n)
    (he : evalExpr e s.rd = some (d, r)) (hr : s.ps.InRange (s.ps.seg.get s.ps.cur + d)) :
    ComesToPushes s i q n (s.ps.added s.ps.cur d) r := by
  rw [ComesToPushes, hp, pushRow, runMicros_addTop_row he hr]

/-- Where the values are all there and fit, the operation completes with them pushed (R117). -/
theorem ComesToPushes.completes {ps : PathState} {r rd : Reader} {vs : List Int} (h : ComesToPushes s i q n ps r)
    (hf : ps.fin = false) (hc : ps.cur + n ≤ 5) (read : Reader.requests q n r = some (vs, rd))
    (fit : ∀ v ∈ vs, ps.InRange v) : exec i s = .next (s.completed (ps.pushedAll vs) rd) := by
  have hrow : pushTimes n (fieldPlus q 0) ⟨ps, r⟩ = .ok ⟨ps.pushedAll vs, rd⟩ :=
    pushTimes_of_requests n ⟨ps, r⟩ vs rd hc read fit
  have hfin : (ps.pushedAll vs).fin = false := (pushedAll_fin ps vs).trans hf
  exact exec_of_runMicros_completed (h.trans hrow) hfin

end

/-! ### Counted rows -/

section
variable {ps : PathState} {n : Int} {r r1 : Reader}

/-- The count alone stands before the row (R131). -/
theorem runMicro_countPush_of_read (e : Expr) (count : r.request .ubv = some (n, r1)) :
    runMicro (.countPush none e) ⟨ps, r⟩ = pushTimes n.toNat e ⟨ps, r1⟩ := by
  simp only [runMicro, countPush, count]

/-- The count is read before the increment, and the increment is added before the row (R130). -/
theorem runMicro_countPush_of_increment {d : Int} {r2 : Reader} {increment : Expr} (e : Expr)
    (count : r.request .ubv = some (n, r1)) (he : evalExpr increment r1 = some (d, r2))
    (hr : ps.InRange (ps.seg.get ps.cur + d)) :
    runMicro (.countPush (some increment) e) ⟨ps, r⟩ = pushTimes n.toNat e ⟨ps.added ps.cur d, r2⟩ := by
  have hadd : addSeg ps.cur increment ⟨ps, r1⟩ = .ok ⟨ps.added ps.cur d, r2⟩ := addSeg_of_eval he hr
  simp only [runMicro, countPush, count, hadd]

end

/-! ### The multi-pushes -/

/-- Settles O44: the four operations are rows, of two or three fields of one kind. -/
theorem multiPushLeftDeltaZeroPushesItsValues : Obligations.MultiPushLeftDeltaZeroPushesItsValues := by
  intro s i q n vs r1 form hf hc read fit
  have hp : program i = pushRow q n := by fin_cases form <;> rfl
  exact (ComesToPushes.atOnce hp).completes hf hc read fit

/-- Settles O45: the addition of 1 asks nothing of the reader and leaves CUR, FIN and the range as they are for the row. -/
theorem multiPushLeftDeltaOneAddsThenPushes : Obligations.MultiPushLeftDeltaOneAddsThenPushes := by
  intro s i q n vs r1 form hf hc sum read fit
  have hp : program i = .addTop (constant 1) :: pushRow q n := by fin_cases form <;> rfl
  exact (ComesToPushes.afterAdd hp (evalExpr_constant 1 s.rd) sum).completes hf hc read fit

/-- Settles O46: the increment's field is a UBV one whatever the row reads. -/
theorem multiPushLeftDeltaNAddsThenPushes : Obligations.MultiPushLeftDeltaNAddsThenPushes := by
  intro s i q n d vs r1 r2 form hf hc increment sum read fit
  have hp : program i = .addTop (fieldPlus .ubv 2) :: pushRow q n := by fin_cases form <;> rfl
  exact (ComesToPushes.afterAdd hp (evalExpr_of_read increment) sum).completes hf hc read fit

/-- Settles O47: PushN comes to its row with the count read and the increment made, and a row may be empty. -/
theorem pushNAddsThenPushesItsCount : Obligations.PushNAddsThenPushesItsCount := by
  intro s n d vs r1 r2 r3 hf count increment sum hc read fit
  have hrow : ComesToPushes s .pushN .ubvfp n.toNat (s.ps.added s.ps.cur d) r2 :=
    (runMicros_singleton _ _).trans
      (runMicro_countPush_of_increment _ count (evalExpr_of_read_unbiased increment) sum)
  exact hrow.completes hf hc read fit

/-- Settles O48: the guard loop runs over the levels that were active before the pushes, and only then is the count read. -/
theorem pushNAndNonTopologicalAdjustsThenPushes : Obligations.PushNAndNonTopologicalAdjustsThenPushes := by
  intro s gs n vs r1 r2 r3 hf guards sums count hc read fit
  have hloop : runMicro (.guardLoop (fieldPlus .varS32 1)) ⟨s.ps, s.rd⟩ = .ok ⟨s.ps.adjusted gs 1, r1⟩ :=
    runMicro_guardLoop_of_guards (by omega) guards sums
  have hrow : ComesToPushes s .pushNAndNonTopological .ubvfp n.toNat (s.ps.adjusted gs 1) r2 :=
    calc runMicros (program .pushNAndNonTopological) ⟨s.ps, s.rd⟩
      _ = runMicros [.countPush none (fieldPlus .ubvfp 0)] ⟨s.ps.adjusted gs 1, r1⟩ := runMicros_cons_ok hloop
      _ = runMicro (.countPush none (fieldPlus .ubvfp 0)) ⟨s.ps.adjusted gs 1, r1⟩ := runMicros_singleton _ _
      _ = pushTimes n.toNat (fieldPlus .ubvfp 0) ⟨s.ps.adjusted gs 1, r2⟩ := runMicro_countPush_of_read _ count
  exact hrow.completes hf hc read fit

end Sys2Proof.Machine
end

/-! # 44_pop.md

The pop operations (R132 to R142): each begins with a pop, and what stands after it is one addition, to the new top or to
SEG[0], or the guard loop over the levels that remain. -/

section
namespace Sys2Proof.Machine

/-! ### Popping too many levels -/

section
variable {s : State} {i : Instr} {ms : List Micro}

/-- Nothing is assumed of what stands after the pop: the underflow ends the operation before it (R132). -/
theorem exec_of_pop_underflow {n : Nat} (hp : program i = .pop n :: ms) (h : s.ps.cur < n) :
    exec i s = .next (s.faultedBy (.pathUnderflow s.ps.cur n)) := by
  apply exec_of_runMicros_error
  rw [hp]
  exact runMicros_cons_error (pop_error_iff.mpr ⟨h, rfl⟩)

theorem exec_of_popRead_underflow {q : Request} {n : Int} {r : Reader} (hp : program i = .popRead q :: ms)
    (count : s.rd.request q = some (n, r)) (h : s.ps.cur < n.toNat) :
    exec i s = .next (s.faultedBy (.pathUnderflow s.ps.cur n.toNat)) := by
  apply exec_of_runMicros_error
  rw [hp]
  exact runMicros_cons_error (popRead_error_iff.mpr (.inr ⟨n, r, count, h, rfl⟩))

end

/-- Settles O54: every operation that can pop too many levels pops first of all, by one level or by a count. -/
theorem poppingTooManyUnderflows : Obligations.PoppingTooManyUnderflows := by
  refine ⟨fun s hc i form => ?_, fun s n r1 count hc i form => ?_⟩
  · obtain ⟨ms, hp⟩ : ∃ ms, program i = .pop 1 :: ms := by
      fin_cases form <;> exact ⟨_, rfl⟩
    have hfault := exec_of_pop_underflow hp (hc ▸ Nat.one_pos)
    rwa [hc] at hfault
  · obtain ⟨hp, -⟩ := program_of_popRead i form
    exact exec_of_popRead_underflow hp count hc

/-! ### An operation's one addition -/

/-- Operation `i`, running in `s`, has popped `n` levels and read up to `r`, and comes to the addition of `e` to level `j`
that ends it, one of the levels that remain. -/
structure ComesToAdd (s : State) (i : Instr) (n j : Nat) (e : Expr) (r : Reader) : Prop where
  remains : j ≤ s.ps.cur - n
  run : runMicros (program i) ⟨s.ps, s.rd⟩ = addSeg j e ⟨s.ps.popped n, r⟩

section
variable {s : State} {i : Instr} {n j : Nat} {e : Expr} {r rd : Reader} {v : Int}

/-- A pop and then an addition to the new top (R134, R135, R140, R141). -/
theorem ComesToAdd.atTop {m : Micro} (hp : program i = [m, .addTop e])
    (hm : runMicro m ⟨s.ps, s.rd⟩ = .ok ⟨s.ps.popped n, r⟩) : ComesToAdd s i n (s.ps.cur - n) e r where
  remains := le_refl _
  run := by
    rw [hp, runMicros_cons_ok hm, runMicros_singleton]
    rfl

/-- The pop of all levels but SEG[0], which never underflows, and then an addition to that one (R136 to R139). -/
theorem ComesToAdd.atRoot (hp : program i = [.popAll, .addRoot e]) : ComesToAdd s i s.ps.cur 0 e s.rd where
  remains := Nat.zero_le _
  run := by
    have hpop : runMicro .popAll ⟨s.ps, s.rd⟩ = .ok ⟨s.ps.popped s.ps.cur, s.rd⟩ := pop_ok_iff.mpr ⟨le_refl _, rfl⟩
    rw [hp, runMicros_cons_ok hpop, runMicros_singleton]
    rfl

theorem ComesToAdd.exhausted (h : ComesToAdd s i n j e r) (he : evalExpr e r = none) :
    exec i s = .next (s.faultedBy .malformedStream) :=
  exec_of_runMicros_error (h.run.trans (addSeg_of_exhausted he))

/-- The sum is that of the level as it was before the pop. -/
theorem ComesToAdd.completes (h : ComesToAdd s i n j e r) (hf : s.ps.fin = false) (he : evalExpr e r = some (v, rd))
    (sum : s.ps.InRange (s.ps.seg.get j + v)) : exec i s = .next (s.completed ((s.ps.popped n).added j v) rd) := by
  rw [← popped_get s.ps n j h.remains] at sum
  have hadd : addSeg j e ⟨s.ps.popped n, r⟩ = .ok ⟨(s.ps.popped n).added j v, rd⟩ := addSeg_of_eval he sum
  exact exec_of_runMicros_completed (h.run.trans hadd) hf

/-- What the addition comes to once its right-hand side has its value: only the range of the sum decides. -/
theorem ComesToAdd.of_eval (h : ComesToAdd s i n j e r) (hf : s.ps.fin = false) (he : evalExpr e r = some (v, rd)) :
    (s.ps.InRange (s.ps.seg.get j + v) → exec i s = .next (s.completed ((s.ps.popped n).added j v) rd)) ∧
    (¬s.ps.InRange (s.ps.seg.get j + v) →
      exec i s = .next (s.faultedBy (.segmentRange j (s.ps.seg.get j + v)))) :=
  ⟨h.completes hf he, fun overrange =>
    exec_of_runMicros_error (h.run.trans (addSeg_popped_of_overrange h.remains he overrange))⟩

end

/-! ### The pops -/

/-- Settles O50: where there is a level to leave, both operations come to their addition with nothing read. -/
theorem popOnePopsThenAdds : Obligations.PopOnePopsThenAdds := by
  obtain ⟨underflow, -⟩ := poppingTooManyUnderflows
  refine ⟨⟨rfl, rfl⟩, ⟨rfl, rfl⟩, fun s hf => ⟨fun hc => ?_, fun hc => ?_⟩⟩
  · exact ⟨underflow s hc _ (by decide), underflow s hc _ (by decide)⟩
  · have hone : ComesToAdd s .popOnePlusOne 1 (s.ps.cur - 1) (constant 1) s.rd := .atTop rfl (runMicro_pop_one hc)
    have hfield : ComesToAdd s .popOnePlusN 1 (s.ps.cur - 1) (fieldPlus .ubvfp 1) s.rd :=
      .atTop rfl (runMicro_pop_one hc)
    obtain ⟨inRange, overrange⟩ := hone.of_eval hf (evalExpr_constant 1 s.rd)
    exact ⟨inRange, overrange, fun exhausted => hfield.exhausted (evalExpr_of_exhausted exhausted),
      fun d r1 read => hfield.of_eval hf (evalExpr_of_read read)⟩

/-- Settles O51: all four come to an addition to SEG[0] from every CUR, and the three with a field differ in its kind
only. -/
theorem popAllButOnePopsThenAdds : Obligations.PopAllButOnePopsThenAdds := by
  refine ⟨⟨rfl, rfl⟩, ⟨rfl, rfl⟩, ⟨rfl, rfl⟩, ⟨rfl, rfl⟩, fun s hf => ?_⟩
  have hone : ComesToAdd s .popAllButOnePlusOne s.ps.cur 0 (constant 1) s.rd := .atRoot rfl
  obtain ⟨inRange, overrange⟩ := hone.of_eval hf (evalExpr_constant 1 s.rd)
  refine ⟨inRange, overrange, fun i q form => ?_⟩
  have hp : program i = [.popAll, .addRoot (fieldPlus q 1)] := by fin_cases form <;> rfl
  have hfield : ComesToAdd s i s.ps.cur 0 (fieldPlus q 1) s.rd := .atRoot hp
  exact ⟨fun exhausted => hfield.exhausted (evalExpr_of_exhausted exhausted),
    fun d r1 read => hfield.of_eval hf (evalExpr_of_read read)⟩

/-- Settles O52: the count is asked for first; only where it fits does either operation come to its addition, and
PopNPlusN's signed field is read there. -/
theorem popNPopsItsCountThenAdds : Obligations.PopNPopsItsCountThenAdds := by
  obtain ⟨-, underflow⟩ := poppingTooManyUnderflows
  refine ⟨⟨rfl, rfl⟩, ⟨rfl, rfl⟩, fun s hf => ⟨fun exhausted => ?_, fun n r1 count => ⟨fun hc => ?_, fun fits => ?_⟩⟩⟩
  · exact ⟨exec_of_exhausted rfl rfl exhausted, exec_of_exhausted rfl rfl exhausted⟩
  · exact ⟨underflow s n r1 count hc _ (by decide), underflow s n r1 count hc _ (by decide)⟩
  · have hone : ComesToAdd s .popNPlusOne n.toNat (s.ps.cur - n.toNat) (constant 1) r1 :=
      .atTop rfl (runMicro_popRead_of_read count fits)
    have hfield : ComesToAdd s .popNPlusN n.toNat (s.ps.cur - n.toNat) (fieldPlus .varS32 0) r1 :=
      .atTop rfl (runMicro_popRead_of_read count fits)
    obtain ⟨inRange, overrange⟩ := hone.of_eval hf (evalExpr_constant 1 r1)
    exact ⟨inRange, overrange, fun exhausted => hfield.exhausted (evalExpr_of_exhausted exhausted),
      fun x r2 read => hfield.of_eval hf (evalExpr_of_read_unbiased read)⟩

/-- Settles O53: the guard loop runs in the path state that the pop leaves, so over the levels that remain. -/
theorem popNAndNonTopographicalPopsThenAdjusts : Obligations.PopNAndNonTopographicalPopsThenAdjusts := by
  intro s n gs r1 r2 hf hc count fits guards sums
  have hremain : (s.ps.popped n.toNat).cur ≤ 5 := (Nat.sub_le _ _).trans hc
  have hrun : runMicros (program .popNAndNonTopographical) ⟨s.ps, s.rd⟩ =
      .ok ⟨(s.ps.popped n.toNat).adjusted gs 0, r2⟩ :=
    calc runMicros (program .popNAndNonTopographical) ⟨s.ps, s.rd⟩
      _ = runMicros [.guardLoop (fieldPlus .varS32 0)] ⟨s.ps.popped n.toNat, r1⟩ :=
        runMicros_cons_ok (runMicro_popRead_of_read count fits)
      _ = .ok ⟨(s.ps.popped n.toNat).adjusted gs 0, r2⟩ :=
        runMicros_single (runMicro_guardLoop_of_guards hremain guards sums)
  exact exec_of_runMicros_completed hrun hf

end Sys2Proof.Machine
end

/-! # 45_nontopo_finish.md

The scans, the penultimate adjust and the terminal operation (R143 to R147): each is one micro-step, and of the three only
the scans ask anything of the reader. -/

section
namespace Sys2Proof.Machine

/-! ### Adjusting levels -/

/-- Settles O55: the two scans are the guard loop over the active levels and differ in their delta only. -/
theorem scansAdjustTheActiveLevels : Obligations.ScansAdjustTheActiveLevels := by
  intro s i q bias gs r1 form hf hc guards sums
  have hp : program i = [.guardLoop (fieldPlus q bias)] := by fin_cases form <;> rfl
  have hrun : runMicros (program i) ⟨s.ps, s.rd⟩ = .ok ⟨s.ps.adjusted gs bias, r1⟩ := by
    rw [hp]
    exact runMicros_single (runMicro_guardLoop_of_guards hc guards sums)
  exact exec_of_runMicros_completed hrun hf

/-- Settles O56: the adjust is all that the operation does, and it asks for a level below the top before it adds. -/
theorem penultimateAdjustAddsBelowTheTop : Obligations.PenultimateAdjustAddsBelowTheTop := by
  refine ⟨⟨rfl, rfl⟩, fun s hf => ?_⟩
  have hrun : runMicros (program .nonTopoPenultimatePlusOne) ⟨s.ps, s.rd⟩ = addPenultimate ⟨s.ps, s.rd⟩ :=
    runMicros_singleton .addPenultimate ⟨s.ps, s.rd⟩
  refine ⟨fun hc => ?_, fun hc sum => ?_, fun hc overrange => ?_⟩
  · exact exec_of_runMicros_error (hrun.trans (addPenultimate_error_iff.mpr (.inl ⟨hc, rfl⟩)))
  · have hadd : addPenultimate ⟨s.ps, s.rd⟩ = .ok ⟨s.ps.added (s.ps.cur - 1) 1, s.rd⟩ :=
      addPenultimate_ok_iff.mpr ⟨hc, sum, rfl⟩
    exact exec_of_runMicros_completed (hrun.trans hadd) hf
  · exact exec_of_runMicros_error (hrun.trans (addPenultimate_error_iff.mpr (.inr ⟨hc, overrange, rfl⟩)))

/-! ### The terminal operation -/

/-- Where FIN is all that an operation has changed, its end is DONE, and nothing is offered (R83). -/
theorem finishOperation_setFin (s : State) :
    finishOperation ((traceBefore s).moved ⟨s.ps.setFin, s.rd⟩) = s.terminated := by
  simp only [finishOperation, State.moved, State.terminated, State.opTrace, traceBefore, traceAfter, traced,
    PathState.setFin]
  by_cases htrace : s.traceEn = true <;> simp [htrace]

/-- Settles O57: the one micro-step sets FIN, from every state, and FIN is what the end of an operation asks for. -/
theorem finishSetsFinAndEndsTheDecode : Obligations.FinishSetsFinAndEndsTheDecode := by
  refine ⟨⟨rfl, rfl⟩, fun s => ?_⟩
  have hrun : runMicros (program .fieldPathEncodeFinish) ⟨s.ps, s.rd⟩ = .ok ⟨s.ps.setFin, s.rd⟩ :=
    runMicros_single (m := .setFin) rfl
  rw [exec_of_runMicros_ok hrun, finishOperation_setFin]

end Sys2Proof.Machine
end

/-! # 60_exceptions.md

Waiting (R168), the faults that an operation can raise and which of them it takes (R153, R155, R156), the reader's requests
(R163), and what a decode does not depend on (R164, R171). -/

/-! ## Waiting -/

section
namespace Sys2Proof.Machine

/-- Settles O15: outside RUN a step is the host's moves alone, and a tick is a step. -/
theorem waitingStatesKeepTheirState : Obligations.WaitingStatesKeepTheirState := by
  intro s hr hs he
  have hstep : step s = .next (loadReader s.pins s.popPins) := by
    rw [step, stepWith_of_not_busy (s := s.popPins) hr (State.not_busy_of_waiting he), hostMoves, hs]
    rfl
  have htick : tick s = step s := by
    refine tickWith_eq_stepWith (s := s.popPins) (.inr ?_)
    rcases he with he | he | he <;> simp [he]
  exact ⟨hstep, htick.trans hstep⟩

end Sys2Proof.Machine
end

/-! ## The first failing micro-step -/

section
namespace Sys2Proof.Machine

/-! ### Micro-steps come to an end -/

/-- Wherever they begin, these micro-steps run out, or raise a fault, after finitely many. -/
def TicksEnd (ms : List Micro) : Prop := ∀ c, ∃ k, microTicks k ms c = none

theorem ticksEnd_nil : TicksEnd [] := fun _ => ⟨1, rfl⟩

section
variable {m : Micro} {ms : List Micro}

/-- Micro-steps end if what the first of them leaves does. -/
theorem TicksEnd.of_tick (h : ∀ c c' left, microTick m ms c = .ok (c', left) → TicksEnd left) :
    TicksEnd (m :: ms) := by
  intro c
  cases hm : microTick m ms c with
  | error f => exact ⟨1, by simp only [microTicks, hm]⟩
  | ok p =>
    obtain ⟨c', left⟩ := p
    obtain ⟨k, hk⟩ := h c c' left hm c'
    exact ⟨k + 1, by simp only [microTicks, hm, hk]⟩

/-- What is no loop is one micro-step. -/
theorem TicksEnd.cons_plain (hm : ∀ c, microTick m ms c = plainMicro m ms c) (h : TicksEnd ms) :
    TicksEnd (m :: ms) := by
  refine .of_tick fun c c' left ht => ?_
  rw [hm, plainMicro] at ht
  split at ht
  · cases ht
  · cases ht
    exact h

theorem TicksEnd.cons_pushes (e : Expr) (h : TicksEnd ms) : ∀ n, TicksEnd (.pushes n e :: ms)
  | 0 => .of_tick fun c c' left ht => by
    cases ht
    exact h
  | n + 1 => .of_tick fun c c' left ht => by
    cases ht
    exact .cons_plain (fun _ => rfl) (.cons_plain (fun _ => rfl) (h.cons_pushes e n))

theorem TicksEnd.cons_guardsLeft (e : Expr) (h : TicksEnd ms) : ∀ k i, TicksEnd (.guardsLeft k i e :: ms)
  | 0, _ => .of_tick fun c c' left ht => by
    cases ht
    exact h
  | k + 1, i => .of_tick fun c c' left ht => by
    have hnext : TicksEnd (.guardsLeft k (i + 1) e :: ms) := h.cons_guardsLeft e k (i + 1)
    rw [microTick] at ht
    split at ht
    · cases ht
    · split at ht
      · cases ht
        exact .cons_plain (fun _ => rfl) hnext
      · cases ht
        exact hnext

theorem TicksEnd.cons_countPush (increment : Option Expr) (e : Expr) (h : TicksEnd ms) :
    TicksEnd (.countPush increment e :: ms) := by
  refine .of_tick fun c c' left ht => ?_
  rw [microTick] at ht
  split at ht
  · cases ht
  · cases increment with
    | none =>
      cases ht
      exact h.cons_pushes e _
    | some d =>
      cases ht
      exact .cons_plain (fun _ => rfl) (h.cons_pushes e _)

theorem TicksEnd.cons (h : TicksEnd ms) : TicksEnd (m :: ms) := by
  cases m with
  | countPush increment e => exact h.cons_countPush increment e
  | pushes n e => exact h.cons_pushes e n
  | guardLoop e =>
    refine .of_tick fun c c' left ht => ?_
    cases ht
    exact h.cons_guardsLeft e _ 0
  | guardsLeft k i e => exact h.cons_guardsLeft e k i
  | addTop | addRoot | addPenultimate | enter | setTop | pop | popAll | popRead | addLevel | setFin =>
    exact h.cons_plain fun _ => rfl

end

theorem ticksEnd (ms : List Micro) : TicksEnd ms := by
  induction ms with
  | nil => exact ticksEnd_nil
  | cons m ms ih => exact ih.cons

/-! ### The fault of micro-steps is that of one of them -/

/-- After some number of micro-steps that raise nothing, the next one raises `f` (R156). -/
def FaultsAtTick (ms : List Micro) (c : OpCtx) (f : FaultInfo) : Prop :=
  ∃ k c' m rest, microTicks k ms c = some (c', m :: rest) ∧ microTick m rest c' = .error f

theorem FaultsAtTick.runMicros {ms : List Micro} {c : OpCtx} {f : FaultInfo} (h : FaultsAtTick ms c f) :
    runMicros ms c = .error f := by
  obtain ⟨k, c', m, rest, hticks, hfault⟩ := h
  exact (microTicks_ok k ms (m :: rest) c c' hticks).trans (microTick_error hfault)

theorem FaultsAtTick.of_tick {m : Micro} {ms left : List Micro} {c c' : OpCtx} {f : FaultInfo}
    (ht : microTick m ms c = .ok (c', left)) (h : FaultsAtTick left c' f) : FaultsAtTick (m :: ms) c f := by
  obtain ⟨k, d, m', rest, hticks, hfault⟩ := h
  exact ⟨k + 1, d, m', rest, by simp only [microTicks, ht, hticks], hfault⟩

/-- Each micro-step leaves the fault that the rest of them raises, so it is met before they have all run. -/
theorem faultsAtTick_of_runMicros {f : FaultInfo} (k : Nat) : ∀ (ms : List Micro) (c : OpCtx),
    microTicks k ms c = none → runMicros ms c = .error f → FaultsAtTick ms c f := by
  induction k with
  | zero => exact fun ms c hend _ => nomatch hend
  | succ k ih =>
    intro ms c hend hrun
    cases ms with
    | nil => cases hrun
    | cons m ms =>
      cases ht : microTick m ms c with
      | error g =>
        obtain rfl : g = f := Except.error.inj ((microTick_error ht).symm.trans hrun)
        exact ⟨0, c, m, ms, rfl, ht⟩
      | ok p =>
        obtain ⟨c', left⟩ := p
        simp only [microTicks, ht] at hend
        exact .of_tick ht (ih left c' hend ((microTick_ok ht).symm.trans hrun))

theorem runMicros_error_iff {ms : List Micro} {c : OpCtx} {f : FaultInfo} :
    runMicros ms c = .error f ↔ FaultsAtTick ms c f := by
  obtain ⟨k, hend⟩ := ticksEnd ms c
  exact ⟨faultsAtTick_of_runMicros k ms c hend, FaultsAtTick.runMicros⟩

/-! ### The fault that an operation takes -/

/-- An operation that ends in FAULT has taken the fault of its micro-steps. -/
theorem exec_faulted {i : Instr} {s t : State} (h : exec i s = .next t) (he : t.estate = .fault) :
    ∃ f, runMicros (program i) ⟨s.ps, s.rd⟩ = .error f ∧ t = s.faultedBy f := by
  cases hrun : runMicros (program i) ⟨s.ps, s.rd⟩ with
  | error f =>
    rw [exec_of_runMicros_error hrun] at h
    cases h
    exact ⟨f, rfl, rfl⟩
  | ok c =>
    rw [exec_of_runMicros_ok hrun] at h
    cases h
    obtain ⟨hend, -⟩ | ⟨hend, -⟩ := finishOperation_ends ((traceBefore s).moved c)
    · cases hend.symm.trans he
    · cases hend.symm.trans he

/-- Settles O60, by `runMicros_error_iff`; of R156's examples the first faults at its first micro-step, the second at its
push, before the value is asked for, and the third at its pop. -/
theorem firstFailingMicroStepDecidesTheFault : Obligations.FirstFailingMicroStepDecidesTheFault := by
  refine ⟨fun s i k c m rest f hticks hfault => ?_, fun s t i h he => ?_, fun s _ exhausted => ?_,
    fun s d r1 hc increment _ sum => ?_, fun s n r1 count _ hc => ?_⟩
  · exact exec_of_runMicros_error (runMicros_error_iff.mpr ⟨k, c, m, rest, hticks, hfault⟩)
  · obtain ⟨f, hrun, rfl⟩ := exec_faulted h he
    obtain ⟨k, c, m, rest, hticks, hfault⟩ := runMicros_error_iff.mp hrun
    exact ⟨k, c, m, rest, f, hticks, hfault, rfl⟩
  · exact exec_of_exhausted rfl rfl exhausted
  · exact (ComesToPush.afterAdd rfl (evalExpr_of_read increment) (hc ▸ sum)).overflow hc
  · exact exec_of_popRead_underflow rfl count hc

end Sys2Proof.Machine
end

/-! ## The faults that an operation can raise -/

section
namespace Sys2Proof.Machine

/-! ### The faults of a micro-step -/

/-- Whether a right-hand side is a value from 0 to 2^31 - 1, whatever is read (R40, R42). -/
def isSmall (e : Expr) : Bool := e == constant 0 || e == fieldPlus .ubvfp 0 || e == fieldPlus (.bits 5) 0

/-- The fault of a right-hand side (R150). -/
def evalFaults (e : Expr) : List FKind := if e.field.isSome then [.malformedStream] else []

/-- The faults of `SEG[i] <- SEG[i] + e`. -/
def addFaults (e : Expr) : List FKind := .segmentRange :: evalFaults e

/-- The faults of `SEG[CUR] <- e`, where `wide` says that SEG_MAX is at least 2^31 - 1. -/
def setTopFaults (wide : Bool) (e : Expr) : List FKind :=
  if wide && isSmall e then evalFaults e else .segmentRange :: evalFaults e

def pushFaults (wide : Bool) (e : Expr) : List FKind := .pathOverflow :: setTopFaults wide e

/-- The fault kinds that a micro-step can raise (R150, R151, R152, R154). -/
def microFaults (wide : Bool) : Micro → List FKind
  | .addTop e => addFaults e
  | .addRoot e => addFaults e
  | .addPenultimate => [.pathUnderflow, .segmentRange]
  | .enter => [.pathOverflow]
  | .setTop e => setTopFaults wide e
  | .pop _ => [.pathUnderflow]
  | .popAll => []
  | .popRead _ => [.malformedStream, .pathUnderflow]
  | .countPush none e => .malformedStream :: pushFaults wide e
  | .countPush (some d) e => .malformedStream :: (addFaults d ++ pushFaults wide e)
  | .pushes _ e => pushFaults wide e
  | .guardLoop e => .malformedStream :: addFaults e
  | .guardsLeft _ _ e => .malformedStream :: addFaults e
  | .addLevel _ e => addFaults e
  | .setFin => []

/-- Whether SEG_MAX is at least 2^31 - 1. -/
def SegRange.isWide (range : SegRange) : Bool := range.holds 2147483647

section
variable {e : Expr} {c c' : OpCtx} {f : FaultInfo}

theorem mem_evalFaults (h : evalExpr e c.rd = none) : FKind.malformedStream ∈ evalFaults e := by
  obtain ⟨field, bias⟩ := e
  cases field with
  | none => cases h
  | some q => exact List.mem_singleton_self _

/-- A UBVFP field and five bits, as they are read, are small. -/
theorem evalExpr_small {rd rd' : Reader} {v : Int} (hsmall : isSmall e = true) (h : evalExpr e rd = some (v, rd')) :
    0 ≤ v ∧ v ≤ 2147483647 := by
  have field {q : Request} (h : evalExpr (fieldPlus q 0) rd = some (v, rd')) : fieldAdmits q v = true := by
    cases hread : rd.request q with
    | none =>
      rw [evalExpr_of_exhausted hread] at h
      cases h
    | some p =>
      obtain ⟨w, r⟩ := p
      rw [evalExpr_of_read_unbiased hread] at h
      cases h
      exact Reader.request_admits q rd _ _ hread
  simp only [isSmall, Bool.or_eq_true, beq_iff_eq] at hsmall
  obtain (rfl | rfl) | rfl := hsmall
  · rw [evalExpr_constant] at h
    cases h
    decide
  · have := field h
    simp only [fieldAdmits, decide_eq_true_eq] at this
    omega
  · have := field h
    simp only [fieldAdmits, decide_eq_true_eq] at this
    omega

theorem addSeg_faults {i : Nat} (h : addSeg i e c = .error f) : f.kind ∈ addFaults e := by
  obtain ⟨hnone, rfl⟩ | ⟨v, rd, -, -, rfl⟩ := addSeg_error_iff.mp h
  · exact List.mem_cons_of_mem _ (mem_evalFaults hnone)
  · exact List.mem_cons_self

theorem setTop_faults (h : setTop e c = .error f) : f.kind ∈ setTopFaults c.ps.range.isWide e := by
  unfold setTopFaults
  obtain ⟨hnone, rfl⟩ | ⟨v, rd, hv, hout, rfl⟩ := setTop_error_iff.mp h
  · have hmem := mem_evalFaults hnone
    split
    · exact hmem
    · exact List.mem_cons_of_mem _ hmem
  · split
    · rename_i hfits
      obtain ⟨hwide, hsmall⟩ := Bool.and_eq_true_iff.mp hfits
      obtain ⟨hlow, hhigh⟩ := evalExpr_small hsmall hv
      exact absurd (SegRange.holds_between c.ps.range.holds_zero hwide hlow hhigh) hout
    · exact List.mem_cons_self

theorem push_faults (h : push e c = .error f) : f.kind ∈ pushFaults c.ps.range.isWide e := by
  unfold push at h
  split at h
  · rename_i g hg
    cases h
    obtain ⟨-, rfl⟩ := enter_error_iff.mp hg
    exact List.mem_cons_self
  · rename_i d hd
    obtain ⟨-, rfl⟩ := enter_ok_iff.mp hd
    exact List.mem_cons_of_mem _ (setTop_faults (c := ⟨{ c.ps with cur := c.ps.cur + 1 }, c.rd⟩) h)

theorem pushTimes_faults : ∀ (n : Nat) {c : OpCtx}, pushTimes n e c = .error f →
    f.kind ∈ pushFaults c.ps.range.isWide e
  | 0, _, h => nomatch h
  | n + 1, c, h => by
    unfold pushTimes at h
    split at h
    · rename_i g hg
      cases h
      exact push_faults hg
    · rename_i d hd
      obtain ⟨-, -, -, hrange⟩ := push_onward hd
      exact hrange ▸ pushTimes_faults n h

theorem guardLevels_faults : ∀ (k i : Nat) {c : OpCtx}, guardLevels k i e c = .error f →
    f.kind ∈ FKind.malformedStream :: addFaults e
  | 0, _, _, h => nomatch h
  | k + 1, i, c, h => by
    unfold guardLevels at h
    split at h
    · cases h
      exact List.mem_cons_self
    · split at h
      · split at h
        · rename_i g hg
          cases h
          exact List.mem_cons_of_mem _ (addSeg_faults hg)
        · exact guardLevels_faults k (i + 1) h
      · exact guardLevels_faults k (i + 1) h

theorem countPush_faults {increment : Option Expr} (h : countPush increment e c = .error f) :
    f.kind ∈ microFaults c.ps.range.isWide (.countPush increment e) := by
  unfold countPush at h
  split at h
  · cases h
    cases increment <;> exact List.mem_cons_self
  · rename_i n rd hread
    cases increment with
    | none => exact List.mem_cons_of_mem _ (pushTimes_faults (c := ⟨c.ps, rd⟩) n.toNat h)
    | some d =>
      refine List.mem_cons_of_mem _ (List.mem_append.mpr ?_)
      dsimp only at h
      split at h
      · rename_i g hg
        cases h
        exact .inl (addSeg_faults hg)
      · rename_i c' hc'
        obtain ⟨-, -, -, hrange⟩ := addSeg_onward hc'
        exact .inr (hrange ▸ pushTimes_faults _ h)

/-- Every fault of a micro-step is one of its kinds. -/
theorem runMicro_faults {m : Micro} (h : runMicro m c = .error f) : f.kind ∈ microFaults c.ps.range.isWide m := by
  cases m with
  | addTop e => exact addSeg_faults h
  | addRoot e => exact addSeg_faults h
  | addLevel i e => exact addSeg_faults h
  | addPenultimate =>
    obtain ⟨-, rfl⟩ | ⟨-, -, rfl⟩ := addPenultimate_error_iff.mp h
    · exact List.mem_cons_self
    · exact List.mem_cons_of_mem _ List.mem_cons_self
  | enter =>
    obtain ⟨-, rfl⟩ := enter_error_iff.mp h
    exact List.mem_cons_self
  | setTop e => exact setTop_faults h
  | pop n =>
    obtain ⟨-, rfl⟩ := pop_error_iff.mp h
    exact List.mem_cons_self
  | popAll => exact absurd (pop_error_iff.mp h).1 (lt_irrefl _)
  | popRead q =>
    obtain ⟨-, rfl⟩ | ⟨n, rd, -, -, rfl⟩ := popRead_error_iff.mp h
    · exact List.mem_cons_self
    · exact List.mem_cons_of_mem _ List.mem_cons_self
  | countPush increment e => exact countPush_faults h
  | pushes n e => exact pushTimes_faults n h
  | guardLoop e => exact guardLevels_faults _ 0 h
  | guardsLeft k i e => exact guardLevels_faults k i h
  | setFin => cases h

/-- The fault of micro-steps in order is a fault of one of them. -/
theorem runMicros_faults : ∀ {ms : List Micro} {c : OpCtx}, runMicros ms c = .error f →
    ∃ m ∈ ms, f.kind ∈ microFaults c.ps.range.isWide m
  | [], _, h => nomatch h
  | m :: ms, c, h => by
    cases hm : runMicro m c with
    | error g =>
      rw [runMicros_cons_error hm] at h
      cases h
      exact ⟨m, List.mem_cons_self, runMicro_faults hm⟩
    | ok d =>
      rw [runMicros_cons_ok hm] at h
      obtain ⟨m', hmem, hkind⟩ := runMicros_faults h
      obtain ⟨-, -, -, hrange⟩ := runMicro_onward hm
      exact ⟨m', List.mem_cons_of_mem _ hmem, hrange ▸ hkind⟩

end

/-! ### The table of R155 -/

/-- With SEG_MAX wide enough, the table lists every fault of every micro-step of an operation's pseudocode. -/
theorem microFaults_program_subset (i : Instr) : ∀ m ∈ program i, ∀ k ∈ microFaults true m, k ∈ faultsOf i := by
  cases i <;> decide

/-- Settles O36: the fault is that of a micro-step of the pseudocode, and the table lists it. -/
theorem operationsRaiseOnlyTheirFaults : Obligations.OperationsRaiseOnlyTheirFaults := by
  intro i s t hwide h he
  obtain ⟨f, hrun, rfl⟩ := exec_faulted h he
  obtain ⟨m, hmem, hkind⟩ := runMicros_faults hrun
  have htrue : s.ps.range.isWide = true := hwide
  rw [htrue] at hkind
  exact microFaults_program_subset i m hmem _ hkind

end Sys2Proof.Machine
end

/-! ## Steps from a state with the invariant -/

section
namespace Sys2Proof.Machine

/-- No micro-step raises UnknownSymbol: only the selection does (R81, R153). -/
theorem unknownSymbol_notMem_microFaults (wide : Bool) (m : Micro) : FKind.unknownSymbol ∉ microFaults wide m := by
  have heval (e : Expr) : FKind.unknownSymbol ∉ evalFaults e := by
    unfold evalFaults
    split <;> decide
  have hadd (e : Expr) : FKind.unknownSymbol ∉ addFaults e := by simp [addFaults, heval]
  have hsetTop (e : Expr) : FKind.unknownSymbol ∉ setTopFaults wide e := by
    unfold setTopFaults
    split <;> simp [heval]
  cases m with
  | countPush increment e => cases increment <;> simp [microFaults, pushFaults, hadd, hsetTop]
  | _ => simp [microFaults, pushFaults, hadd, hsetTop]

theorem runMicros_kind_ne_unknownSymbol {ms : List Micro} {c : OpCtx} {f : FaultInfo}
    (h : runMicros ms c = .error f) : f.kind ≠ .unknownSymbol := by
  obtain ⟨m, -, hkind⟩ := runMicros_faults h
  exact fun hunknown => unknownSymbol_notMem_microFaults _ m (hunknown ▸ hkind)

/-- An outcome of `s` is a next state, whose FKIND is UnknownSymbol only if that of `s` is. -/
def GoesOnKnown (s : State) (o : Host.Outcome State Fault Refusal) : Prop :=
  ∃ t, o = .next t ∧ (t.fkind = .unknownSymbol → s.fkind = .unknownSymbol)

section
variable {s t : State} {p : Pins}

theorem goesOnKnown_of_fkind (h : t.fkind = s.fkind) : GoesOnKnown s (.next t) := ⟨t, rfl, fun hu => h ▸ hu⟩

theorem goesOnKnown_of_known (h : t.fkind ≠ .unknownSymbol) : GoesOnKnown s (.next t) :=
  ⟨t, rfl, fun hu => absurd hu h⟩

/-- The rest of an operation raises no UnknownSymbol. -/
theorem goesOnKnown_resume (ms : List Micro) (s : State) : GoesOnKnown s (resume ms s) := by
  unfold resume
  cases hrun : runMicros ms ⟨s.ps, s.rd⟩ with
  | ok c => exact goesOnKnown_of_fkind rfl
  | error f => exact goesOnKnown_of_known (runMicros_kind_ne_unknownSymbol hrun)

/-- Nor does it without an answer, which raises what it raises with one. -/
theorem goesOnKnown_resumeUnasked (ms : List Micro) (s : State) : GoesOnKnown s (resumeUnasked ms s) := by
  obtain ⟨c, hu, -⟩ | ⟨f, hu, hf⟩ | ⟨ps, m, left, -, hu, -⟩ := resumeUnasked_cases ms s
  · exact hu ▸ goesOnKnown_of_fkind rfl
  · rw [hu, ← hf]
    exact goesOnKnown_resume ms s
  · exact hu ▸ goesOnKnown_of_fkind rfl

/-- While an operation executes, the selection has a kind to choose (R81, R173). -/
theorem goesOnKnown_select (h : Executing s) : GoesOnKnown s (runFetched (select s)) := by
  obtain ⟨i, hi⟩ := h.select_eq
  rw [hi, runFetched, exec_eq_runOperation]
  exact goesOnKnown_resume (program i) (traceBefore s)

theorem goesOnKnown_executeUnanswered (h : Executing s) : GoesOnKnown s (executeUnanswered s) := by
  unfold executeUnanswered
  cases s.mstep with
  | some ms => exact goesOnKnown_resumeUnasked ms s
  | none =>
    obtain ⟨i, hi⟩ := h.select_eq
    rw [hi]
    exact goesOnKnown_resumeUnasked (program i) (traceBefore s)

/-- With consistent ROMs the walk ends at an operation with a kind, or runs out of bits. -/
theorem State.Inv.goesOnKnown_fetch (h : s.Inv) (he : s.estate = .run .traverse) :
    GoesOnKnown s (runFetched (fetch s)) := by
  have hs : Sound s := h.sound (by simp [he])
  unfold fetch
  obtain ⟨op, n, hwalk, hop⟩ | hwalk := walk_ok h.rom s.rd.rest s.node 0 (h.nodeTraverse he)
  · rw [hwalk]
    exact goesOnKnown_select (executing_atLeaf hs n hop)
  · rw [hwalk]
    exact goesOnKnown_of_known nofun

theorem State.Inv.goesOnKnown_traverseUnanswered (h : s.Inv) (he : s.estate = .run .traverse) :
    GoesOnKnown s (traverseUnanswered s) := by
  have hs : Sound s := h.sound (by simp [he])
  unfold traverseUnanswered
  cases hnode : s.rom.tree[s.node]? with
  | none => exact absurd (h.nodeTraverse he) (List.getElem?_eq_none_iff.mp hnode).not_gt
  | some node =>
    cases node with
    | leaf op => exact goesOnKnown_executeUnanswered (executing_atLeaf hs 0 (node_ok h.rom hnode))
    | internal c0 c1 => exact goesOnKnown_of_fkind rfl

theorem goesOnKnown_hostMoves (p : Pins) (s : State) : GoesOnKnown s (.next (hostMoves p s)) := by
  unfold hostMoves
  split
  · exact goesOnKnown_of_known nofun
  · exact goesOnKnown_of_fkind rfl

theorem goesOnKnown_emitMoves (p : Pins) (s : State) : GoesOnKnown s (.next (emitMoves p s)) := by
  unfold emitMoves
  split <;> exact goesOnKnown_of_fkind rfl

/-- In phase EXECUTE, whether the operation has begun or not, answered or not. -/
theorem State.Inv.goesOnKnown_execute (h : s.Inv) (hr : p.rst = false) (he : s.estate = .run .execute) :
    GoesOnKnown s (stepWith p s) := by
  cases hv : p.rdValid with
  | false =>
    rw [stepWith_of_execute_unanswered hr he hv]
    exact goesOnKnown_executeUnanswered (h.executing he)
  | true =>
    cases hm : s.mstep with
    | none =>
      rw [stepWith_of_selected hr he hv hm]
      exact goesOnKnown_select (h.executing he)
    | some ms =>
      rw [stepWith_of_begun hr he hv hm]
      exact goesOnKnown_resume ms s

theorem State.Inv.goesOnKnown_stepWith (h : s.Inv) (p : Pins) : GoesOnKnown s (stepWith p s) := by
  cases hr : p.rst with
  | true =>
    rw [stepWith_of_rst hr]
    exact goesOnKnown_of_known nofun
  | false =>
    cases hb : s.busy with
    | false =>
      rw [stepWith_of_not_busy hr hb]
      exact goesOnKnown_hostMoves p s
    | true =>
      obtain ⟨phase, he⟩ := State.busy_iff.mp hb
      cases phase with
      | traverse =>
        rw [stepWith_of_traverse hr he (h.finTraverse he)]
        split
        · exact h.goesOnKnown_fetch he
        · exact h.goesOnKnown_traverseUnanswered he
      | execute => exact h.goesOnKnown_execute hr he
      | emit =>
        rw [stepWith_of_emit hr he]
        exact goesOnKnown_emitMoves p s

end

/-- Settles O27: with the invariant every walk and every selection finds an operation, and no operation raises
UnknownSymbol. -/
theorem invariantStatesStepWithoutUnknownSymbol : Obligations.InvariantStatesStepWithoutUnknownSymbol :=
  fun s h => (inv_popPins h).goesOnKnown_stepWith s.pins

end Sys2Proof.Machine
end

/-! ## What a decode does not depend on -/

section
namespace Sys2Proof.Machine

/-! ### The same place, but for the history -/

/-- `s` with another trace port, another count of earlier faults and another OPIDX (R26, R164, R171). -/
def State.withHistory (s : State) (opidx : Nat) (traceEn : Bool) (trace : List TraceEvent) (draws : Nat) : State :=
  { s with opidx := opidx, traceEn := traceEn, trace := trace, draws := draws }

/-- Look the same from outside, and, short of a fault, are in the same place of the same decode. -/
structure Alike (s t : State) : Prop where
  outside : SameOutside s t
  decode : s.estate ≠ .fault → SameDecode s t

section
variable {s t : State} {p : Pins}

theorem SameDecode.exists_withHistory (h : SameDecode s t) :
    ∃ o e tr d, t = s.withHistory o e tr d ∧ (s.estate = .run .execute → s.opidx = o) := by
  refine ⟨t.opidx, t.traceEn, t.trace, t.draws, ?_, h.opidx⟩
  obtain ⟨hps, hnode, hmstep, hestate, hfkind, hout, hrom, hrd, hhost, hrest, -⟩ := h
  simp only [State.withHistory, hps, hnode, hmstep, hestate, hfkind, hout, hrom, hrd, hhost, hrest]

theorem sameDecode_withHistory {o : Nat} (e : Bool) (tr : List TraceEvent) (d : Nat)
    (h : s.estate = .run .execute → s.opidx = o) : SameDecode s (s.withHistory o e tr d) :=
  ⟨rfl, rfl, rfl, rfl, rfl, rfl, rfl, rfl, rfl, rfl, h⟩

theorem SameDecode.alike (h : SameDecode s t) : Alike s t where
  outside := ⟨h.estate, h.fkind, h.out, h.rom, congrArg (·.stream) h.rd, congrArg (·.br) h.rd, congrArg (·.range) h.ps,
    h.host, h.hostRest⟩
  decode _ := h

/-! ### The parts of a step -/

theorem SameDecode.pins_eq (h : SameDecode s t) : t.pins = s.pins := by
  rw [State.pins, State.pins, h.host, h.hostRest]

theorem SameDecode.popPins (h : SameDecode s t) : SameDecode s.popPins t.popPins :=
  { h with host := congrArg List.tail h.host }

theorem SameDecode.loadReader (h : SameDecode s t) (p : Pins) : SameDecode (loadReader p s) (loadReader p t) :=
  { h with rd := congrArg (·.placed p.load) h.rd }

/-- After START, and after RST, no operation uses OPIDX. -/
theorem SameDecode.startDecode (h : SameDecode s t) : SameDecode (startDecode s) (startDecode t) := by
  obtain ⟨o, e, tr, d, rfl, -⟩ := h.exists_withHistory
  exact sameDecode_withHistory (s := Machine.startDecode s) e tr d nofun

theorem SameDecode.resetMoves (h : SameDecode s t) (p : Pins) : SameDecode (resetMoves p s) (resetMoves p t) := by
  obtain ⟨o, e, tr, d, rfl, -⟩ := h.exists_withHistory
  exact sameDecode_withHistory (s := Machine.resetMoves p s) e tr (d + 1) nofun

theorem SameDecode.hostMoves (h : SameDecode s t) (p : Pins) : SameDecode (hostMoves p s) (hostMoves p t) := by
  unfold Machine.hostMoves
  split
  · exact (h.loadReader p).startDecode
  · exact h.loadReader p

theorem SameDecode.emitMoves (h : SameDecode s t) (p : Pins) : SameDecode (emitMoves p s) (emitMoves p t) := by
  unfold Machine.emitMoves
  split
  · obtain ⟨o, e, tr, d, rfl, -⟩ := h.exists_withHistory
    exact sameDecode_withHistory (s := acceptSnapshot s) e tr d nofun
  · exact h

/-- A leaf sets OPIDX, stale or not (R79). -/
theorem SameDecode.atLeaf (h : SameDecode s t) (op n : Nat) : SameDecode (atLeaf op n s) (atLeaf op n t) := by
  obtain ⟨o, e, tr, d, rfl, -⟩ := h.exists_withHistory
  exact sameDecode_withHistory (s := Machine.atLeaf op n s) e tr d fun _ => rfl

theorem SameDecode.traceBefore (h : SameDecode s t) : SameDecode (traceBefore s) (traceBefore t) := { h with }

/-- Inside an operation the path state, the reader and MSTEP move alike. -/
theorem SameDecode.moved (h : SameDecode s t) (c : OpCtx) (mstep : Option (List Micro)) :
    SameDecode { s with ps := c.ps, rd := c.rd, mstep := mstep } { t with ps := c.ps, rd := c.rd, mstep := mstep } :=
  { h with ps := rfl, rd := rfl, mstep := rfl }

theorem SameDecode.finishOperation (h : SameDecode s t) : SameDecode (finishOperation s) (finishOperation t) where
  ps := h.ps
  node := h.node
  mstep := rfl
  estate := by simp only [finishOperation_estate, h.ps]
  fkind := h.fkind
  out := h.out
  rom := h.rom
  rd := h.rd
  host := h.host
  hostRest := h.hostRest
  opidx hexecute := by
    rw [finishOperation_estate] at hexecute
    split at hexecute <;> cases hexecute

/-- What a fault leaves unspecified depends on the history, but does not show (R157). -/
theorem SameDecode.raiseFault (h : SameDecode s t) (f : FaultInfo) : Alike (raiseFault f s) (raiseFault f t) where
  outside := ⟨rfl, rfl, h.out, h.rom, congrArg (·.stream) h.rd, congrArg (·.br) h.rd, congrArg (·.range) h.ps, h.host,
    h.hostRest⟩
  decode he := absurd rfl he

/-- With FIN set there is no further operation in phase TRAVERSE (R85). -/
theorem stepWith_of_fin (hr : p.rst = false) (he : s.estate = .run .traverse) (hf : s.ps.fin = true) :
    stepWith p s = .next { s with estate := .done } := by
  simp [stepWith, hr, he, hf]

/-! ### Outcomes -/

/-- Where the first outcome is a next state, the second is one too, alike. -/
def LeadAlike (o o' : Host.Outcome State Fault Refusal) : Prop :=
  ∀ s', o = .next s' → ∃ t', o' = .next t' ∧ Alike s' t'

theorem Alike.lead (h : Alike s t) : LeadAlike (.next s) (.next t) := by
  rintro _ ⟨⟩
  exact ⟨t, rfl, h⟩

theorem SameDecode.lead (h : SameDecode s t) : LeadAlike (.next s) (.next t) := h.alike.lead

theorem leadAlike_fault (f : Fault) (o : Host.Outcome State Fault Refusal) : LeadAlike (.fault f) o :=
  fun _ h => nomatch h

theorem SameDecode.lead_resume (h : SameDecode s t) (ms : List Micro) : LeadAlike (resume ms s) (resume ms t) := by
  unfold resume
  rw [← h.ps, ← h.rd]
  cases runMicros ms ⟨s.ps, s.rd⟩ with
  | ok c => exact (h.moved c s.mstep).finishOperation.lead
  | error f => exact (h.raiseFault _).lead

theorem SameDecode.lead_resumeUnasked (h : SameDecode s t) (ms : List Micro) :
    LeadAlike (resumeUnasked ms s) (resumeUnasked ms t) := by
  unfold resumeUnasked
  rw [← h.ps, ← h.rd]
  cases runUnasked ms ⟨s.ps, s.rd⟩ with
  | error f => exact (h.raiseFault _).lead
  | ok q =>
    obtain ⟨c, left⟩ := q
    cases left with
    | nil => exact (h.moved c s.mstep).finishOperation.lead
    | cons m left => exact (h.moved c _).lead

/-- While an operation executes, the selection is the same (R80, R81). -/
theorem SameDecode.select_cases (h : SameDecode s t) (he : s.estate = .run .execute) :
    (∃ i, select s = .run i s ∧ select t = .run i t) ∨ ∃ f, select s = .raise f s ∧ select t = .raise f t := by
  unfold select
  rw [← h.rom, ← h.opidx he]
  cases s.rom.kindOf s.opidx with
  | none => exact .inr ⟨_, rfl, rfl⟩
  | some i => exact .inl ⟨i, rfl, rfl⟩

theorem SameDecode.lead_select (h : SameDecode s t) (he : s.estate = .run .execute) :
    LeadAlike (runFetched (select s)) (runFetched (select t)) := by
  obtain ⟨i, hs, ht⟩ | ⟨f, hs, ht⟩ := h.select_cases he
  · simp only [hs, ht, runFetched, exec_eq_runOperation]
    exact h.traceBefore.lead_resume (program i)
  · rw [hs, ht]
    exact (h.raiseFault _).lead

theorem SameDecode.lead_executeUnanswered (h : SameDecode s t) (he : s.estate = .run .execute) :
    LeadAlike (executeUnanswered s) (executeUnanswered t) := by
  unfold executeUnanswered
  rw [← h.mstep]
  cases s.mstep with
  | some ms => exact h.lead_resumeUnasked ms
  | none =>
    obtain ⟨i, hs, ht⟩ | ⟨f, hs, ht⟩ := h.select_cases he
    · rw [hs, ht]
      exact h.traceBefore.lead_resumeUnasked (program i)
    · rw [hs, ht]
      exact (h.raiseFault _).lead

theorem SameDecode.lead_fetch (h : SameDecode s t) : LeadAlike (runFetched (fetch s)) (runFetched (fetch t)) := by
  unfold fetch
  rw [← h.rom, ← h.node, ← h.rd]
  cases walk s.rom.tree s.node 0 s.rd.rest with
  | exhausted => exact (h.raiseFault _).lead
  | noNode id => exact leadAlike_fault _ _
  | leaf op n => exact (h.atLeaf op n).lead_select rfl

theorem SameDecode.lead_traverseUnanswered (h : SameDecode s t) :
    LeadAlike (traverseUnanswered s) (traverseUnanswered t) := by
  unfold traverseUnanswered
  rw [← h.rom, ← h.node]
  cases s.rom.tree[s.node]? with
  | none => exact leadAlike_fault _ _
  | some node =>
    cases node with
    | leaf op => exact (h.atLeaf op 0).lead_executeUnanswered rfl
    | internal c0 c1 => exact h.lead

/-- Phase TRAVERSE, with FIN as it may be. -/
theorem SameDecode.lead_traverse (h : SameDecode s t) (hr : p.rst = false) (he : s.estate = .run .traverse) :
    LeadAlike (stepWith p s) (stepWith p t) := by
  have het : t.estate = .run .traverse := h.estate ▸ he
  cases hf : s.ps.fin with
  | true =>
    rw [stepWith_of_fin hr he hf, stepWith_of_fin hr het (h.ps ▸ hf)]
    exact SameDecode.lead { h with estate := rfl, opidx := nofun }
  | false =>
    rw [stepWith_of_traverse hr he hf, stepWith_of_traverse hr het (h.ps ▸ hf)]
    split
    · exact h.lead_fetch
    · exact h.lead_traverseUnanswered

theorem SameDecode.lead_execute (h : SameDecode s t) (hr : p.rst = false) (he : s.estate = .run .execute) :
    LeadAlike (stepWith p s) (stepWith p t) := by
  have het : t.estate = .run .execute := h.estate ▸ he
  cases hv : p.rdValid with
  | false =>
    rw [stepWith_of_execute_unanswered hr he hv, stepWith_of_execute_unanswered hr het hv]
    exact h.lead_executeUnanswered he
  | true =>
    cases hm : s.mstep with
    | none =>
      rw [stepWith_of_selected hr he hv hm, stepWith_of_selected hr het hv (h.mstep ▸ hm)]
      exact h.lead_select he
    | some ms =>
      rw [stepWith_of_begun hr he hv hm, stepWith_of_begun hr het hv (h.mstep ▸ hm)]
      exact h.lead_resume ms

theorem SameDecode.lead_stepWith (h : SameDecode s t) (p : Pins) : LeadAlike (stepWith p s) (stepWith p t) := by
  cases hr : p.rst with
  | true =>
    rw [stepWith_of_rst hr, stepWith_of_rst hr]
    exact (h.resetMoves p).lead
  | false =>
    have hbusy : t.busy = s.busy := by rw [State.busy, State.busy, h.estate]
    cases hb : s.busy with
    | false =>
      rw [stepWith_of_not_busy hr hb, stepWith_of_not_busy hr (hbusy.trans hb)]
      exact (h.hostMoves p).lead
    | true =>
      obtain ⟨phase, he⟩ := State.busy_iff.mp hb
      cases phase with
      | traverse => exact h.lead_traverse hr he
      | execute => exact h.lead_execute hr he
      | emit =>
        rw [stepWith_of_emit hr he, stepWith_of_emit hr (h.estate ▸ he)]
        exact (h.emitMoves p).lead

end

/-- Settles O32: both states take the same sample, and no part of a step reads what may differ between them. -/
theorem traceAndHistoryDoNotInfluenceADecode : Obligations.TraceAndHistoryDoNotInfluenceADecode := by
  intro s t s' h hstep
  obtain ⟨t', ht', halike⟩ := h.popPins.lead_stepWith s.pins s' hstep
  exact ⟨t', by rw [step, h.pins_eq, ht'], halike.outside, halike.decode⟩

end Sys2Proof.Machine
end

/-! ## Reader requests -/

section
namespace Sys2Proof.Machine

/-! ### When a request is offered -/

section
variable {s t : State} {p : Pins}

/-- A code bit is requested at an internal node, and what an operation's next micro-step reads while it executes. -/
theorem State.rdReqValid_iff : s.rdReqValid = true ↔
    (s.estate = .run .traverse ∧ ∃ c0 c1, s.rom.tree[s.node]? = some (.internal c0 c1)) ∨
      (s.estate = .run .execute ∧ ∃ m ms, s.mstep = some (m :: ms) ∧ (microRequest m).isSome = true) := by
  unfold State.rdReqValid State.rdReq
  constructor
  · intro h
    split at h
    · split at h
      · exact .inl ⟨‹_›, _, _, ‹_›⟩
      · cases h
      · cases h
    · split at h
      · exact .inr ⟨‹_›, _, _, ‹_›, h⟩
      · cases h
      · cases h
    all_goals cases h
  · rintro (⟨he, c0, c1, hnode⟩ | ⟨he, m, ms, hm, hreq⟩)
    · simp [he, hnode]
    · simp [he, hm, hreq]

theorem State.rdReq_eq_none_iff : s.rdReq = none ↔ ¬s.rdReqValid = true := by
  simp [State.rdReqValid]

theorem State.rdReq_of_code {c0 c1 : Nat} (he : s.estate = .run .traverse)
    (hnode : s.rom.tree[s.node]? = some (.internal c0 c1)) : s.rdReq = some .bit := by
  simp [State.rdReq, he, hnode]

/-! ### A request without an answer -/

/-- A request that is not answered stays: no step and no tick changes the state (R163). -/
theorem holds_of_unanswered (h : s.rdReqValid = true) (hf : s.ps.fin = false) (hr : p.rst = false)
    (hv : p.rdValid = false) : tickWith p s = .next s ∧ stepWith p s = .next s := by
  obtain ⟨he, c0, c1, hnode⟩ | ⟨he, m, ms, hm, hreq⟩ := State.rdReqValid_iff.mp h
  · rw [tickWith_of_traverse hr he hf, stepWith_of_traverse hr he hf]
    simp [tickTraverse, traverseUnanswered, hnode, hv]
  · rw [tickWith_of_execute hr he, stepWith_of_execute_unanswered hr he hv]
    have hstay : runUnasked (m :: ms) ⟨s.ps, s.rd⟩ = .ok (⟨s.ps, s.rd⟩, m :: ms) := runUnasked_of_request hreq
    refine ⟨by simp [tickExecute, hm, hreq, hv], ?_⟩
    simp only [executeUnanswered, hm, resumeUnasked, hstay]
    rw [← hm]

/-! ### An answer without a request -/

/-- What a tick does without a request does not look at RD_RESP_VALID. -/
theorem tickWith_of_no_request (h : s.rdReq = none) (b : Bool) :
    tickWith { p with rdValid := b } s = tickWith p s := by
  rw [State.rdReq_eq_none_iff, State.rdReqValid_iff, not_or] at h
  obtain ⟨hcode, hfield⟩ := h
  have htraverse (he : s.estate = .run .traverse) :
      tickTraverse { p with rdValid := b } s = tickTraverse p s := by
    unfold tickTraverse
    split
    · rfl
    · rfl
    · exact absurd ⟨he, _, _, ‹_›⟩ hcode
  have hexecute (he : s.estate = .run .execute) : tickExecute { p with rdValid := b } s = tickExecute p s := by
    unfold tickExecute
    split
    · rfl
    · rfl
    · rename_i m ms hm
      have hreq : (microRequest m).isSome = false :=
        Bool.eq_false_iff.mpr fun hreq => hfield ⟨he, m, ms, hm, hreq⟩
      simp only [hreq, Bool.false_and]
  unfold tickWith
  cases he : s.estate with
  | run phase =>
    cases phase with
    | traverse =>
      simp only [htraverse he]
      rfl
    | execute =>
      simp only [hexecute he]
      rfl
    | emit => rfl
  | idle => rfl
  | done => rfl
  | fault => rfl

/-- Outside TRAVERSE and EXECUTE a step does not look at it either. -/
theorem stepWith_of_no_phase (ht : s.estate ≠ .run .traverse) (he : s.estate ≠ .run .execute) (b : Bool) :
    stepWith { p with rdValid := b } s = stepWith p s := by
  rw [← tickWith_eq_stepWith (.inr ⟨ht, he⟩), ← tickWith_eq_stepWith (.inr ⟨ht, he⟩)]
  refine tickWith_of_no_request ?_ b
  rw [State.rdReq_eq_none_iff, State.rdReqValid_iff]
  rintro (⟨h, -⟩ | ⟨h, -⟩)
  · exact ht h
  · exact he h

/-! ### A step up to its next request -/

/-- What `t`, which a step without an answer has come to, says of the outcome `o` of the step with one: it is `t` itself, or,
where `t` stands at a request, the rest of the operation from there. -/
def GoesOnFrom (t : State) (o : Host.Outcome State Fault Refusal) : Prop :=
  (t.rdReq = none ∧ o = .next t) ∨
    (t.rdReq ≠ none ∧ t.estate = .run .execute ∧ ∃ ms, t.mstep = some ms ∧ o = resume ms t)

theorem goesOnFrom_self (h : t.rdReq = none) : GoesOnFrom t (.next t) := .inl ⟨h, rfl⟩

theorem rdReq_finishOperation (s : State) : (finishOperation s).rdReq = none := by
  unfold State.rdReq
  obtain ⟨he, -⟩ | ⟨he, -⟩ := finishOperation_ends s <;> rw [he]

theorem goesOnFrom_resume {ms : List Micro} (he : s.estate = .run .execute) (h : resumeUnasked ms s = .next t) :
    GoesOnFrom t (resume ms s) := by
  obtain ⟨c, hu, hr⟩ | ⟨f, hu, hr⟩ | ⟨ps, m, left, hreq, hu, hr⟩ := resumeUnasked_cases ms s
  · rw [hu] at h
    cases h
    exact hr ▸ goesOnFrom_self (rdReq_finishOperation _)
  · rw [hu] at h
    cases h
    exact hr ▸ goesOnFrom_self rfl
  · rw [hu] at h
    cases h
    refine .inr ⟨fun hnone => ?_, he, m :: left, rfl, hr⟩
    exact State.rdReq_eq_none_iff.mp hnone (State.rdReqValid_iff.mpr (.inr ⟨he, m, left, rfl, hreq⟩))

/-- The operation at hand, answered: selected if it has not begun, else the rest of it. -/
def executeAnswered (s : State) : Host.Outcome State Fault Refusal :=
  match s.mstep with
  | none => runFetched (select s)
  | some ms => resume ms s

theorem stepWith_of_execute_answered (hr : p.rst = false) (he : s.estate = .run .execute) (hv : p.rdValid = true) :
    stepWith p s = executeAnswered s := by
  unfold executeAnswered
  cases hm : s.mstep with
  | none => exact stepWith_of_selected hr he hv hm
  | some ms => exact stepWith_of_begun hr he hv hm

theorem goesOnFrom_execute (he : s.estate = .run .execute) (h : executeUnanswered s = .next t) :
    GoesOnFrom t (executeAnswered s) := by
  unfold executeUnanswered at h
  unfold executeAnswered
  cases hm : s.mstep with
  | some ms =>
    rw [hm] at h
    exact goesOnFrom_resume he h
  | none =>
    rw [hm] at h
    obtain ⟨i, hi⟩ | hf := select_cases s
    · rw [hi] at h
      simp only [hi, runFetched, exec_eq_runOperation]
      exact goesOnFrom_resume (s := traceBefore s) he h
    · rw [hf] at h
      cases h
      rw [hf]
      exact goesOnFrom_self rfl

/-- At a leaf the code asks nothing more, and its operation goes on (R79). -/
theorem goesOnFrom_traverse (he : s.estate = .run .traverse) (hreq : s.rdReq = none)
    (h : traverseUnanswered s = .next t) : GoesOnFrom t (runFetched (fetch s)) := by
  unfold traverseUnanswered at h
  cases hnode : s.rom.tree[s.node]? with
  | none =>
    rw [hnode] at h
    cases h
  | some node =>
    rw [hnode] at h
    cases node with
    | leaf op =>
      rw [fetch, walk_of_leaf hnode]
      exact goesOnFrom_execute (s := atLeaf op 0 s) rfl h
    | internal c0 c1 => cases hreq.symm.trans (State.rdReq_of_code he hnode)

/-- A step that starts at no request and gives `t` without an answer, in the sample `p₀`, goes on from `t` with one, in
the sample `p₁`. -/
theorem goesOnFrom_stepWith {p₀ p₁ : Pins} (hr₀ : p₀.rst = false) (hv₀ : p₀.rdValid = false) (hr₁ : p₁.rst = false)
    (hv₁ : p₁.rdValid = true) (he : s.estate = .run .traverse ∨ s.estate = .run .execute) (hreq : s.rdReq = none)
    (h : stepWith p₀ s = .next t) : GoesOnFrom t (stepWith p₁ s) := by
  rcases he with he | he
  · cases hf : s.ps.fin with
    | true =>
      rw [stepWith_of_fin hr₀ he hf] at h
      rw [stepWith_of_fin hr₁ he hf]
      cases h
      exact goesOnFrom_self rfl
    | false =>
      simp only [stepWith_of_traverse hr₀ he hf, hv₀, Bool.false_eq_true, if_false] at h
      simp only [stepWith_of_traverse hr₁ he hf, hv₁, if_true]
      exact goesOnFrom_traverse he hreq h
  · rw [stepWith_of_execute_unanswered hr₀ he hv₀] at h
    rw [stepWith_of_execute_answered hr₁ he hv₁]
    exact goesOnFrom_execute he h

/-- So the step with an answer gives `t` too, or does what it does from the request at which `t` stands. -/
theorem stepWith_answered_of_unanswered {p₀ p₁ : Pins} (hr : p₁.rst = p₀.rst) (hload : p₁.load = p₀.load)
    (hv₀ : p₀.rdValid = false) (hv₁ : p₁.rdValid = true)
    (he : s.estate = .run .traverse ∨ s.estate = .run .execute) (hreq : s.rdReq = none) (h : stepWith p₀ s = .next t) :
    (t.rdReq = none → stepWith p₁ s = .next t) ∧ (t.rdReq ≠ none → stepWith p₁ s = stepWith p₁ t) := by
  cases hr₀ : p₀.rst with
  | true =>
    have hsame : stepWith p₁ s = stepWith p₀ s := by
      simp only [stepWith_of_rst hr₀, stepWith_of_rst (hr.trans hr₀), resetMoves, loadReader, hload]
    rw [stepWith_of_rst hr₀] at h
    cases h
    exact ⟨fun _ => hsame.trans (stepWith_of_rst hr₀), fun hn => absurd rfl hn⟩
  | false =>
    have hr₁ : p₁.rst = false := hr.trans hr₀
    obtain ⟨hnone, ho⟩ | ⟨hsome, het, ms, hm, ho⟩ := goesOnFrom_stepWith hr₀ hv₀ hr₁ hv₁ he hreq h
    · exact ⟨fun _ => ho, fun hn => absurd hnone hn⟩
    · exact ⟨fun hn => absurd hn hsome, fun _ => ho.trans (stepWith_of_begun hr₁ het hv₁ hm).symm⟩

end

/-- Settles O17: the codes and widths are computed; a request stays by `holds_of_unanswered`, and an answer that nothing
asks for is passed over by `tickWith_of_no_request` and, inside a step, by `goesOnFrom_stepWith`. -/
theorem requestsStayOffered : Obligations.RequestsStayOffered := by
  refine ⟨⟨rfl, fun _ => rfl, rfl, rfl, rfl, rfl⟩, ⟨fun n hn => ?_, rfl, rfl, rfl, rfl, rfl⟩, fun s h => ?_,
    fun s c0 c1 => State.rdReq_of_code, fun s h hf => holds_of_unanswered (s := s.popPins) h hf,
    fun s h hf hnever => ?_, fun s p b h => tickWith_of_no_request h b,
    fun s p b ht he => stepWith_of_no_phase ht he b, fun s t p => stepWith_answered_of_unanswered rfl rfl rfl rfl⟩
  · rw [requestWidth, BitVec.toNat_ofNat]
    exact Nat.mod_eq_of_lt (by omega)
  · exact (State.rdReqValid_iff.mp h).imp And.left And.left
  · have hold : ∀ (p : Pins) (host : List Pins), p.rst = false ∧ p.rdValid = false →
        stepWith p { s with host := host } = .next { s with host := host } :=
      fun p host ⟨hr, hv⟩ => (holds_of_unanswered (s := { s with host := host }) h hf hr hv).2
    exact State.after_of_holds hold hnever

end Sys2Proof.Machine
end

/-! # 70_reset_and_hazards.md

RST at both granularities, and the power-on state (R170, R173). -/

section
namespace Sys2Proof.Machine

/-! ### RST -/

/-- In IDLE with FKIND cleared and OUT empty STATUS and OUTCOUNT are 0, and nothing is requested or offered. -/
theorem ports_of_idle {s : State} (he : s.estate = .idle) (hk : s.fkind = .none) (ho : s.out = []) :
    s.status = 0 ∧ s.outcount = 0 ∧ s.rdReqValid = false ∧ s.snapValid = false := by
  refine ⟨?_, ?_, ?_, ?_⟩
  · rw [State.status, State.busy, State.doneBit, State.faulted, he, hk]
    rfl
  · simp [State.outcount, ho]
  · simp [State.rdReqValid, State.rdReq, he]
  · simp [State.snapValid, he]

/-- Settles O11: under RST a step is `resetMoves` whatever the ESTATE, and a tick is a step. -/
theorem rstGivesTheResetState : Obligations.RstGivesTheResetState := by
  intro s hr
  have hstep : step s = .next (resetMoves s.pins s.popPins) := stepWith_of_rst hr
  have htick : tick s = step s := tickWith_eq_stepWith (s := s.popPins) (.inl hr)
  exact ⟨Config.resetOpidx s.draws, _, hstep, htick.trans hstep, rfl, ports_of_idle rfl rfl rfl⟩

/-! ### Power-on -/

/-- Settles O12: the values stand in `State.reset`, and its ports are those of IDLE. -/
theorem powerOnStateHasTheResetValues : Obligations.PowerOnStateHasTheResetValues := by
  obtain ⟨hstatus, hcount, hreq, hsnap⟩ := ports_of_idle (s := .reset) rfl rfl rfl
  exact ⟨rfl, rfl, rfl, rfl, rfl, hstatus, rfl, hcount, hreq, hsnap⟩

/-- The reference ROMs belong together (R173): 79 nodes for 40 operations, every child a node, every leaf an operation
with a kind, and an internal root. -/
theorem referenceRom_consistent : referenceRom.consistent = true := by decide

/-- Settles O24: the reference ROMs belong together, and the power-on state, like RST's, stands between operations with the
initial path state and OUT empty. -/
theorem powerOnStateHasTheInvariant : Obligations.PowerOnStateHasTheInvariant := by
  have hs : Sound State.reset := ⟨referenceRom_consistent, good_initial .reference, rfl, nofun⟩
  exact hs.inv_of_between (.inl ⟨.inl rfl, rfl⟩) rfl rfl

end Sys2Proof.Machine
end
